-- ==== Sys2Proof/Word.lean ====
section
/-! DEFINITION. The words of the Bifrost machine (00_scope.md R7, R9, R10). -/

namespace Sys2Proof

/-- "a 16-bit unit of storage; the machine's native operand size" (00_scope.md R15). Read as unsigned it is
`toNat`, read as signed (`s16` of R10) it is `toInt`. -/
abbrev Word := BitVec 16

/-- A byte of the two host interfaces that have bytes: the program loader and the snapshot (20_memory.md R73). -/
abbrev Byte := BitVec 8

end Sys2Proof
end

