-- ==== Sys2Proof/Syntax.lean ====
section
/-! DEFINITION. The instructions of the Bifrost ISA as data: registers, operands, and one constructor for each row of
spec/opcode_table.json. -/

namespace Sys2Proof

/-- The eight general registers, numbered 0 to 7 in this order (10_state.md R30). -/
inductive Reg where
  | a | b | c | x | y | z | i | j
  deriving DecidableEq, Repr

/-- The two operand positions (30_encoding.md R101): a is the source field, b the destination field. -/
inductive Position where
  | a | b
  deriving DecidableEq, Repr

/-- The operand codes of 30_encoding.md R106 with the inline word the code takes. -/
inductive Operand where
  /-- 0x00-0x07: a register. -/
  | reg (r : Reg)
  /-- 0x08-0x0F: the memory word at a register's value. -/
  | ind (r : Reg)
  /-- 0x10-0x17: the memory word at register + next word. -/
  | idx (r : Reg) (n : Word)
  /-- 0x18: POP in the a position, PUSH in the b position. -/
  | stack
  /-- 0x19: PEEK, the memory word at SP. -/
  | peek
  /-- 0x1A: PICK, the memory word at SP + next word. -/
  | pick (n : Word)
  /-- 0x1B -/
  | sp
  /-- 0x1C -/
  | pc
  /-- 0x1D -/
  | ex
  /-- 0x1E: the memory word at next word. -/
  | abs (n : Word)
  /-- 0x1F: next word as a literal. -/
  | lit (n : Word)
  /-- 0x20-0x3F: the literal `code - 0x21`; `c` is the code's low five bits. The a position only. -/
  | short (c : BitVec 5)
  deriving DecidableEq, Repr

/-- The 36 instructions. A basic one has its destination operand b first, as the assembler writes it
(00_scope.md R14); a special one has the operand a alone. -/
inductive Instr where
  | set (b a : Operand)
  | add (b a : Operand)
  | sub (b a : Operand)
  | mul (b a : Operand)
  | mli (b a : Operand)
  | div (b a : Operand)
  | dvi (b a : Operand)
  | mod (b a : Operand)
  | mdi (b a : Operand)
  | and (b a : Operand)
  | bor (b a : Operand)
  | xor (b a : Operand)
  | shr (b a : Operand)
  | asr (b a : Operand)
  | shl (b a : Operand)
  | ifb (b a : Operand)
  | ifc (b a : Operand)
  | ife (b a : Operand)
  | ifn (b a : Operand)
  | ifg (b a : Operand)
  | ifa (b a : Operand)
  | ifl (b a : Operand)
  | ifu (b a : Operand)
  | adx (b a : Operand)
  | sbx (b a : Operand)
  | sti (b a : Operand)
  | std (b a : Operand)
  | jsr (a : Operand)
  | int (a : Operand)
  | iag (a : Operand)
  | ias (a : Operand)
  | rfi (a : Operand)
  | iaq (a : Operand)
  | hwn (a : Operand)
  | hwq (a : Operand)
  | hwi (a : Operand)
  deriving DecidableEq, Repr

/-- What the two instruction formats hold beside their opcode (30_encoding.md R101, R102): two operands or one. -/
inductive Operands where
  | two (b a : Operand)
  | one (a : Operand)
  deriving DecidableEq, Repr

/-- The operands of an instruction, by its format. -/
def Instr.operands : Instr → Operands
  | .set b a => .two b a
  | .add b a => .two b a
  | .sub b a => .two b a
  | .mul b a => .two b a
  | .mli b a => .two b a
  | .div b a => .two b a
  | .dvi b a => .two b a
  | .mod b a => .two b a
  | .mdi b a => .two b a
  | .and b a => .two b a
  | .bor b a => .two b a
  | .xor b a => .two b a
  | .shr b a => .two b a
  | .asr b a => .two b a
  | .shl b a => .two b a
  | .ifb b a => .two b a
  | .ifc b a => .two b a
  | .ife b a => .two b a
  | .ifn b a => .two b a
  | .ifg b a => .two b a
  | .ifa b a => .two b a
  | .ifl b a => .two b a
  | .ifu b a => .two b a
  | .adx b a => .two b a
  | .sbx b a => .two b a
  | .sti b a => .two b a
  | .std b a => .two b a
  | .jsr a => .one a
  | .int a => .one a
  | .iag a => .one a
  | .ias a => .one a
  | .rfi a => .one a
  | .iaq a => .one a
  | .hwn a => .one a
  | .hwq a => .one a
  | .hwi a => .one a

end Sys2Proof
end

