-- ==== Sys2Proof/WellFormed.lean ====
section
/-! DEFINITION. Which terms of `Instr` an encoding exists for (30_encoding.md R103). -/

namespace Sys2Proof

/-- The b field has five bits, so a b operand is one of the codes 0x00-0x1F: "The short literals 0x20-0x3F cannot
occur in the b position" (30_encoding.md R103). -/
def Operand.fitsB : Operand → Bool
  | .short _ => false
  | _ => true

/-- The only check an instruction needs: every value of the a field is a defined operand code (30_encoding.md R103),
and registers, inline words and short literals have their widths by type. -/
def Instr.wellFormed (i : Instr) : Bool :=
  match i.operands with
  | .two b _ => b.fitsB
  | .one _ => true

end Sys2Proof
end

