-- ==== Sys2Proof/Decode.lean ====
section
/-! DEFINITION. The decoder and the encoder (30_encoding.md): fields, operand codes, the opcode map, instruction
lengths, illegal words. The decoder is total on any list of words and rejects by name. -/

namespace Sys2Proof

/-! ## Fields -/

/-- `w[4:0]`, the basic opcode (30_encoding.md R101). -/
def opField (w : Word) : BitVec 5 := w.extractLsb' 0 5

/-- `w[9:5]`, the destination operand code, or the special opcode (30_encoding.md R101, R102). -/
def bField (w : Word) : BitVec 5 := w.extractLsb' 5 5

/-- `w[15:10]`, the source operand code (30_encoding.md R101). -/
def aField (w : Word) : BitVec 6 := w.extractLsb' 10 6

/-- `word = (a << 10) | (b << 5) | op` (30_encoding.md R101, R102). -/
def packWord (a : BitVec 6) (b op : BitVec 5) : Word := a ++ b ++ op

/-! ## Operand codes -/

/-- Register numbers (10_state.md R30); only 0 to 7 are asked for. -/
def regOf : Nat → Reg
  | 0 => .a
  | 1 => .b
  | 2 => .c
  | 3 => .x
  | 4 => .y
  | 5 => .z
  | 6 => .i
  | _ => .j

def Reg.number : Reg → Nat
  | .a => 0
  | .b => 1
  | .c => 2
  | .x => 3
  | .y => 4
  | .z => 5
  | .i => 6
  | .j => 7

/-- `nw(c) = 1`: the code takes an inline word (30_encoding.md R105). -/
def needsWord (c : BitVec 6) : Bool :=
  (0x10 ≤ c.toNat && c.toNat ≤ 0x17) || c.toNat == 0x1A || c.toNat == 0x1E || c.toNat == 0x1F

/-- The operand a code denotes (30_encoding.md R106); `n` is the next word, used by the codes that take one. -/
def operandOf (c : BitVec 6) (n : Word) : Operand :=
  if c.toNat < 0x08 then .reg (regOf c.toNat)
  else if c.toNat < 0x10 then .ind (regOf (c.toNat - 0x08))
  else if c.toNat < 0x18 then .idx (regOf (c.toNat - 0x10)) n
  else if c.toNat = 0x18 then .stack
  else if c.toNat = 0x19 then .peek
  else if c.toNat = 0x1A then .pick n
  else if c.toNat = 0x1B then .sp
  else if c.toNat = 0x1C then .pc
  else if c.toNat = 0x1D then .ex
  else if c.toNat = 0x1E then .abs n
  else if c.toNat = 0x1F then .lit n
  else .short (c.extractLsb' 0 5)

/-- The code of an operand (30_encoding.md R106). -/
def Operand.code : Operand → BitVec 6
  | .reg r => BitVec.ofNat 6 r.number
  | .ind r => BitVec.ofNat 6 (0x08 + r.number)
  | .idx r _ => BitVec.ofNat 6 (0x10 + r.number)
  | .stack => 0x18
  | .peek => 0x19
  | .pick _ => 0x1A
  | .sp => 0x1B
  | .pc => 0x1C
  | .ex => 0x1D
  | .abs _ => 0x1E
  | .lit _ => 0x1F
  | .short c => BitVec.ofNat 6 (0x20 + c.toNat)

/-- The inline word of an operand, if its code takes one (30_encoding.md R106). -/
def Operand.inline : Operand → List Word
  | .idx _ n | .pick n | .abs n | .lit n => [n]
  | _ => []

/-! ## The opcode map -/

/-- Basic opcodes (30_encoding.md R109); the numbers not listed are illegal (R112). -/
def basicOf (op : BitVec 5) (b a : Operand) : Option Instr :=
  match op.toNat with
  | 0x01 => some (.set b a)
  | 0x02 => some (.add b a)
  | 0x03 => some (.sub b a)
  | 0x04 => some (.mul b a)
  | 0x05 => some (.mli b a)
  | 0x06 => some (.div b a)
  | 0x07 => some (.dvi b a)
  | 0x08 => some (.mod b a)
  | 0x09 => some (.mdi b a)
  | 0x0A => some (.and b a)
  | 0x0B => some (.bor b a)
  | 0x0C => some (.xor b a)
  | 0x0D => some (.shr b a)
  | 0x0E => some (.asr b a)
  | 0x0F => some (.shl b a)
  | 0x10 => some (.ifb b a)
  | 0x11 => some (.ifc b a)
  | 0x12 => some (.ife b a)
  | 0x13 => some (.ifn b a)
  | 0x14 => some (.ifg b a)
  | 0x15 => some (.ifa b a)
  | 0x16 => some (.ifl b a)
  | 0x17 => some (.ifu b a)
  | 0x1A => some (.adx b a)
  | 0x1B => some (.sbx b a)
  | 0x1E => some (.sti b a)
  | 0x1F => some (.std b a)
  | _ => none

/-- Special opcodes (30_encoding.md R110); the numbers not listed are illegal (R112). -/
def specialOf (sop : BitVec 5) (a : Operand) : Option Instr :=
  match sop.toNat with
  | 0x01 => some (.jsr a)
  | 0x08 => some (.int a)
  | 0x09 => some (.iag a)
  | 0x0A => some (.ias a)
  | 0x0B => some (.rfi a)
  | 0x0C => some (.iaq a)
  | 0x10 => some (.hwn a)
  | 0x11 => some (.hwq a)
  | 0x12 => some (.hwi a)
  | _ => none

/-- The opcode of an instruction: `op` of a basic one, `sop` of a special one (30_encoding.md R109, R110). -/
def Instr.number : Instr → BitVec 5
  | .set _ _ => 0x01
  | .add _ _ => 0x02
  | .sub _ _ => 0x03
  | .mul _ _ => 0x04
  | .mli _ _ => 0x05
  | .div _ _ => 0x06
  | .dvi _ _ => 0x07
  | .mod _ _ => 0x08
  | .mdi _ _ => 0x09
  | .and _ _ => 0x0A
  | .bor _ _ => 0x0B
  | .xor _ _ => 0x0C
  | .shr _ _ => 0x0D
  | .asr _ _ => 0x0E
  | .shl _ _ => 0x0F
  | .ifb _ _ => 0x10
  | .ifc _ _ => 0x11
  | .ife _ _ => 0x12
  | .ifn _ _ => 0x13
  | .ifg _ _ => 0x14
  | .ifa _ _ => 0x15
  | .ifl _ _ => 0x16
  | .ifu _ _ => 0x17
  | .adx _ _ => 0x1A
  | .sbx _ _ => 0x1B
  | .sti _ _ => 0x1E
  | .std _ _ => 0x1F
  | .jsr _ => 0x01
  | .int _ => 0x08
  | .iag _ => 0x09
  | .ias _ => 0x0A
  | .rfi _ => 0x0B
  | .iaq _ => 0x0C
  | .hwn _ => 0x10
  | .hwq _ => 0x11
  | .hwi _ => 0x12

/-! ## Lengths and illegal words, from the instruction word alone -/

/-- `len(w) = 1 + nw(w[15:10]) + (w[4:0] != 0 ? nw(w[9:5]) : 0)` (30_encoding.md R105). -/
def wordLength (w : Word) : Nat :=
  1 + (if needsWord (aField w) then 1 else 0) +
    (if opField w ≠ 0 then (if needsWord ((bField w).setWidth 6) then 1 else 0) else 0)

/-- The code an illegal word reports, none for a legal word (30_encoding.md R112): the `op` value of a basic opcode,
the `sop` value of a special one. -/
def illegalCode (w : Word) : Option (BitVec 5) :=
  let op := (opField w).toNat
  let sop := (bField w).toNat
  if op = 0x18 ∨ op = 0x19 ∨ op = 0x1C ∨ op = 0x1D then some (opField w)
  else if op = 0 ∧ (sop = 0 ∨ (0x02 ≤ sop ∧ sop ≤ 0x07) ∨ (0x0D ≤ sop ∧ sop ≤ 0x0F) ∨ 0x13 ≤ sop) then some (bField w)
  else none

/-- The conditional family, op = 0x10-0x17 (30_encoding.md R111). -/
def isConditional (w : Word) : Bool := 0x10 ≤ (opField w).toNat && (opField w).toNat ≤ 0x17

/-! ## The decoder -/

/-- Why the decoder rejects a list of words. -/
inductive DecodeReject where
  /-- an illegal word, with the code it reports (30_encoding.md R112) -/
  | illegal (code : BitVec 5)
  /-- the list ends before the instruction does; memory never ends, so no step meets it -/
  | missingWord
  deriving DecidableEq, Repr

/-- Decode the instruction whose word is `w` in a window of three words: a's inline word comes first, b's second
(30_encoding.md R104); a word the codes do not take is ignored. -/
def decodeWindow (w n₁ n₂ : Word) : Except (BitVec 5) Instr :=
  let a := operandOf (aField w) n₁
  if opField w = 0 then
    match specialOf (bField w) a with
    | some i => .ok i
    | none => .error (bField w)
  else
    match basicOf (opField w) (operandOf ((bField w).setWidth 6) (if needsWord (aField w) then n₂ else n₁)) a with
    | some i => .ok i
    | none => .error (opField w)

/-- Decode the first instruction of a list of words and answer the words after it (30_encoding.md R100 to R105). -/
def decode : List Word → Except DecodeReject (Instr × List Word)
  | [] => .error .missingWord
  | w :: rest =>
    match decodeWindow w (rest.getD 0 0) (rest.getD 1 0) with
    | .error code => .error (.illegal code)
    | .ok i => if rest.length < wordLength w - 1 then .error .missingWord else .ok (i, rest.drop (wordLength w - 1))

/-- The host's question about a row of the opcode table: the bits of `w` below `nbits`, laid out as words, the first
word in the low bits, every bit above `nbits` zero. -/
def decodeTableWord (nbits w : Nat) : Option Instr :=
  let bits := w % 2 ^ nbits
  match decode [BitVec.ofNat 16 bits, BitVec.ofNat 16 (bits / 2 ^ 16), BitVec.ofNat 16 (bits / 2 ^ 32)] with
  | .ok (i, _) => some i
  | .error _ => none

/-! ## The encoder -/

/-- The first word of an instruction (30_encoding.md R101, R102). -/
def firstWord (i : Instr) : Word :=
  match i.operands with
  | .two b a => packWord a.code (b.code.setWidth 5) i.number
  | .one a => packWord a.code i.number 0

/-- The inline words of an instruction, a's before b's (30_encoding.md R104). -/
def inlineWords (i : Instr) : List Word :=
  match i.operands with
  | .two b a => a.inline ++ b.inline
  | .one a => a.inline

/-- The words of a well-formed instruction (30_encoding.md R100). -/
def encode (i : Instr) : List Word := firstWord i :: inlineWords i

end Sys2Proof
end

