-- ==== Sys2Proof/Config.lean ====
section
/-! DEFINITION. What an implementation fixes and the spec leaves open: the parameters of 00_scope.md R8. Each is a
constant without a body, so a theorem holds whatever its value is, the values the spec's examples use among them. -/

namespace Sys2Proof.Config

/-- The two orders of 41_executor.md R188: which of the two values written to EX remains when an EX-writing opcode
has EX as its destination. -/
inductive ExDestOrder where
  | resultLast
  | exLast
  deriving DecidableEq, Repr, Inhabited

/-- `EX_DEST_ORDER` (41_executor.md R188, D9): open, no default (assumption 4). -/
opaque exDestOrder : ExDestOrder

/-- `SBX_EX_ABOVE` in 0, 1 (42_alu.md R245, D8): `true` is 1 (assumption 5). -/
opaque sbxExAbove : Bool

/-- The identity triple HWQ reports: 32-bit hardware id, 16-bit version, 32-bit manufacturer (00_scope.md R7). -/
structure Identity where
  hardware     : BitVec 32
  version      : Word
  manufacturer : BitVec 32
  deriving DecidableEq, Repr, Inhabited

/-- `ID_CLOCK` (45_device_clock.md R352, D37; assumption 6). -/
opaque idClock : Identity

/-- `ID_KEYBOARD` (46_device_keyboard.md R389, D37; assumption 6). -/
opaque idKeyboard : Identity

/-- `ID_DISPLAY` (47_device_display.md R412, D37; assumption 6). -/
opaque idDisplay : Identity

/-- The three kinds of device an entry of DEVICES may be (10_state.md R41). -/
inductive DeviceKind where
  | clock
  | keyboard
  | display
  deriving DecidableEq, Repr, Inhabited

/-- How many devices the host attached: at most 65536 (D45; assumption 2). -/
opaque deviceCount : Fin 65537

/-- Which kind of device stands at an index (D38; assumption 2). -/
opaque deviceAt : Nat → DeviceKind

/-- `DEVICES` (10_state.md R41, D38): the ordered list the host attached. -/
def deviceKinds : List DeviceKind := (List.range deviceCount.val).map deviceAt

/-- `COST[op] - 1` of a basic opcode (41_executor.md R191, D14; assumption 3). -/
opaque basicCostLessOne : BitVec 5 → Fin 4

/-- `COST_S[sop] - 1` of a special opcode (41_executor.md R191, D14; assumption 3). -/
opaque specialCostLessOne : BitVec 5 → Fin 4

/-- `COST[op]`: "Each opcode has a fixed base cycle cost (1–4)" (41_executor.md R183). -/
def basicCost (op : BitVec 5) : Nat := (basicCostLessOne op).val + 1

/-- `COST_S[sop]` (41_executor.md R183). -/
def specialCost (sop : BitVec 5) : Nat := (specialCostLessOne sop).val + 1

/-- `FONT_COST` (47_device_display.md R416, D27): a non-negative cycle cost (assumption 7). -/
opaque fontCost : Nat

/-- `PALETTE_COST` (47_device_display.md R417, D27): a non-negative cycle cost (assumption 7). -/
opaque paletteCost : Nat

/-- `DEFAULT_FONT`, 256 words (47_device_display.md R424, D34; assumption 8). -/
opaque defaultFont : Fin 256 → Word

/-- `DEFAULT_PALETTE`, 16 words (47_device_display.md R422, D34; assumption 8). -/
opaque defaultPalette : Fin 16 → Word

/-- `RATE - 1`: RATE is a positive integer (D40; assumption 10). -/
opaque rateLessOne : Nat

/-- `RATE`, the nominal clock rate in cycles per second (D40; assumption 10). -/
def rate : Nat := rateLessOne + 1

/-- The two roundings of 70_reset_and_hazards.md R521 (D49, C10). -/
inductive Rounding where
  | floor
  | ceil
  deriving DecidableEq, Repr, Inhabited

/-- `ROUND` (70_reset_and_hazards.md R521, D49; assumption 10). -/
opaque rounding : Rounding

/-- `BLINK_HALF` as a numerator and a denominator, each less one (47_device_display.md R423, D33; assumption 9). -/
opaque blinkHalfLessOne : Nat × Nat

/-- `BLINK_HALF` in seconds, a positive rational (47_device_display.md R423, D33). -/
def blinkHalf : Rat := (blinkHalfLessOne.1 + 1 : Nat) / (blinkHalfLessOne.2 + 1 : Nat)

end Sys2Proof.Config
end

