-- ==== Sys2Proof/Machine/State.lean ====
section
/-! DEFINITION. The architectural state of the machine (10_state.md), as plain data, and the state after power-on. -/

namespace Sys2Proof.Machine

open Sys2Proof.Config (DeviceKind)

/-- The general registers (10_state.md R30). -/
structure Regs where
  a : Word
  b : Word
  c : Word
  x : Word
  y : Word
  z : Word
  i : Word
  j : Word
  deriving DecidableEq, Repr

/-- M (10_state.md R40): (word address, word) pairs, addresses strictly rising, no word 0 listed; an unlisted address
reads as 0, the reset contents (70_reset_and_hazards.md R500). The cell is the machine's word: there is no byte in
memory (20_memory.md R72, R73; assumption 1). -/
abbrev Memory := List (Nat × Word)

/-- `Decode(code, pc)` (10_state.md R39): the offending opcode value and the address of its word. -/
structure DecodeError where
  code : BitVec 5
  pc   : Word
  deriving DecidableEq, Repr

/-- The Clock (45_device_clock.md R350): CLK_DIV, CLK_NEXT, CLK_TICKS, CLK_MSG. -/
structure Clock where
  divisor  : Word
  deadline : Rat
  ticks    : Nat
  message  : Word
  deriving DecidableEq, Repr

/-- The Keyboard (46_device_keyboard.md R380): KB_Q oldest first, KB_DOWN as the rising list of the pressed codes
(assumption 20), KB_MSG, KB_EDGE. -/
structure Keyboard where
  queue   : List Word
  down    : List Nat
  message : Word
  edge    : Bool
  deriving DecidableEq, Repr

/-- The Display (47_device_display.md R410): VRAM, FONT, PAL. -/
structure Display where
  vram : Word
  font : Word
  pal  : Word
  deriving DecidableEq, Repr

/-- An entry of DEVICES (10_state.md R41, R42). -/
inductive Device where
  | clock (k : Clock)
  | keyboard (k : Keyboard)
  | display (d : Display)
  deriving DecidableEq, Repr

/-- The whole machine (10_state.md R45). -/
structure State where
  regs : Regs
  pc : Word
  sp : Word
  ex : Word
  ia : Word
  /-- IQ: `true` is 1, delivery suppressed (10_state.md R36). -/
  iq : Bool
  /-- IFQ, oldest first (10_state.md R37). -/
  ifq : List Word
  cyc : Nat
  fault : Option DecodeError
  mem : Memory
  devices : List Device
  /-- T, in seconds (10_state.md R43). -/
  time : Rat
  /-- the scheduler's `last`, none while uninitialised (70_reset_and_hazards.md R521). -/
  last : Option Rat
  /-- the scheduler's `bal` (70_reset_and_hazards.md R521). -/
  bal : Int
  deriving DecidableEq, Repr

/-- Why a step has no successor. -/
inductive Fault where
  /-- Raised by `step` alone, in a state whose FAULT is not none: "While FAULT is not `None` the core takes no step"
  (10_state.md R39, 60_exceptions.md R470). Safe: the hardware does not go on either. -/
  | coreStopped (e : DecodeError)
  /-- Raised by a failed conditional whose skip chain never ends: "the CPU step has no result"
  (43_conditional.md R283). Safe: the hardware has no next state either. -/
  | skipNeverEnds
  deriving DecidableEq, Repr

/-- Why an instruction is refused. -/
inductive Refusal where
  /-- An instruction without a meaning, raised by `exec` alone; no arm of it raises it any more. Safe. -/
  | notModelled (mnemonic : String)
  deriving DecidableEq, Repr

/-- What a step, or the meaning of an instruction, answers. -/
abbrev StepOutcome := Host.Outcome State Fault Refusal

/-- A device as it is at power-on (45_device_clock.md R351, 46_device_keyboard.md R381, 47_device_display.md R411). -/
def powerOnDevice : DeviceKind → Device
  | .clock => .clock { divisor := 0, deadline := 0, ticks := 0, message := 0 }
  | .keyboard => .keyboard { queue := [], down := [], message := 0, edge := false }
  | .display => .display { vram := 0, font := 0, pal := 0 }

/-- Power-on with a given DEVICES (70_reset_and_hazards.md R500, R501). `bal` has no stated value before the first
invocation, which sets it: 0 (assumption 13). -/
def State.powerOn (kinds : List DeviceKind) : State where
  regs := { a := 0, b := 0, c := 0, x := 0, y := 0, z := 0, i := 0, j := 0 }
  pc := 0
  sp := 0
  ex := 0
  ia := 0
  iq := false
  ifq := []
  cyc := 0
  fault := none
  mem := []
  devices := kinds.map powerOnDevice
  time := 0
  last := none
  bal := 0

/-- The machine right after reset: power-on with the attached devices of Config (70_reset_and_hazards.md R501,
assumption 2). -/
def State.reset : State := State.powerOn Config.deviceKinds

end Sys2Proof.Machine
end

