-- ==== Sys2Proof/Machine/Ops.lean ====
section
/-! DEFINITION. The named operations on memory, registers, the stack, the cycle counter, the interrupt controller and
FAULT. Taking an interrupt and returning from one stand here, once (60_exceptions.md R450 to R457). -/

namespace Sys2Proof.Machine

/-! ## Memory (20_memory.md) -/

/-- What an address reads as: the listed word, 0 where none is listed (70_reset_and_hazards.md R500). -/
def Memory.readAt : Memory → Nat → Word
  | [], _ => 0
  | (k, v) :: m, a => if k = a then v else Memory.readAt m a

/-- Put a cell before the first cell with a higher address. -/
def Memory.insertCell (a : Nat) (v : Word) : Memory → Memory
  | [] => [(a, v)]
  | (k, u) :: m => if a < k then (a, v) :: (k, u) :: m else (k, u) :: Memory.insertCell a v m

/-- Store a word: the old cell goes, and a cell is listed unless the word is what an unlisted address reads as. -/
def Memory.writeAt (m : Memory) (a : Nat) (v : Word) : Memory :=
  let rest := m.filter (fun cell => cell.1 ≠ a)
  if v = 0 then rest else Memory.insertCell a v rest

/-- `MemRead(addr, 1)` (20_memory.md R72). -/
def Memory.read (m : Memory) (a : Word) : Word := m.readAt a.toNat

/-- `MemWrite(addr, 1, v)` (20_memory.md R72). -/
def Memory.write (m : Memory) (a v : Word) : Memory := m.writeAt a.toNat v

/-- The canonical form: addresses strictly rising and inside the address space, no listed word 0. -/
abbrev Memory.wf (m : Memory) : Prop :=
  m.Pairwise (fun p q => p.1 < q.1) ∧ ∀ cell ∈ m, cell.2 ≠ 0 ∧ cell.1 < 65536

/-- The cells of a run of words from an address on, in canonical form. -/
def Memory.cellsOf : Nat → List Word → Memory
  | _, [] => []
  | a, v :: vs => if v = 0 then Memory.cellsOf (a + 1) vs else (a, v) :: Memory.cellsOf (a + 1) vs

/-- Overwrite addresses 0 .. |ws| - 1, keeping the rest; words beyond the address space are ignored
(70_reset_and_hazards.md R502, R512). -/
def Memory.loadWords (ws : List Word) (m : Memory) : Memory :=
  Memory.cellsOf 0 (ws.take 65536) ++ m.filter (fun cell => ws.length ≤ cell.1)

/-! ## Registers (10_state.md) -/

/-- `R[n]` (00_scope.md R11). -/
def Regs.get (g : Regs) : Reg → Word
  | .a => g.a
  | .b => g.b
  | .c => g.c
  | .x => g.x
  | .y => g.y
  | .z => g.z
  | .i => g.i
  | .j => g.j

/-- `R[n] <- v` (00_scope.md R11). -/
def Regs.set (g : Regs) (r : Reg) (v : Word) : Regs :=
  match r with
  | .a => { g with a := v }
  | .b => { g with b := v }
  | .c => { g with c := v }
  | .x => { g with x := v }
  | .y => { g with y := v }
  | .z => { g with z := v }
  | .i => { g with i := v }
  | .j => { g with j := v }

def State.reg (s : State) (r : Reg) : Word := s.regs.get r

def State.setReg (s : State) (r : Reg) (v : Word) : State := { s with regs := s.regs.set r v }

def State.setRegs (s : State) (g : Regs) : State := { s with regs := g }

def State.setPc (s : State) (v : Word) : State := { s with pc := v }

def State.setSp (s : State) (v : Word) : State := { s with sp := v }

def State.setEx (s : State) (v : Word) : State := { s with ex := v }

def State.setIa (s : State) (v : Word) : State := { s with ia := v }

def State.setIq (s : State) (v : Bool) : State := { s with iq := v }

def State.setIfq (s : State) (q : List Word) : State := { s with ifq := q }

def State.setFault (s : State) (e : Option DecodeError) : State := { s with fault := e }

def State.setMem (s : State) (m : Memory) : State := { s with mem := m }

def State.setDevices (s : State) (ds : List Device) : State := { s with devices := ds }

/-- One word of M. -/
def State.readMem (s : State) (a : Word) : Word := s.mem.read a

def State.writeMem (s : State) (a v : Word) : State := s.setMem (s.mem.write a v)

/-- PC past one fetched word, modulo 2^16 (10_state.md R31, D3). -/
def State.advancePc (s : State) : State := s.setPc (s.pc + 1)

/-- `CYC <- CYC + cost` (41_executor.md R190). -/
def State.charge (s : State) (cost : Nat) : State := { s with cyc := s.cyc + cost }

/-! ## The stack (10_state.md R32) -/

/-- Decrement SP, then store at SP. -/
def State.push (s : State) (v : Word) : State := (s.setSp (s.sp - 1)).writeMem (s.sp - 1) v

/-- The word at SP, and SP incremented. -/
def State.pop (s : State) : Word × State := (s.readMem s.sp, s.setSp (s.sp + 1))

/-! ## The interrupt controller (60_exceptions.md) -/

/-- `enqueue(m)` (60_exceptions.md R451). -/
def State.enqueue (s : State) (m : Word) : State := s.setIfq (s.ifq ++ [m])

/-- Delivery of a message, whose rest of the FIFO is `rest` (60_exceptions.md R454): PC is pushed, then A; PC takes
IA, A takes the message, IQ is set. -/
def State.deliver (s : State) (m : Word) (rest : List Word) : State :=
  let framed := ((s.setIfq rest).push s.pc).push (s.reg .a)
  ((framed.setPc s.ia).setReg .a m).setIq true

/-- The dispatch step (60_exceptions.md R453): nothing while IQ = 1 or IFQ is empty, else one delivery. -/
def State.dispatch (s : State) : State :=
  if s.iq then s
  else
    match s.ifq with
    | [] => s
    | m :: rest => s.deliver m rest

/-- The return from an interrupt (44_special.md R314): A is popped, then PC, and IQ is cleared. -/
def State.returnFromInterrupt (s : State) : State :=
  let popA := s.pop
  let popPc := (popA.2.setReg .a popA.1).pop
  (popPc.2.setPc popPc.1).setIq false

/-! ## Decode errors (60_exceptions.md R470) -/

/-- `FAULT <- Decode(code, pc)`; everything else stays as the step left it. -/
def State.raiseDecodeError (s : State) (code : BitVec 5) (addr : Word) : State :=
  s.setFault (some { code := code, pc := addr })

end Sys2Proof.Machine
end

