-- ==== Sys2Proof/Machine/Operands.lean ====
section
/-! DEFINITION. Locations and the addressing-mode resolver (00_scope.md R12, 40_addressing.md R140 to R152), and the
operand part of the instruction cycle (41_executor.md R184). -/

namespace Sys2Proof.Machine

/-- A location (00_scope.md R12). -/
inductive Loc where
  | reg (r : Reg)
  | sp
  | pc
  | ex
  | mem (addr : Word)
  | lit (v : Word)
  deriving DecidableEq, Repr

/-- `read(loc)` (00_scope.md R12). -/
def State.readLoc (s : State) : Loc → Word
  | .reg r => s.reg r
  | .sp => s.sp
  | .pc => s.pc
  | .ex => s.ex
  | .mem addr => s.readMem addr
  | .lit v => v

/-- `write(loc, v)` (00_scope.md R12): a literal discards it (40_addressing.md R149, R150). -/
def State.writeLoc (s : State) (l : Loc) (v : Word) : State :=
  match l with
  | .reg r => s.setReg r v
  | .sp => s.setSp v
  | .pc => s.setPc v
  | .ex => s.setEx v
  | .mem addr => s.writeMem addr v
  | .lit _ => s

/-- The value of a short literal, `(code - 0x21) mod 2^16` (30_encoding.md R107); `c` is the code less 0x20. -/
def shortValue (c : BitVec 5) : Word := c.setWidth 16 - 1

/-- `resolve(c, pos)` (40_addressing.md R140 to R150): the location, and the state after the side effects on PC and SP.
The decoded operand already holds its inline word, so `nextword` leaves the PC advance (00_scope.md R13; the cycle it
costs is counted by `surcharge`). -/
def State.resolve (s : State) (pos : Position) (o : Operand) : Loc × State :=
  match o with
  | .reg r => (.reg r, s)
  | .ind r => (.mem (s.reg r), s)
  | .idx r n => (.mem (s.reg r + n), s.advancePc)
  | .stack =>
    match pos with
    | .a => (.mem s.sp, s.setSp (s.sp + 1))
    | .b => (.mem (s.sp - 1), s.setSp (s.sp - 1))
  | .peek => (.mem s.sp, s)
  | .pick n => (.mem (s.sp + n), s.advancePc)
  | .sp => (.sp, s)
  | .pc => (.pc, s)
  | .ex => (.ex, s)
  | .abs n => (.mem n, s.advancePc)
  | .lit n => (.lit n, s.advancePc)
  | .short c => (.lit (shortValue c), s)

/-- Cycles an operand adds: one for each inline word it takes (40_addressing.md R151). -/
def surcharge : Operand → Nat
  | .idx _ _ | .pick _ | .abs _ | .lit _ => 1
  | _ => 0

/-- What resolving and reading both operands of a basic instruction gives (41_executor.md R184). `vb` is not read by
SET. -/
structure Resolved where
  la : Loc
  va : Word
  lb : Loc
  vb : Word
  st : State
  deriving DecidableEq, Repr

/-- `la <- resolve(a, a); va <- read(la); lb <- resolve(b, b); vb <- read(lb)`, in that order (41_executor.md R184). -/
def State.resolveBoth (s : State) (b a : Operand) : Resolved :=
  let ra := s.resolve .a a
  let rb := ra.2.resolve .b b
  { la := ra.1, va := ra.2.readLoc ra.1, lb := rb.1, vb := rb.2.readLoc rb.1, st := rb.2 }

/-- Write a result and EX (41_executor.md R185). Where the destination is EX itself, the final value is the one
`EX_DEST_ORDER` writes last (R188, assumption 4); elsewhere the two writes touch different things. -/
def State.writeResultAndEx (s : State) (l : Loc) (result ex : Word) : State :=
  if l = .ex then
    s.setEx (match Config.exDestOrder with
      | .resultLast => result
      | .exLast => ex)
  else (s.writeLoc l result).setEx ex

end Sys2Proof.Machine
end

