-- ==== Sys2Proof/Machine/Costs.lean ====
section
/-! DEFINITION. Cycle costs (41_executor.md R190, R191). -/

namespace Sys2Proof.Machine

/-- `COST[op]` or `COST_S[sop]` of an instruction, the open parameter (41_executor.md R191, D14; assumption 3). -/
def baseCost (i : Instr) : Nat :=
  match i.operands with
  | .two _ _ => Config.basicCost i.number
  | .one _ => Config.specialCost i.number

/-- The values 41_executor.md R191 gives the parameter, those of its examples. No meaning uses them: a machine has
these costs where `baseCost` agrees with this table. -/
def tableCost : Instr → Nat
  | .set _ _ => 1
  | .add _ _ => 2
  | .sub _ _ => 2
  | .mul _ _ => 2
  | .mli _ _ => 2
  | .div _ _ => 3
  | .dvi _ _ => 3
  | .mod _ _ => 3
  | .mdi _ _ => 3
  | .and _ _ => 1
  | .bor _ _ => 1
  | .xor _ _ => 1
  | .shr _ _ => 1
  | .asr _ _ => 1
  | .shl _ _ => 1
  | .ifb _ _ => 2
  | .ifc _ _ => 2
  | .ife _ _ => 2
  | .ifn _ _ => 2
  | .ifg _ _ => 2
  | .ifa _ _ => 2
  | .ifl _ _ => 2
  | .ifu _ _ => 2
  | .adx _ _ => 3
  | .sbx _ _ => 3
  | .sti _ _ => 2
  | .std _ _ => 2
  | .jsr _ => 3
  | .int _ => 4
  | .iag _ => 1
  | .ias _ => 1
  | .rfi _ => 3
  | .iaq _ => 2
  | .hwn _ => 2
  | .hwq _ => 4
  | .hwi _ => 4

/-- The base cost and one cycle for each inline word the operands fetch (41_executor.md R190); a skip and a device add
to it. -/
def cycles (i : Instr) : Nat :=
  match i.operands with
  | .two b a => baseCost i + surcharge a + surcharge b
  | .one a => baseCost i + surcharge a

end Sys2Proof.Machine
end

