-- ==== Sys2Proof/Machine/Flags.lean ====
section
/-! DEFINITION. What the opcodes of 42_alu.md compute: the result and, for the opcodes that write it, EX, the core's
only flag register (10_state.md R33); and the predicates of the conditionals (43_conditional.md R284 to R291). All
arithmetic is exact, on Nat and Int, and narrowed at the end (00_scope.md R10, R11). -/

namespace Sys2Proof.Machine

/-- A result and the new EX. -/
structure ResultEx where
  result : Word
  ex     : Word
  deriving DecidableEq, Repr

/-- The shift count `va[4:0]` (42_alu.md R233). -/
def shiftCount (va : Word) : Nat := va.toNat % 32

/-- ADD (42_alu.md R222). -/
def addOf (vb va : Word) : ResultEx :=
  let r := vb.toNat + va.toNat
  { result := BitVec.ofNat 16 r, ex := if r > 0xFFFF then 1 else 0 }

/-- SUB (42_alu.md R223). -/
def subOf (vb va : Word) : ResultEx :=
  let r : Int := vb.toNat - va.toNat
  { result := BitVec.ofInt 16 r, ex := if r < 0 then 0xFFFF else 0 }

/-- MUL (42_alu.md R224). -/
def mulOf (vb va : Word) : ResultEx :=
  let p := vb.toNat * va.toNat
  { result := BitVec.ofNat 16 p, ex := BitVec.ofNat 16 (p / 2 ^ 16) }

/-- MLI (42_alu.md R225): the division by 2^16 rounds down. -/
def mliOf (vb va : Word) : ResultEx :=
  let p := vb.toInt * va.toInt
  { result := BitVec.ofInt 16 p, ex := BitVec.ofInt 16 (p.fdiv (2 ^ 16)) }

/-- DIV (42_alu.md R226). -/
def divOf (vb va : Word) : ResultEx :=
  if va = 0 then { result := 0, ex := 0 }
  else { result := BitVec.ofNat 16 (vb.toNat / va.toNat), ex := BitVec.ofNat 16 (vb.toNat * 2 ^ 16 / va.toNat) }

/-- DVI (42_alu.md R227): both divisions truncate toward zero, exactly. -/
def dviOf (vb va : Word) : ResultEx :=
  if va = 0 then { result := 0, ex := 0 }
  else
    { result := BitVec.ofInt 16 (vb.toInt.tdiv va.toInt)
      ex := BitVec.ofInt 16 ((vb.toInt * 2 ^ 16).tdiv va.toInt) }

/-- MOD (42_alu.md R228). -/
def modOf (vb va : Word) : Word := if va = 0 then 0 else BitVec.ofNat 16 (vb.toNat % va.toNat)

/-- MDI (42_alu.md R229): the remainder has the sign of the dividend. -/
def mdiOf (vb va : Word) : Word := if va = 0 then 0 else BitVec.ofInt 16 (vb.toInt.tmod va.toInt)

/-- SHR (42_alu.md R234). -/
def shrOf (vb va : Word) : ResultEx :=
  let s := shiftCount va
  { result := BitVec.ofNat 16 (vb.toNat / 2 ^ s), ex := BitVec.ofNat 16 (vb.toNat * 2 ^ 16 / 2 ^ s) }

/-- ASR (42_alu.md R235): both divisions round down. -/
def asrOf (vb va : Word) : ResultEx :=
  let s := shiftCount va
  { result := BitVec.ofInt 16 (vb.toInt.fdiv (2 ^ s)), ex := BitVec.ofInt 16 ((vb.toInt * 2 ^ 16).fdiv (2 ^ s)) }

/-- SHL (42_alu.md R236). -/
def shlOf (vb va : Word) : ResultEx :=
  let t := vb.toNat * 2 ^ shiftCount va % 2 ^ 32
  { result := BitVec.ofNat 16 t, ex := BitVec.ofNat 16 (t / 2 ^ 16) }

/-- ADX (42_alu.md R244); `ex` is EX before the instruction writes it. -/
def adxOf (vb va ex : Word) : ResultEx :=
  let r := vb.toNat + va.toNat + ex.toNat
  { result := BitVec.ofNat 16 r, ex := if r > 0xFFFF then 1 else 0 }

/-- `SBX_EX_ABOVE` as a word (42_alu.md R245, assumption 5). -/
def sbxExAbove : Word := if Config.sbxExAbove then 1 else 0

/-- SBX (42_alu.md R245). -/
def sbxOf (vb va ex : Word) : ResultEx :=
  let r : Int := vb.toNat - va.toNat + ex.toNat
  { result := BitVec.ofInt 16 r, ex := if r < 0 then 1 else if r > 0xFFFF then sbxExAbove else 0 }

/-! ## Predicates `P(vb, va)` of the conditionals -/

/-- IFB (43_conditional.md R284). -/
def bitsSet (vb va : Word) : Bool := vb &&& va ≠ 0

/-- IFC (43_conditional.md R285). -/
def bitsClear (vb va : Word) : Bool := vb &&& va = 0

/-- IFE (43_conditional.md R286). -/
def equal (vb va : Word) : Bool := vb = va

/-- IFN (43_conditional.md R287). -/
def notEqual (vb va : Word) : Bool := vb ≠ va

/-- IFG, unsigned (43_conditional.md R288). -/
def greater (vb va : Word) : Bool := vb.toNat > va.toNat

/-- IFA, signed (43_conditional.md R289). -/
def above (vb va : Word) : Bool := vb.toInt > va.toInt

/-- IFL, unsigned (43_conditional.md R290). -/
def less (vb va : Word) : Bool := vb.toNat < va.toNat

/-- IFU, signed (43_conditional.md R291). -/
def under (vb va : Word) : Bool := vb.toInt < va.toInt

end Sys2Proof.Machine
end

