-- ==== Sys2Proof/Machine/Alu.lean ====
section
/-! DEFINITION. Move, arithmetic, logic, shift, carry and block-copy opcodes (42_alu.md). Each meaning is entered with
PC past the instruction word (41_executor.md R181) and answers the state before the dispatch step. None of them raises
anything (60_exceptions.md R472). -/

namespace Sys2Proof.Machine

/-- An opcode that writes its result to b and writes EX (41_executor.md R184, R185, R188): `f vb va ex`. -/
def resultAndEx (f : Word → Word → Word → ResultEx) (cost : Nat) (b a : Operand) (s : State) : StepOutcome :=
  let r := s.resolveBoth b a
  let out := f r.vb r.va r.st.ex
  .next ((r.st.writeResultAndEx r.lb out.result out.ex).charge cost)

/-- An opcode that writes its result to b and leaves EX as it is (41_executor.md R184, R185): `f vb va`. -/
def resultOnly (f : Word → Word → Word) (cost : Nat) (b a : Operand) (s : State) : StepOutcome :=
  let r := s.resolveBoth b a
  .next ((r.st.writeLoc r.lb (f r.vb r.va)).charge cost)

/-- The block copies: b's value goes to a's location, then I and J move by `d` (42_alu.md R246, R247). -/
def blockCopy (d : Word) (cost : Nat) (b a : Operand) (s : State) : StepOutcome :=
  let r := s.resolveBoth b a
  let t := r.st.writeLoc r.la r.vb
  let u := t.setReg .i (t.reg .i + d)
  .next ((u.setReg .j (u.reg .j + d)).charge cost)

/-- SET b, a (42_alu.md R220): b is resolved and not read. -/
def execSet (b a : Operand) (s : State) : StepOutcome :=
  let r := s.resolveBoth b a
  .next ((r.st.writeLoc r.lb r.va).charge (cycles (.set b a)))

/-- ADD b, a (42_alu.md R222). -/
def execAdd (b a : Operand) (s : State) : StepOutcome :=
  resultAndEx (fun vb va _ => addOf vb va) (cycles (.add b a)) b a s

/-- SUB b, a (42_alu.md R223). -/
def execSub (b a : Operand) (s : State) : StepOutcome :=
  resultAndEx (fun vb va _ => subOf vb va) (cycles (.sub b a)) b a s

/-- MUL b, a (42_alu.md R224). -/
def execMul (b a : Operand) (s : State) : StepOutcome :=
  resultAndEx (fun vb va _ => mulOf vb va) (cycles (.mul b a)) b a s

/-- MLI b, a (42_alu.md R225). -/
def execMli (b a : Operand) (s : State) : StepOutcome :=
  resultAndEx (fun vb va _ => mliOf vb va) (cycles (.mli b a)) b a s

/-- DIV b, a (42_alu.md R226). -/
def execDiv (b a : Operand) (s : State) : StepOutcome :=
  resultAndEx (fun vb va _ => divOf vb va) (cycles (.div b a)) b a s

/-- DVI b, a (42_alu.md R227). -/
def execDvi (b a : Operand) (s : State) : StepOutcome :=
  resultAndEx (fun vb va _ => dviOf vb va) (cycles (.dvi b a)) b a s

/-- MOD b, a (42_alu.md R228). -/
def execMod (b a : Operand) (s : State) : StepOutcome := resultOnly modOf (cycles (.mod b a)) b a s

/-- MDI b, a (42_alu.md R229). -/
def execMdi (b a : Operand) (s : State) : StepOutcome := resultOnly mdiOf (cycles (.mdi b a)) b a s

/-- AND b, a (42_alu.md R230). -/
def execAnd (b a : Operand) (s : State) : StepOutcome :=
  resultOnly (fun vb va => vb &&& va) (cycles (.and b a)) b a s

/-- BOR b, a (42_alu.md R231). -/
def execBor (b a : Operand) (s : State) : StepOutcome :=
  resultOnly (fun vb va => vb ||| va) (cycles (.bor b a)) b a s

/-- XOR b, a (42_alu.md R232). -/
def execXor (b a : Operand) (s : State) : StepOutcome :=
  resultOnly (fun vb va => vb ^^^ va) (cycles (.xor b a)) b a s

/-- SHR b, a (42_alu.md R234). -/
def execShr (b a : Operand) (s : State) : StepOutcome :=
  resultAndEx (fun vb va _ => shrOf vb va) (cycles (.shr b a)) b a s

/-- ASR b, a (42_alu.md R235). -/
def execAsr (b a : Operand) (s : State) : StepOutcome :=
  resultAndEx (fun vb va _ => asrOf vb va) (cycles (.asr b a)) b a s

/-- SHL b, a (42_alu.md R236). -/
def execShl (b a : Operand) (s : State) : StepOutcome :=
  resultAndEx (fun vb va _ => shlOf vb va) (cycles (.shl b a)) b a s

/-- ADX b, a (42_alu.md R244): EX is read and written. -/
def execAdx (b a : Operand) (s : State) : StepOutcome := resultAndEx adxOf (cycles (.adx b a)) b a s

/-- SBX b, a (42_alu.md R245): EX is read and written. -/
def execSbx (b a : Operand) (s : State) : StepOutcome := resultAndEx sbxOf (cycles (.sbx b a)) b a s

/-- STI b, a (42_alu.md R246): the a location takes b's value, then I and J are incremented. -/
def execSti (b a : Operand) (s : State) : StepOutcome := blockCopy 1 (cycles (.sti b a)) b a s

/-- STD b, a (42_alu.md R247): the a location takes b's value, then I and J are decremented. -/
def execStd (b a : Operand) (s : State) : StepOutcome := blockCopy (-1) (cycles (.std b a)) b a s

end Sys2Proof.Machine
end

