-- ==== Sys2Proof/Machine/Clock.lean ====
section
/-! DEFINITION. The Clock, a programmable interval timer (45_device_clock.md). -/

namespace Sys2Proof.Machine

/-- `CLK_DIV / 60` seconds (45_device_clock.md R350, C4). -/
def clockPeriod (divisor : Word) : Rat := (divisor.toNat : Rat) / 60

/-- The HWI commands, selector in A, argument in B, at platform time `t` (45_device_clock.md R353 to R356): the Clock
and the registers after the command. Every command costs 0. -/
def Clock.command (k : Clock) (g : Regs) (t : Rat) : Clock × Regs :=
  if g.a = 0 then
    ({ k with
        divisor := g.b
        ticks := 0
        deadline := if g.b = 0 then k.deadline else t + clockPeriod g.b }, g)
  else if g.a = 1 then (k, { g with c := BitVec.ofNat 16 k.ticks })
  else if g.a = 2 then ({ k with message := g.b }, g)
  else (k, g)

/-- A host tick at time `t` (45_device_clock.md R357): the Clock after it and the messages it enqueues. -/
def Clock.tick (k : Clock) (t : Rat) : Clock × List Word :=
  if k.divisor ≠ 0 ∧ k.deadline ≤ t then
    ({ k with ticks := k.ticks + 1, deadline := k.deadline + clockPeriod k.divisor },
      if k.message = 0 then [] else [k.message])
  else (k, [])

end Sys2Proof.Machine
end

