-- ==== Sys2Proof/Machine/Display.lean ====
section
/-! DEFINITION. The text display controller (47_device_display.md). -/

namespace Sys2Proof.Machine

/-- The HWI commands, selector in A, argument in B (47_device_display.md R413 to R418): the Display after the command
and the cycle cost it returns. No command writes a register. -/
def Display.command (d : Display) (g : Regs) : Display × Nat :=
  if g.a = 0 then ({ d with vram := g.b }, 0)
  else if g.a = 1 then ({ d with font := g.b }, 0)
  else if g.a = 2 then ({ d with pal := g.b }, 0)
  else if g.a = 4 then (d, Config.fontCost)
  else if g.a = 5 then (d, Config.paletteCost)
  else (d, 0)

/-! ## Geometry (47_device_display.md R419) -/

def screenWidth : Nat := 128

def screenHeight : Nat := 96

/-! ## Rendering -/

/-- A packed-RGB pixel, 0xRRGGBB (47_device_display.md R422). -/
abbrev Pixel := BitVec 24

/-- What `present(pixels, width)` is called with (47_device_display.md R426, 70_reset_and_hazards.md R522). -/
structure Frame where
  pixels : List Pixel
  width  : Nat
  deriving DecidableEq, Repr

/-- The four fields of a cell word (47_device_display.md R421). -/
structure Cell where
  fg    : Nat
  bg    : Nat
  blink : Bool
  ch    : Nat
  deriving DecidableEq, Repr

def decodeCell (cw : Word) : Cell where
  fg := (cw.extractLsb' 12 4).toNat
  bg := (cw.extractLsb' 8 4).toNat
  blink := cw.getLsbD 7
  ch := (cw.extractLsb' 0 7).toNat

/-- Cell (cx, cy) (47_device_display.md R421): row-major at VRAM, modulo 2^16. -/
def Display.cellAt (d : Display) (m : Memory) (cx cy : Nat) : Cell :=
  decodeCell (m.read (d.vram + BitVec.ofNat 16 (cy * 32 + cx)))

/-- `rgb(w)` (47_device_display.md R422). -/
def rgb (w : Word) : Pixel :=
  let r := (w.extractLsb' 8 4).toNat
  let g := (w.extractLsb' 4 4).toNat
  let b := (w.extractLsb' 0 4).toNat
  BitVec.ofNat 24 (17 * r * 2 ^ 16 + 17 * g * 2 ^ 8 + 17 * b)

/-- `colour(i)` (47_device_display.md R422); `i` is a 4-bit index. -/
def Display.colour (d : Display) (m : Memory) (i : Nat) : Word :=
  if d.pal = 0 then Config.defaultPalette (Fin.ofNat 16 i) else m.read (d.pal + BitVec.ofNat 16 i)

/-- `F(k)` (47_device_display.md R424); `k` is below 256. -/
def Display.fontWord (d : Display) (m : Memory) (k : Nat) : Word :=
  if d.font = 0 then Config.defaultFont (Fin.ofNat 256 k) else m.read (d.font + BitVec.ofNat 16 k)

/-- Whether pixel (px, py) of a glyph is on (47_device_display.md R425): one byte for each column, bit 0 the top row. -/
def glyphBit (g0 g1 : Word) (px py : Nat) : Bool :=
  match px with
  | 0 => g0.getLsbD (8 + py)
  | 1 => g0.getLsbD py
  | 2 => g1.getLsbD (8 + py)
  | _ => g1.getLsbD py

/-- `blink_off` (47_device_display.md R423). -/
def blinkOff (half t : Rat) : Bool := (t / half).floor % 2 = 1

/-- Pixel (x, y) (47_device_display.md R421 to R426). -/
def Display.pixelAt (d : Display) (m : Memory) (half t : Rat) (x y : Nat) : Pixel :=
  let cell := d.cellAt m (x / 4) (y / 8)
  let bg := d.colour m cell.bg
  let fg := if cell.blink && blinkOff half t then bg else d.colour m cell.fg
  let on := glyphBit (d.fontWord m (2 * cell.ch)) (d.fontWord m (2 * cell.ch + 1)) (x % 4) (y % 8)
  rgb (if on then fg else bg)

/-- All pixels, row-major (47_device_display.md R426). -/
def Display.render (d : Display) (m : Memory) (half t : Rat) : Frame where
  pixels := (List.range (screenWidth * screenHeight)).map
    fun k => d.pixelAt m half t (k % screenWidth) (k / screenWidth)
  width := screenWidth

/-- A host tick at time `t` (47_device_display.md R420): the calls of `present`, one while VRAM is mapped, with
`BLINK_HALF` of Config (R423). -/
def Display.tick (d : Display) (m : Memory) (t : Rat) : List Frame :=
  if d.vram = 0 then [] else [d.render m Config.blinkHalf t]

end Sys2Proof.Machine
end

