-- ==== Sys2Proof/Machine/Keyboard.lean ====
section
/-! DEFINITION. The Keyboard controller (46_device_keyboard.md). -/

namespace Sys2Proof.Machine

/-! ## KB_DOWN, the pressed codes as a rising list (46_device_keyboard.md R380; assumption 20) -/

def insertKey (k : Nat) : List Nat → List Nat
  | [] => [k]
  | u :: us => if k < u then k :: u :: us else u :: insertKey k us

/-- `KB_DOWN[code] <- 1`. -/
def pressKey (down : List Nat) (code : Word) : List Nat :=
  insertKey code.toNat (down.filter (fun u => u ≠ code.toNat))

/-- `KB_DOWN[code] <- 0`. -/
def releaseKey (down : List Nat) (code : Word) : List Nat := down.filter (fun u => u ≠ code.toNat)

/-- `KB_DOWN[code] = 1`. -/
def isDown (down : List Nat) (code : Word) : Bool := down.contains code.toNat

/-- The capacity of KB_Q (46_device_keyboard.md R380). -/
def keyCapacity : Nat := 100

/-! ## Commands -/

/-- The HWI commands, selector in A, argument in B (46_device_keyboard.md R382 to R386): the Keyboard and the registers
after the command. Every command costs 0. -/
def Keyboard.command (k : Keyboard) (g : Regs) : Keyboard × Regs :=
  if g.a = 0 then ({ k with down := [] }, g)
  else if g.a = 1 then
    match k.queue with
    | [] => (k, { g with c := 0 })
    | code :: rest => ({ k with queue := rest }, { g with c := code })
  else if g.a = 2 then (k, { g with c := if isDown k.down g.b then 1 else 0 })
  else if g.a = 3 then ({ k with message := g.b }, g)
  else (k, g)

/-! ## Host key events and the tick -/

/-- `key_down(code)` (46_device_keyboard.md R387). -/
def Keyboard.keyDown (k : Keyboard) (code : Word) : Keyboard :=
  let queue := k.queue ++ [code]
  { k with
    queue := if queue.length > keyCapacity then queue.drop 1 else queue
    down := pressKey k.down code
    edge := true }

/-- `key_up(code)` (46_device_keyboard.md R388). -/
def Keyboard.keyUp (k : Keyboard) (code : Word) : Keyboard := { k with down := releaseKey k.down code }

/-- A host tick (46_device_keyboard.md R390): the Keyboard after it and the messages it enqueues. -/
def Keyboard.tick (k : Keyboard) : Keyboard × List Word :=
  ({ k with edge := false }, if k.edge = true ∧ k.message ≠ 0 then [k.message] else [])

end Sys2Proof.Machine
end

