-- ==== Sys2Proof/Machine/Bus.lean ====
section
/-! DEFINITION. The hardware bus and its instructions HWN, HWQ, HWI (44_special.md R317 to R320). -/

namespace Sys2Proof.Machine

/-- `identity(d)` (44_special.md R318; 45_device_clock.md R352, 46_device_keyboard.md R389, 47_device_display.md
R412). -/
def deviceIdentity : Device → Config.Identity
  | .clock _ => Config.idClock
  | .keyboard _ => Config.idKeyboard
  | .display _ => Config.idDisplay

/-- The registers HWQ writes for an identity triple (44_special.md R318). -/
def Regs.withIdentity (g : Regs) (id : Config.Identity) : Regs :=
  { g with
    a := id.hardware.extractLsb' 0 16
    b := id.hardware.extractLsb' 16 16
    c := id.version
    x := id.manufacturer.extractLsb' 0 16
    y := id.manufacturer.extractLsb' 16 16 }

/-- The registers HWQ writes for an index out of range (44_special.md R318). -/
def Regs.withoutIdentity (g : Regs) : Regs := { g with a := 0, b := 0, c := 0, x := 0, y := 0 }

/-- What a device command gives: the device and the registers after it, and its cycle cost (44_special.md R320). -/
structure CommandResult where
  device : Device
  regs   : Regs
  cost   : Nat
  deriving DecidableEq, Repr

/-- `interrupt(d)` (44_special.md R320), chosen by the selector in A. -/
def deviceCommand (d : Device) (g : Regs) (t : Rat) : CommandResult :=
  match d with
  | .clock k => { device := .clock (k.command g t).1, regs := (k.command g t).2, cost := 0 }
  | .keyboard k => { device := .keyboard (k.command g).1, regs := (k.command g).2, cost := 0 }
  | .display k => { device := .display (k.command g).1, regs := g, cost := (k.command g).2 }

/-- HWI's effect on the device at an index, and the cost it returns; an index out of range has no effect and costs
nothing more (44_special.md R319). -/
def State.commandDevice (s : State) (index : Nat) : State × Nat :=
  let r : Regs × List Device × Nat :=
    match s.devices[index]? with
    | none => (s.regs, s.devices, 0)
    | some d =>
      let done := deviceCommand d s.regs s.time
      (done.regs, s.devices.set index done.device, done.cost)
  ((s.setRegs r.1).setDevices r.2.1, r.2.2)

/-- HWN a (44_special.md R317): the operand is a destination. -/
def execHwn (a : Operand) (s : State) : StepOutcome :=
  let ra := s.resolve .a a
  .next ((ra.2.writeLoc ra.1 (BitVec.ofNat 16 ra.2.devices.length)).charge (cycles (.hwn a)))

/-- HWQ a (44_special.md R318). -/
def execHwq (a : Operand) (s : State) : StepOutcome :=
  let ra := s.resolve .a a
  let g := match ra.2.devices[(ra.2.readLoc ra.1).toNat]? with
    | some d => ra.2.regs.withIdentity (deviceIdentity d)
    | none => ra.2.regs.withoutIdentity
  .next ((ra.2.setRegs g).charge (cycles (.hwq a)))

/-- HWI a (44_special.md R319). -/
def execHwi (a : Operand) (s : State) : StepOutcome :=
  let ra := s.resolve .a a
  let done := ra.2.commandDevice (ra.2.readLoc ra.1).toNat
  .next (done.1.charge (cycles (.hwi a) + done.2))

end Sys2Proof.Machine
end

