-- ==== Sys2Proof/Machine/Conditional.lean ====
section
/-! DEFINITION. The conditional opcodes and the skip chain (43_conditional.md). -/

namespace Sys2Proof.Machine

/-- How a skip ends (43_conditional.md R282, R283). -/
inductive SkipEnd where
  /-- the skip passed `count` instructions and PC stands at `pc` -/
  | passed (pc : Word) (count : Nat)
  /-- it met an illegal word at `pc`, which reports `code` -/
  | illegal (code : BitVec 5) (pc : Word)
  /-- it never reaches an instruction that is not a conditional -/
  | endless
  deriving DecidableEq, Repr

/-- `skip()` (43_conditional.md R282) at address `p`, `count` instructions already passed. One unit of fuel is one
instruction passed. -/
def skipFrom (m : Memory) : Nat → Word → Nat → SkipEnd
  | 0, _, _ => .endless
  | fuel + 1, p, count =>
    let w := m.read p
    match illegalCode w with
    | some code => .illegal code p
    | none =>
      let next := p + BitVec.ofNat 16 (wordLength w)
      if isConditional w then skipFrom m fuel next (count + 1) else .passed next (count + 1)

/-- Memory has 65536 addresses and a skip does not change it, so a chain that passed 65536 conditionals has come back
to one of them and never ends (43_conditional.md R283; assumption 12). -/
def skipLimit : Nat := 65536

def skip (m : Memory) (p : Word) : SkipEnd := skipFrom m skipLimit p 0

/-- A conditional (43_conditional.md R280 to R282): on a true test the instruction ends; on a false one the skip runs,
at one cycle for each instruction it passes; an illegal word it meets is a decode error at that word, with PC at it and
nothing charged (60_exceptions.md R470); an endless chain has no successor. -/
def conditional (test : Word → Word → Bool) (cost : Nat) (b a : Operand) (s : State) : StepOutcome :=
  let r := s.resolveBoth b a
  if test r.vb r.va then .next (r.st.charge cost)
  else
    match skip r.st.mem r.st.pc with
    | .passed p count => .next ((r.st.setPc p).charge (cost + count))
    | .illegal code p => .next ((r.st.setPc p).raiseDecodeError code p)
    | .endless => .fault .skipNeverEnds

/-- IFB b, a (43_conditional.md R284). -/
def execIfb (b a : Operand) (s : State) : StepOutcome := conditional bitsSet (cycles (.ifb b a)) b a s

/-- IFC b, a (43_conditional.md R285). -/
def execIfc (b a : Operand) (s : State) : StepOutcome := conditional bitsClear (cycles (.ifc b a)) b a s

/-- IFE b, a (43_conditional.md R286). -/
def execIfe (b a : Operand) (s : State) : StepOutcome := conditional equal (cycles (.ife b a)) b a s

/-- IFN b, a (43_conditional.md R287). -/
def execIfn (b a : Operand) (s : State) : StepOutcome := conditional notEqual (cycles (.ifn b a)) b a s

/-- IFG b, a (43_conditional.md R288). -/
def execIfg (b a : Operand) (s : State) : StepOutcome := conditional greater (cycles (.ifg b a)) b a s

/-- IFA b, a (43_conditional.md R289). -/
def execIfa (b a : Operand) (s : State) : StepOutcome := conditional above (cycles (.ifa b a)) b a s

/-- IFL b, a (43_conditional.md R290). -/
def execIfl (b a : Operand) (s : State) : StepOutcome := conditional less (cycles (.ifl b a)) b a s

/-- IFU b, a (43_conditional.md R291). -/
def execIfu (b a : Operand) (s : State) : StepOutcome := conditional under (cycles (.ifu b a)) b a s

end Sys2Proof.Machine
end

