-- ==== Sys2Proof/Machine/Special.lean ====
section
/-! DEFINITION. The special opcodes other than the hardware bus (44_special.md R310 to R316). The one operand is in the
a position and is resolved before anything else (R310). -/

namespace Sys2Proof.Machine

/-- JSR a (44_special.md R311): the address of the next instruction is pushed, after a's resolution. -/
def execJsr (a : Operand) (s : State) : StepOutcome :=
  let ra := s.resolve .a a
  let va := ra.2.readLoc ra.1
  .next (((ra.2.push ra.2.pc).setPc va).charge (cycles (.jsr a)))

/-- INT a (44_special.md R312): the message is enqueued; delivery is the dispatch step's. -/
def execInt (a : Operand) (s : State) : StepOutcome :=
  let ra := s.resolve .a a
  .next ((ra.2.enqueue (ra.2.readLoc ra.1)).charge (cycles (.int a)))

/-- IAG a (44_special.md R313): the operand is a destination. -/
def execIag (a : Operand) (s : State) : StepOutcome :=
  let ra := s.resolve .a a
  .next ((ra.2.writeLoc ra.1 ra.2.ia).charge (cycles (.iag a)))

/-- IAS a (44_special.md R316). -/
def execIas (a : Operand) (s : State) : StepOutcome :=
  let ra := s.resolve .a a
  .next ((ra.2.setIa (ra.2.readLoc ra.1)).charge (cycles (.ias a)))

/-- RFI a (44_special.md R314): the operand is resolved and its value ignored. -/
def execRfi (a : Operand) (s : State) : StepOutcome :=
  let ra := s.resolve .a a
  .next (ra.2.returnFromInterrupt.charge (cycles (.rfi a)))

/-- IAQ a (44_special.md R315): any nonzero value turns queueing on. -/
def execIaq (a : Operand) (s : State) : StepOutcome :=
  let ra := s.resolve .a a
  .next ((ra.2.setIq (ra.2.readLoc ra.1 ≠ 0)).charge (cycles (.iaq a)))

end Sys2Proof.Machine
end

