-- ==== Sys2Proof/Machine/Fetch.lean ====
section
/-! DEFINITION. Fetching and decoding at PC, and what a step adds around the instruction (41_executor.md R180 to R182,
R189). -/

namespace Sys2Proof.Machine

/-- The instruction at PC (41_executor.md R181, R182), or the code of the illegal word there. The words after it are
the inline words `nextword` reads (00_scope.md R13): nothing writes memory between the fetch and the resolution
(41_executor.md R186; assumption 17). -/
def State.fetch (s : State) : Except (BitVec 5) Instr :=
  decodeWindow (s.readMem s.pc) (s.readMem (s.pc + 1)) (s.readMem (s.pc + 2))

/-- A step that meets an illegal word: PC is past the word, FAULT names it, nothing else changes
(41_executor.md R182, 60_exceptions.md R470). -/
def State.illegalFetch (s : State) (code : BitVec 5) : State := s.advancePc.raiseDecodeError code s.pc

/-- The dispatch step after an instruction: it runs once after every instruction that completes, and not after a
decode error (41_executor.md R189, 60_exceptions.md R453). -/
def afterInstruction : StepOutcome → StepOutcome
  | .next t => .next (if t.fault = none then t.dispatch else t)
  | .fault f => .fault f
  | .refused r => .refused r

end Sys2Proof.Machine
end

