-- ==== Sys2Proof/Machine/Step.lean ====
section
/-! DEFINITION. One CPU step (41_executor.md R180), and the host's way to place an instruction where it fetches. -/

namespace Sys2Proof.Machine

/-- One instruction and one interrupt-dispatch step, enabled only while FAULT is none (41_executor.md R180 to R189). -/
def step (s : State) : Host.Outcome State Fault Refusal :=
  match s.fault with
  | some e => .fault (.coreStopped e)
  | none =>
    match s.fetch with
    | .error code => .next (s.illegalFetch code)
    | .ok i => afterInstruction (exec i s.advancePc)

/-- The instruction whose bits below `nbits` are those of `w`, every other bit zero, in the three words at PC; a step
needs FAULT none, so FAULT is cleared (assumptions 15 and 22). -/
def State.withFetchWord (s : State) (nbits w : Nat) : State :=
  let bits := w % 2 ^ nbits
  (((s.writeMem s.pc (BitVec.ofNat 16 bits)).writeMem (s.pc + 1) (BitVec.ofNat 16 (bits / 2 ^ 16))).writeMem
    (s.pc + 2) (BitVec.ofNat 16 (bits / 2 ^ 32))).setFault none

end Sys2Proof.Machine
end

