-- ==== Sys2Proof/Machine/Platform.lean ====
section
/-! DEFINITION. The host's actions on the machine between CPU steps: reset, program load, device tick, key events, time
(70_reset_and_hazards.md R500 to R503, R520, R523, R524). -/

namespace Sys2Proof.Machine

/-- Core reset (70_reset_and_hazards.md R500): DEVICES, the devices' states and T stay. The balance is part of the
scheduler state, uninitialised: 0 (assumption 13). -/
def State.coreReset (s : State) : State :=
  { State.powerOn [] with devices := s.devices, time := s.time }

/-! ## Program load (70_reset_and_hazards.md R502) -/

/-- The words of a byte buffer; `bigEndian` is the host's flag; an odd trailing byte is ignored. -/
def wordsOfBytes (bigEndian : Bool) : List Byte → List Word
  | x :: y :: rest => (if bigEndian then (x ++ y : Word) else (y ++ x : Word)) :: wordsOfBytes bigEndian rest
  | _ => []

/-- Program load at address 0; no register changes. -/
def State.loadProgram (s : State) (bigEndian : Bool) (bytes : List Byte) : State :=
  s.setMem (Memory.loadWords (wordsOfBytes bigEndian bytes) s.mem)

/-! ## The device tick (70_reset_and_hazards.md R520) -/

/-- What one device's tick gives: the device after it, the messages it enqueues, the frames it presents. -/
structure TickResult where
  device   : Device
  messages : List Word
  frames   : List Frame
  deriving DecidableEq, Repr

def tickDevice (m : Memory) (t : Rat) (d : Device) : TickResult :=
  match d with
  | .clock k => { device := .clock (k.tick t).1, messages := (k.tick t).2, frames := [] }
  | .keyboard k => { device := .keyboard k.tick.1, messages := k.tick.2, frames := [] }
  | .display k => { device := .display k, messages := [], frames := k.tick m t }

/-- Every device's tick once, in DEVICES order, at the current T: messages enter the FIFO in that order
(60_exceptions.md R458). The frames are the calls of `present` (R522; assumption 25). -/
def State.tick (s : State) : State × List Frame :=
  let results := s.devices.map (tickDevice s.mem s.time)
  ((s.setDevices (results.map (·.device))).setIfq (s.ifq ++ results.flatMap (·.messages)),
    results.flatMap (·.frames))

/-! ## Key events (70_reset_and_hazards.md R523) -/

def mapKeyboard (f : Keyboard → Keyboard) : Device → Device
  | .keyboard k => .keyboard (f k)
  | d => d

/-- `key_down(code)`: every attached Keyboard takes it (assumption 14); with none attached it has no effect. -/
def State.keyDown (s : State) (code : Word) : State :=
  s.setDevices (s.devices.map (mapKeyboard (·.keyDown code)))

/-- `key_up(code)`: as `keyDown`. -/
def State.keyUp (s : State) (code : Word) : State :=
  s.setDevices (s.devices.map (mapKeyboard (·.keyUp code)))

/-! ## Time (10_state.md R43, 70_reset_and_hazards.md R524) -/

/-- T advanced to `t`; T never decreases, so an earlier `t` leaves it (assumption 24). -/
def State.advanceTime (s : State) (t : Rat) : State := { s with time := max s.time t }

end Sys2Proof.Machine
end

