-- ==== Sys2Proof/Machine/Snapshot.lean ====
section
/-! DEFINITION. The snapshot codec (70_reset_and_hazards.md R510 to R513). All multi-byte fields are little-endian. -/

namespace Sys2Proof.Machine

/-- A uint16, low byte first. -/
def bytes16 (w : Word) : List Byte := [w.extractLsb' 0 8, w.extractLsb' 8 8]

/-- A 32-bit field, low byte first. -/
def bytes32 (v : BitVec 32) : List Byte :=
  [v.extractLsb' 0 8, v.extractLsb' 8 8, v.extractLsb' 16 8, v.extractLsb' 24 8]

/-- The magic number (70_reset_and_hazards.md R510). -/
def snapshotMagic : BitVec 32 := 0x0DABB1ED

/-- The twelve registers in snapshot order (70_reset_and_hazards.md R510). -/
def State.snapshotRegs (s : State) : List Word :=
  [s.regs.a, s.regs.b, s.regs.c, s.regs.x, s.regs.y, s.regs.z, s.regs.i, s.regs.j, s.pc, s.sp, s.ex, s.ia]

/-- The first `n` words of memory, in address order. -/
def Memory.firstWords (m : Memory) (n : Nat) : List Word := (List.range n).map m.readAt

/-- The whole memory in address order; irreducible, so that no elaboration lists 65536 words. -/
@[irreducible] def Memory.allWords (m : Memory) : List Word := m.firstWords 65536

/-- What a snapshot stream holds. -/
structure Snapshot where
  regs  : List Word
  latch : Bool
  queue : List Word
  words : List Word
  deriving DecidableEq, Repr

/-- The byte layout (70_reset_and_hazards.md R510). A count is written modulo 2^32 (assumption 19). -/
def Snapshot.bytes (p : Snapshot) : List Byte :=
  bytes32 snapshotMagic ++ p.regs.flatMap bytes16 ++ [if p.latch then 1 else 0] ++
    bytes32 (BitVec.ofNat 32 p.queue.length) ++ p.queue.flatMap bytes16 ++
    bytes32 (BitVec.ofNat 32 p.words.length) ++ p.words.flatMap bytes16

/-- What a machine's snapshot holds: n = 65536, the whole memory (70_reset_and_hazards.md R511). -/
def State.snapshot (s : State) : Snapshot where
  regs := s.snapshotRegs
  latch := s.iq
  queue := s.ifq
  words := s.mem.allWords

/-- Serialise (70_reset_and_hazards.md R511). -/
def State.serialise (s : State) : List Byte := s.snapshot.bytes

/-! ## Parsing -/

/-- Take `n` little-endian uint16s, none if the stream ends before. -/
def takeWords : Nat → List Byte → Option (List Word × List Byte)
  | 0, bs => some ([], bs)
  | n + 1, lo :: hi :: bs =>
    match takeWords n bs with
    | some (ws, rest) => some ((hi ++ lo : Word) :: ws, rest)
    | none => none
  | _ + 1, _ => none

/-- Take a 32-bit little-endian field, none if the stream ends before. -/
def take32 : List Byte → Option (BitVec 32 × List Byte)
  | b0 :: b1 :: b2 :: b3 :: rest => some ((b3 ++ b2 ++ b1 ++ b0 : BitVec 32), rest)
  | _ => none

/-- Take one byte, none if the stream ends before. -/
def takeByte : List Byte → Option (Byte × List Byte)
  | b :: rest => some (b, rest)
  | [] => none

/-- Parse a whole stream, none on a snapshot format error (70_reset_and_hazards.md R512): a wrong magic, a stream that
ends early, a negative queue count, a memory length below 0 or above 65536. Trailing bytes are ignored. -/
def parseSnapshot (bs : List Byte) : Option Snapshot := do
  let (magic, bs) ← take32 bs
  if magic ≠ snapshotMagic then none
  let (regs, bs) ← takeWords 12 bs
  let (latch, bs) ← takeByte bs
  let (q, bs) ← take32 bs
  if q.toInt < 0 then none
  let (queue, bs) ← takeWords q.toNat bs
  let (n, bs) ← take32 bs
  if n.toInt < 0 ∨ n.toInt > 65536 then none
  let (words, _) ← takeWords n.toNat bs
  some { regs := regs, latch := latch ≠ 0, queue := queue, words := words }

/-- Set the machine from a parsed stream, after a core reset (70_reset_and_hazards.md R512). -/
def State.restoreFrom (s : State) (p : Snapshot) : State :=
  { s.coreReset with
    regs :=
      { a := p.regs.getD 0 0, b := p.regs.getD 1 0, c := p.regs.getD 2 0, x := p.regs.getD 3 0
        y := p.regs.getD 4 0, z := p.regs.getD 5 0, i := p.regs.getD 6 0, j := p.regs.getD 7 0 }
    pc := p.regs.getD 8 0
    sp := p.regs.getD 9 0
    ex := p.regs.getD 10 0
    ia := p.regs.getD 11 0
    iq := p.latch
    ifq := p.queue
    mem := Memory.loadWords p.words [] }

/-- Deserialise into a machine (70_reset_and_hazards.md R512): the state after it, and whether the stream was accepted.
On a format error the machine is left fully reset. -/
def State.deserialise (s : State) (bs : List Byte) : State × Bool :=
  match parseSnapshot bs with
  | some p => (s.restoreFrom p, true)
  | none => (s.coreReset, false)

end Sys2Proof.Machine
end

