-- ==== Sys2Proof/Machine/Scheduler.lean ====
section
/-! DEFINITION. The scheduler contract (70_reset_and_hazards.md R521) and the list of the host's actions (R520). -/

namespace Sys2Proof.Machine

/-- `ROUND(q)`, time to cycles (70_reset_and_hazards.md R521, D49, C10). -/
def roundCycles : Config.Rounding → Rat → Int
  | .floor, q => q.floor
  | .ceil, q => q.ceil

/-- What an invocation returns. -/
inductive Verdict where
  | ok
  /-- the decode error that ended the loop, or the fault already recorded (60_exceptions.md R471) -/
  | failed (e : DecodeError)
  /-- a CPU step without a result (43_conditional.md R283): the invocation never returns (assumption 26) -/
  | stuck
  deriving DecidableEq, Repr

/-- The verdict of a loop that ends by itself: "ok (or the existing fault, if FAULT != None)". -/
def State.verdict (s : State) : Verdict :=
  match s.fault with
  | none => .ok
  | some e => .failed e

/-- `while bal > 0 and FAULT = None`, one CPU step a round (70_reset_and_hazards.md R521). A step's cost is what it adds
to CYC (41_executor.md R190); each completed step costs at least 1, so `bal` rounds are enough fuel. Where a step has no
result (43_conditional.md R283) the answer is the state before that step, with `last`, the device tick and the grant
applied: DESIGN CHOICE, the spec does not say what such an invocation leaves (assumption 26). -/
def runBudget : Nat → State → State × Verdict
  | 0, s => (s, s.verdict)
  | fuel + 1, s =>
    if s.bal > 0 ∧ s.fault = none then
      match step s with
      | .next t =>
        if t.fault = none then runBudget fuel { t with bal := t.bal - ((t.cyc : Int) - s.cyc) }
        else (t, t.verdict)
      | .fault _ => (s, .stuck)
      | .refused _ => (s, .stuck)
    else (s, s.verdict)

/-- What an invocation gives: the machine after it, the frames its device tick presented, and what it returns. -/
structure Invocation where
  state   : State
  frames  : List Frame
  verdict : Verdict
  deriving DecidableEq, Repr

/-- An invocation at time `now = T` (70_reset_and_hazards.md R521), for a given RATE and ROUND. -/
def State.invokeWith (s : State) (rate : Nat) (rounding : Config.Rounding) : Invocation :=
  match s.last with
  | none => { state := { s with last := some s.time, bal := 0 }, frames := [], verdict := .ok }
  | some last =>
    let granted := roundCycles rounding ((rate : Rat) * (s.time - last))
    if granted = 0 then { state := s, frames := [], verdict := .ok }
    else
      let ticked := { s with last := some s.time }.tick
      let ready := { ticked.1 with bal := ticked.1.bal + min granted rate }
      let done := runBudget ready.bal.toNat ready
      { state := done.1, frames := ticked.2, verdict := done.2 }

/-- An invocation with RATE and ROUND of Config (70_reset_and_hazards.md R521; assumption 10). -/
def State.invoke (s : State) : Invocation := s.invokeWith Config.rate Config.rounding

/-! ## Everything the host does (70_reset_and_hazards.md R520) -/

inductive HostAction where
  | tick
  | keyDown (code : Word)
  | keyUp (code : Word)
  | advanceTime (t : Rat)
  | invoke
  | reset
  | loadProgram (bigEndian : Bool) (bytes : List Byte)
  | deserialise (bytes : List Byte)
  deriving DecidableEq, Repr

/-- The machine after a host action; serialising changes nothing. A stuck invocation leaves the state `runBudget` answers
for it, and the host goes on from there: DESIGN CHOICE (assumption 26). -/
def State.afterHost (s : State) : HostAction → State
  | .tick => s.tick.1
  | .keyDown code => s.keyDown code
  | .keyUp code => s.keyUp code
  | .advanceTime t => s.advanceTime t
  | .invoke => s.invoke.state
  | .reset => s.coreReset
  | .loadProgram bigEndian bytes => s.loadProgram bigEndian bytes
  | .deserialise bytes => (s.deserialise bytes).1

end Sys2Proof.Machine
end

