-- ==== Sys2Proof/Safety.lean ====
section
/-! DEFINITION. The words claims are stated in: what an instruction left unchanged, the invariant of the machine, the
path of a skip, the fields of a stream of bytes, and the runs of the machine. -/

namespace Sys2Proof.Machine

/-! ## Frames -/

/-- The interrupt controller is as it was. -/
structure KeepsInterrupts (s t : State) : Prop where
  ia  : t.ia = s.ia
  iq  : t.iq = s.iq
  ifq : t.ifq = s.ifq

/-- Everything that is no register, memory word, interrupt state or cycle count is as it was. -/
structure KeepsPlatform (s t : State) : Prop where
  fault   : t.fault = s.fault
  devices : t.devices = s.devices
  time    : t.time = s.time
  last    : t.last = s.last
  bal     : t.bal = s.bal

/-- An instruction entered at `s`, whose operands were resolved at `mid`, left at `t`: location `l` reads `v` (a literal
takes nothing), PC and SP are otherwise where the operands left them, and every other register, EX and every other
memory word is as at entry. -/
structure WroteOnly (l : Loc) (v : Word) (s mid t : State) : Prop where
  regs       : ∀ r, t.reg r = if l = .reg r then v else s.reg r
  sp         : t.sp = if l = .sp then v else mid.sp
  pc         : t.pc = if l = .pc then v else mid.pc
  ex         : t.ex = if l = .ex then v else s.ex
  mem        : ∀ addr, t.readMem addr = if l = .mem addr then v else s.readMem addr
  interrupts : KeepsInterrupts s t
  platform   : KeepsPlatform s t

/-- As `WroteOnly`, for an opcode that also writes `e` to EX; where the destination is EX itself the parameter
EX_DEST_ORDER says which of the two values remains (41_executor.md R188). -/
structure WroteWithEx (l : Loc) (v e : Word) (s mid t : State) : Prop where
  regs       : ∀ r, t.reg r = if l = .reg r then v else s.reg r
  sp         : t.sp = if l = .sp then v else mid.sp
  pc         : t.pc = if l = .pc then v else mid.pc
  ex         : l ≠ .ex → t.ex = e
  exResult   : l = .ex → Config.exDestOrder = .resultLast → t.ex = v
  exFlag     : l = .ex → Config.exDestOrder = .exLast → t.ex = e
  mem        : ∀ addr, t.readMem addr = if l = .mem addr then v else s.readMem addr
  interrupts : KeepsInterrupts s t
  platform   : KeepsPlatform s t

/-- No register, memory word or EX was written: only PC, SP and CYC may differ from entry. -/
structure WroteNothing (s t : State) : Prop where
  regs       : ∀ r, t.reg r = s.reg r
  ex         : t.ex = s.ex
  mem        : ∀ addr, t.readMem addr = s.readMem addr
  interrupts : KeepsInterrupts s t

/-! ## The invariant -/

/-- What a device always satisfies: a Clock's deadline is no negative time; KB_Q holds at most 100 codes
(46_device_keyboard.md R380) and the pressed codes are listed once each, rising. -/
def Device.wf : Device → Prop
  | .clock k => 0 ≤ k.deadline
  | .keyboard k => k.queue.length ≤ 100 ∧ k.down.Pairwise (· < ·) ∧ ∀ code ∈ k.down, code < 65536
  | .display _ => True

/-- What the machine always satisfies: memory in canonical form, every device well formed, at most 65536 devices (D45),
T not negative and never before the scheduler's stored time. -/
structure State.wf (s : State) : Prop where
  mem     : s.mem.wf
  devices : ∀ d ∈ s.devices, d.wf
  count   : s.devices.length ≤ 65536
  time    : 0 ≤ s.time
  last    : ∀ l, s.last = some l → l ≤ s.time

/-- Which of the three kinds a device is. -/
def Device.kind : Device → Config.DeviceKind
  | .clock _ => .clock
  | .keyboard _ => .keyboard
  | .display _ => .display

/-! ## The path of a skip (43_conditional.md R282) -/

/-- The address of the n-th instruction a skip from `p` looks at, were it never to stop. -/
def skipPath (m : Memory) (p : Word) : Nat → Word
  | 0 => p
  | n + 1 => skipPath m p n + BitVec.ofNat 16 (wordLength (m.read (skipPath m p n)))

/-- The first `n` instructions on the path are legal conditionals, which the skip passes and goes on. -/
def chainPasses (m : Memory) (p : Word) (n : Nat) : Prop :=
  ∀ k < n, illegalCode (m.read (skipPath m p k)) = none ∧ isConditional (m.read (skipPath m p k)) = true

/-- Every instruction on the path is a legal conditional (43_conditional.md R283). -/
def chainNeverEnds (m : Memory) (p : Word) : Prop := ∀ n, chainPasses m p n

/-! ## Streams of bytes, little-endian (70_reset_and_hazards.md R510) -/

/-- Byte k of a stream, 0 beyond its end. -/
def byteAt (bytes : List Byte) (k : Nat) : Nat := (bytes.getD k 0).toNat

/-- The uint16 at offset k. -/
def halfAt (bytes : List Byte) (k : Nat) : Nat := byteAt bytes k + 256 * byteAt bytes (k + 1)

/-- The uint32 at offset k; as an int32 it is negative from 2^31 on. -/
def fullAt (bytes : List Byte) (k : Nat) : Nat := halfAt bytes k + 65536 * halfAt bytes (k + 2)

/-! ## Runs -/

/-- The states the machine can be in: after reset, after a CPU step, after a host action (70_reset_and_hazards.md
R520). A safe run never meets `stuck`. -/
inductive Reachable : State → Prop where
  | reset : Reachable State.reset
  | step {s t : State} : Reachable s → step s = .next t → Reachable t
  | host {s : State} (act : HostAction) : Reachable s → Reachable (s.afterHost act)

/-- `n` completed rounds of the scheduler's loop lead from `s` to `u` (70_reset_and_hazards.md R521): each is entered with a
positive balance and FAULT none, is one CPU step that answers a next state without FAULT, and takes from the balance what
the step added to CYC. -/
inductive BudgetRounds : Nat → State → State → Prop where
  | done (s : State) : BudgetRounds 0 s s
  | round {n : Nat} {s t u : State} : 0 < s.bal → s.fault = none → Sys2Proof.Machine.step s = .next t → t.fault = none →
      BudgetRounds n { t with bal := t.bal - ((t.cyc : Int) - s.cyc) } u → BudgetRounds (n + 1) s u

/-- The core stopped on a decode error (60_exceptions.md R470). -/
def State.stopped (s : State) : Prop := s.fault ≠ none

/-- The step has no result (43_conditional.md R283). -/
def State.stuck (s : State) : Prop := Sys2Proof.Machine.step s = .fault .skipNeverEnds

end Sys2Proof.Machine
end

