-- ==== Sys2Proof/Certificates/Slice0/Obligations.lean ====
section
/-! DEFINITION. The statements for the provers. `Sys2Proof.Claims` holds the forms several statements share. -/

namespace Sys2Proof.Claims

open Sys2Proof.Machine

/-! ## Encoding, in the arithmetic of 30_encoding.md -/

/-- `nw(c)` (30_encoding.md R105). -/
def takesWord (c : Nat) : Nat := if (0x10 ≤ c ∧ c ≤ 0x17) ∨ c = 0x1A ∨ c = 0x1E ∨ c = 0x1F then 1 else 0

/-- `len(w)` (30_encoding.md R105). -/
def lengthOf (w : Word) : Nat :=
  1 + takesWord (w.toNat / 1024) + (if w.toNat % 32 ≠ 0 then takesWord (w.toNat / 32 % 32) else 0)

/-- The basic opcodes without an instruction (30_encoding.md R112). -/
def unassignedBasic (op : Nat) : Prop := op = 0x18 ∨ op = 0x19 ∨ op = 0x1C ∨ op = 0x1D

/-- The special opcodes without an instruction (30_encoding.md R112). -/
def unassignedSpecial (sop : Nat) : Prop :=
  sop = 0 ∨ (0x02 ≤ sop ∧ sop ≤ 0x07) ∨ (0x0D ≤ sop ∧ sop ≤ 0x0F) ∨ (0x13 ≤ sop ∧ sop ≤ 0x1F)

/-! ## Forms of the basic opcodes -/

/-- The instruction, with every operand and from every state, completes: its word holds `op`; b's location takes a value
`v` and EX a value `e` that satisfy `P vb va EX v e`; nothing else changes but PC and SP by the operands, and CYC, which
grows by `cycles`, for every value of the parameter COST (assumption 3). -/
def WritesResultAndEx (mk : Operand → Operand → Instr) (op : Nat)
    (P : Word → Word → Word → Word → Word → Prop) : Prop :=
  ∀ (b a : Operand) (s : State),
    (opField (firstWord (mk b a))).toNat = op ∧
      ∃ t v e, exec (mk b a) s = .next t ∧
        P (s.resolveBoth b a).vb (s.resolveBoth b a).va s.ex v e ∧
        WroteWithEx (s.resolveBoth b a).lb v e s (s.resolveBoth b a).st t ∧
        t.cyc = s.cyc + cycles (mk b a)

/-- As `WritesResultAndEx`, for an opcode that leaves EX as it is unless EX is its destination. -/
def WritesResult (mk : Operand → Operand → Instr) (op : Nat) (P : Word → Word → Word → Prop) : Prop :=
  ∀ (b a : Operand) (s : State),
    (opField (firstWord (mk b a))).toNat = op ∧
      ∃ t v, exec (mk b a) s = .next t ∧
        P (s.resolveBoth b a).vb (s.resolveBoth b a).va v ∧
        WroteOnly (s.resolveBoth b a).lb v s (s.resolveBoth b a).st t ∧
        t.cyc = s.cyc + cycles (mk b a)

/-- A block copy that moves I and J by `d`: a's location takes b's value first, then I and J move, from the written value
where a is I or J. CYC as in `WritesResultAndEx`. -/
def CopiesAndMoves (mk : Operand → Operand → Instr) (op : Nat) (d : Word) : Prop :=
  ∀ (b a : Operand) (s : State),
    (opField (firstWord (mk b a))).toNat = op ∧
      let r := s.resolveBoth b a
      ∃ t, exec (mk b a) s = .next t ∧
        (∀ q, t.reg q = (if r.la = .reg q then r.vb else s.reg q) + (if q = .i ∨ q = .j then d else 0)) ∧
        t.sp = (if r.la = .sp then r.vb else r.st.sp) ∧
        t.pc = (if r.la = .pc then r.vb else r.st.pc) ∧
        t.ex = (if r.la = .ex then r.vb else s.ex) ∧
        (∀ addr, t.readMem addr = if r.la = .mem addr then r.vb else s.readMem addr) ∧
        KeepsInterrupts s t ∧ KeepsPlatform s t ∧ t.cyc = s.cyc + cycles (mk b a)

/-! ## The conditionals -/

/-- The eight conditionals, their opcodes and their predicates `P(vb, va)` (43_conditional.md R284 to R291). -/
inductive IsConditional : (Operand → Operand → Instr) → Nat → (Word → Word → Prop) → Prop where
  | ifb : IsConditional .ifb 0x10 fun vb va => vb &&& va ≠ 0
  | ifc : IsConditional .ifc 0x11 fun vb va => vb &&& va = 0
  | ife : IsConditional .ife 0x12 fun vb va => vb = va
  | ifn : IsConditional .ifn 0x13 fun vb va => vb ≠ va
  | ifg : IsConditional .ifg 0x14 fun vb va => vb.toNat > va.toNat
  | ifa : IsConditional .ifa 0x15 fun vb va => vb.toInt > va.toInt
  | ifl : IsConditional .ifl 0x16 fun vb va => vb.toNat < va.toNat
  | ifu : IsConditional .ifu 0x17 fun vb va => vb.toInt < va.toInt

/-! ## The special opcodes -/

/-- The word of a special instruction holds op = 0 and `sop`. -/
def HasSpecialOpcode (i : Instr) (sop : Nat) : Prop :=
  (opField (firstWord i)).toNat = 0 ∧ (bField (firstWord i)).toNat = sop

/-- PC and SP are where the operand left them. -/
def LeavesPcSp (mid t : State) : Prop := t.pc = mid.pc ∧ t.sp = mid.sp

/-- CYC grew by the base cost of `i`, the parameter, and one cycle for each inline word; `n` is the value 41_executor.md
R191 gives that base cost. -/
def Charged (i : Instr) (n : Nat) (s t : State) : Prop :=
  t.cyc = s.cyc + baseCost i + (inlineWords i).length ∧ tableCost i = n

/-! ## Devices -/

/-- `identity(d)` by kind (45_device_clock.md R352, 46_device_keyboard.md R389, 47_device_display.md R412). -/
def identityOf : Config.DeviceKind → Config.Identity
  | .clock => Config.idClock
  | .keyboard => Config.idKeyboard
  | .display => Config.idDisplay

/-- An HWI of operand `a` from `s` reaches device `d` at index `i`. -/
def HwiReaches (a : Operand) (s : State) (i : Nat) (d : Device) : Prop :=
  ((s.resolve .a a).2.readLoc (s.resolve .a a).1).toNat = i ∧ s.devices[i]? = some d

/-- An HWI from `s` completed at `t`: device `i` became `d`, C became `c`, and nothing else changed but PC and SP by the
operand and CYC by the instruction's cycles and the device's `cost`. -/
structure HwiDone (a : Operand) (s : State) (i : Nat) (d : Device) (c : Word) (cost : Nat) (t : State) : Prop where
  devices    : ∀ j, t.devices[j]? = if j = i then some d else s.devices[j]?
  regs       : ∀ r, t.reg r = if r = .c then c else s.reg r
  pcSp       : LeavesPcSp (s.resolve .a a).2 t
  ex         : t.ex = s.ex
  mem        : ∀ addr, t.readMem addr = s.readMem addr
  interrupts : KeepsInterrupts s t
  fault      : t.fault = s.fault
  time       : t.time = s.time
  sched      : t.last = s.last ∧ t.bal = s.bal
  cyc        : t.cyc = s.cyc + baseCost (.hwi a) + a.inline.length + cost

/-- A device after a host tick at time `t` (45_device_clock.md R357, 46_device_keyboard.md R390, 47_device_display.md
R427). -/
def afterTick (t : Rat) : Device → Device
  | .clock k =>
    if k.divisor.toNat ≠ 0 ∧ t ≥ k.deadline then
      .clock
        { divisor := k.divisor, deadline := k.deadline + k.divisor.toNat / 60, ticks := k.ticks + 1
          message := k.message }
    else .clock k
  | .keyboard k => .keyboard { queue := k.queue, down := k.down, message := k.message, edge := false }
  | .display d => .display d

/-- The messages a device's host tick at time `t` enqueues (45_device_clock.md R357, 46_device_keyboard.md R390,
47_device_display.md R427). -/
def tickMessages (t : Rat) : Device → List Word
  | .clock k => if (k.divisor.toNat ≠ 0 ∧ t ≥ k.deadline) ∧ k.message.toNat ≠ 0 then [k.message] else []
  | .keyboard k => if k.edge = true ∧ k.message.toNat ≠ 0 then [k.message] else []
  | .display _ => []

/-! ## The snapshot, in the arithmetic of 70_reset_and_hazards.md -/

/-- A uint16, low byte first (70_reset_and_hazards.md R510). -/
def halves (n : Nat) : List Nat := [n % 256, n / 256 % 256]

/-- A uint32, low byte first (70_reset_and_hazards.md R510). -/
def quarters (n : Nat) : List Nat := [n % 256, n / 256 % 256, n / 65536 % 256, n / 16777216 % 256]

/-- `q`, at offset 29 (70_reset_and_hazards.md R510). -/
def queueCount (bytes : List Byte) : Nat := fullAt bytes 29

/-- `n`, at offset 33 + 2q (70_reset_and_hazards.md R510). -/
def memoryLength (bytes : List Byte) : Nat := fullAt bytes (33 + 2 * queueCount bytes)

/-- A snapshot format error (70_reset_and_hazards.md R512): the magic differs, the stream ends before a field or an array
is complete, q is negative, n is negative or above 65536. -/
def FormatError (bytes : List Byte) : Prop :=
  bytes.take 4 ≠ [0xED, 0xB1, 0xAB, 0x0D] ∨ bytes.length < 33 ∨ 2 ^ 31 ≤ queueCount bytes ∨
    bytes.length < 37 + 2 * queueCount bytes ∨ 2 ^ 31 ≤ memoryLength bytes ∨ 65536 < memoryLength bytes ∨
    bytes.length < 37 + 2 * queueCount bytes + 2 * memoryLength bytes

/-! ## Reset -/

/-- Every register, IQ, IFQ, memory, CYC and FAULT at the values of 70_reset_and_hazards.md R500, and the scheduler
uninitialised. -/
structure CoreCleared (t : State) : Prop where
  regs : ∀ r, t.reg r = 0
  pc   : t.pc = 0
  sp   : t.sp = 0
  ex   : t.ex = 0
  ia   : t.ia = 0
  iq   : t.iq = false
  ifq  : t.ifq = []
  mem  : ∀ addr, t.readMem addr = 0
  cyc  : t.cyc = 0
  fault : t.fault = none
  last : t.last = none

/-- A device at power-on (45_device_clock.md R351, 46_device_keyboard.md R381, 47_device_display.md R411). -/
def poweredOn : Config.DeviceKind → Device
  | .clock => .clock { divisor := 0, deadline := 0, ticks := 0, message := 0 }
  | .keyboard => .keyboard { queue := [], down := [], message := 0, edge := false }
  | .display => .display { vram := 0, font := 0, pal := 0 }

/-- The frames a device's host tick presents at time `t` (47_device_display.md R420). -/
def tickFrames (m : Memory) (t : Rat) : Device → List Frame
  | .display d => if d.vram.toNat = 0 then [] else [d.render m Config.blinkHalf t]
  | .clock _ | .keyboard _ => []

/-- A device after a key event that does `f` to a Keyboard (46_device_keyboard.md R387, R388). -/
def afterKey (f : Keyboard → Keyboard) : Device → Device
  | .keyboard k => .keyboard (f k)
  | .clock k => .clock k
  | .display d => .display d

/-! ## Rendering, in the arithmetic of 47_device_display.md -/

/-- `rgb(w)` (47_device_display.md R422) as a number. -/
def rgbNat (w : Nat) : Nat := 17 * (w / 256 % 16) * 65536 + 17 * (w / 16 % 16) * 256 + 17 * (w % 16)

/-- `colour(i)` (47_device_display.md R422). -/
def colourNat (d : Display) (m : Memory) (i : Fin 16) : Nat :=
  if d.pal = 0 then (Config.defaultPalette i).toNat else (m.readAt ((d.pal.toNat + i.val) % 65536)).toNat

/-- `F(k)` (47_device_display.md R424). -/
def fontNat (d : Display) (m : Memory) (k : Fin 256) : Nat :=
  if d.font = 0 then (Config.defaultFont k).toNat else (m.readAt ((d.font.toNat + k.val) % 65536)).toNat

/-- The word of the cell pixel (x, y) belongs to (47_device_display.md R421, R426). -/
def cellNat (d : Display) (m : Memory) (x y : Nat) : Nat :=
  (m.readAt ((d.vram.toNat + y / 8 * 32 + x / 4) % 65536)).toNat

/-- The glyph byte of column `px`: two bytes of g0, then two of g1, high byte first (47_device_display.md R425). -/
def glyphByte (g0 g1 px : Nat) : Nat :=
  if px = 0 then g0 / 256 else if px = 1 then g0 % 256 else if px = 2 then g1 / 256 else g1 % 256

/-- The packed-RGB value of pixel (x, y) (47_device_display.md R421 to R426). -/
def pixelNat (d : Display) (m : Memory) (half t : Rat) (x y : Nat) : Nat :=
  let cw := cellNat d m x y
  let fg := Fin.ofNat 16 (cw / 4096)
  let bg := Fin.ofNat 16 (cw / 256 % 16)
  let blink := cw / 128 % 2 = 1
  let ch := cw % 128
  let blinkOff := (t / half).floor % 2 = 1
  let on := glyphByte (fontNat d m (Fin.ofNat 256 (2 * ch))) (fontNat d m (Fin.ofNat 256 (2 * ch + 1))) (x % 4) /
    2 ^ (y % 8) % 2 = 1
  rgbNat (colourNat d m (if on ∧ ¬(blink ∧ blinkOff) then fg else bg))

end Sys2Proof.Claims

open Sys2Proof Sys2Proof.Machine Sys2Proof.Claims

/-! # Encoding -/

/-- Decode and encode agree: for every well-formed instruction, with every operand the encoding admits, decoding its
words (whatever follows them) gives it back and leaves what followed. -/
def Obligations.DecodingAnEncodedInstructionGivesItBack : Prop :=
  ∀ (i : Instr) (rest : List Word), i.wellFormed = true → decode (encode i ++ rest) = .ok (i, rest)

/-- The other direction: what decodes is well formed and is encoded by the words it was decoded from, so each sequence
of words has one meaning and no bit of it is dropped. -/
def Obligations.EncodingADecodedInstructionGivesItsWords : Prop :=
  ∀ (ws : List Word) (i : Instr) (rest : List Word),
    decode ws = .ok (i, rest) → i.wellFormed = true ∧ encode i ++ rest = ws

/-- 30_encoding.md R105: the length of an instruction from its first word alone; the decoder takes that many words, and
the skip passes that many. R111: the conditionals, which the skip follows, are the words with op 0x10 to 0x17. -/
def Obligations.FirstWordGivesTheLength : Prop :=
  (∀ (w : Word), isConditional w = true ↔ 0x10 ≤ w.toNat % 32 ∧ w.toNat % 32 ≤ 0x17) ∧
  (∀ (w : Word) (ws rest : List Word) (i : Instr),
      decode (w :: ws) = .ok (i, rest) → ws.length + 1 = lengthOf w + rest.length) ∧
    ∀ (m : Memory) (p : Word), illegalCode (m.read p) = none → isConditional (m.read p) = false →
      skip m p = .passed (BitVec.ofNat 16 (p.toNat + lengthOf (m.read p))) 1

/-- 30_encoding.md R112: exactly the unassigned opcode values are illegal, a step at such a word records the decode
error with the offending value and the word's address, and the all-zero word is one of them. The code an illegal word
reports, which the skip uses too, is its op or its sop. -/
def Obligations.UnassignedOpcodesAreDecodeErrors : Prop :=
  (∀ (w : Word) (code : BitVec 5), illegalCode w = some code ↔
      unassignedBasic (w.toNat % 32) ∧ code.toNat = w.toNat % 32 ∨
        w.toNat % 32 = 0 ∧ unassignedSpecial (w.toNat / 32 % 32) ∧ code.toNat = w.toNat / 32 % 32) ∧
  ∀ (s : State), s.fault = none →
    let w := (s.readMem s.pc).toNat
    let op := w % 32
    let sop := w / 32 % 32
    (unassignedBasic op → ∃ t, step s = .next t ∧ t.fault = some { code := BitVec.ofNat 5 op, pc := s.pc }) ∧
      (op = 0 ∧ unassignedSpecial sop → ∃ t, step s = .next t ∧ t.fault = some { code := BitVec.ofNat 5 sop, pc := s.pc }) ∧
      (¬unassignedBasic op ∧ ¬(op = 0 ∧ unassignedSpecial sop) → ∃ i, s.fetch = .ok i) ∧
      (w = 0 → ∃ t, step s = .next t ∧ t.fault = some { code := 0, pc := s.pc })

/-- A few words of 30_encoding.md and 95_test_vectors.md decode to the instructions they stand for. -/
def Obligations.SampleWordsDecode : Prop :=
  decode [0x7C01, 0x0005] = .ok (.set (.reg .a) (.lit 5), []) ∧
    decode [0x0021] = .ok (.set (.reg .b) (.reg .a), []) ∧
    decode [0x7BC2, 0x2000, 0x1000] = .ok (.add (.abs 0x1000) (.abs 0x2000), []) ∧
    decode [0x8B83] = .ok (.sub .pc (.short 2), []) ∧
    decode [0x6381] = .ok (.set .pc .stack, []) ∧
    decode [0x9412] = .ok (.ife (.reg .a) (.short 5), []) ∧
    decode [0x3DDE] = .ok (.sti (.ind .i) (.ind .j), []) ∧
    decode [0x8640] = .ok (.hwi (.short 1), [])

/-! # Operands -/

/-- The resolver, code by code (40_addressing.md): for every operand code `c` in every position it may stand in, with
`n` the next word, the location, and the state after the side effects on PC and SP. -/
def Obligations.ResolverFollowsTheCodeTable : Prop :=
  ∀ (s : State) (pos : Position) (c : BitVec 6) (k : Nat) (r : Reg),
    ([.a, .b, .c, .x, .y, .z, .i, .j] : List Reg)[k]? = some r →
    let n := s.readMem s.pc
    let res := s.resolve pos (operandOf c n)
    let next := s.setPc (BitVec.ofNat 16 (s.pc.toNat + 1))
    surcharge (operandOf c n) = takesWord c.toNat ∧
      (c.toNat = k → res = (.reg r, s)) ∧
      (c.toNat = 0x08 + k → res = (.mem (s.reg r), s)) ∧
      (c.toNat = 0x10 + k → res = (.mem (BitVec.ofNat 16 ((s.reg r).toNat + n.toNat)), next)) ∧
      (c.toNat = 0x18 → pos = .a → res = (.mem s.sp, s.setSp (BitVec.ofNat 16 (s.sp.toNat + 1)))) ∧
      (c.toNat = 0x18 → pos = .b →
        res = (.mem (BitVec.ofInt 16 (s.sp.toNat - 1)), s.setSp (BitVec.ofInt 16 (s.sp.toNat - 1)))) ∧
      (c.toNat = 0x19 → res = (.mem s.sp, s)) ∧
      (c.toNat = 0x1A → res = (.mem (BitVec.ofNat 16 (s.sp.toNat + n.toNat)), next)) ∧
      (c.toNat = 0x1B → res = (.sp, s)) ∧
      (c.toNat = 0x1C → res = (.pc, s)) ∧
      (c.toNat = 0x1D → res = (.ex, s)) ∧
      (c.toNat = 0x1E → res = (.mem n, next)) ∧
      (c.toNat = 0x1F → res = (.lit n, next)) ∧
      (0x20 ≤ c.toNat → res = (.lit (BitVec.ofInt 16 (c.toNat - 0x21)), s))

/-- Operands of an instruction move PC by its inline words and SP by POP and PUSH, and change nothing else; a is resolved
before b (41_executor.md section 1). -/
def Obligations.OperandsMoveOnlyPcAndSp : Prop :=
  ∀ (s : State) (b a : Operand),
    let t := (s.resolveBoth b a).st
    t.pc = BitVec.ofNat 16 (s.pc.toNat + a.inline.length + b.inline.length) ∧
      t.sp = BitVec.ofInt 16
        (s.sp.toNat + (if a = .stack then 1 else 0) - (if b = .stack then 1 else 0)) ∧
      t = (s.setPc t.pc).setSp t.sp ∧
      (s.resolveBoth b a).va = (s.resolve .a a).2.readLoc (s.resolve .a a).1 ∧
      (s.resolveBoth b a).la = (s.resolve .a a).1 ∧
      (s.resolveBoth b a).lb = ((s.resolve .a a).2.resolve .b b).1 ∧
      (s.resolveBoth b a).vb = t.readLoc (s.resolveBoth b a).lb

/-! # Move, arithmetic, logic, shifts, block copy (42_alu.md) -/

/-- 42_alu.md R220, SET, with its word `(a << 10) | (b << 5) | 0x01`. -/
def Obligations.SetWritesTheSourceValue : Prop :=
  (WritesResult .set 0x01 fun _ va v => v = va) ∧
    ∀ (b a : Operand), (Instr.set b a).wellFormed = true →
      (firstWord (.set b a)).toNat = 1024 * a.code.toNat + 32 * b.code.toNat + 1

/-- 42_alu.md R222 and R223, ADD and SUB. -/
def Obligations.AddAndSubWriteResultAndCarry : Prop :=
  (WritesResultAndEx .add 0x02 fun vb va _ v e =>
      v.toNat = (vb.toNat + va.toNat) % 2 ^ 16 ∧ e.toNat = if vb.toNat + va.toNat > 0xFFFF then 1 else 0) ∧
    (WritesResultAndEx .sub 0x03 fun vb va _ v e =>
      let r : Int := vb.toNat - va.toNat
      (v.toNat : Int) = r % 2 ^ 16 ∧ e.toNat = if r < 0 then 0xFFFF else 0)

/-- 42_alu.md R224 and R225, MUL and MLI: `/` and `%` by a positive number round down. -/
def Obligations.MulAndMliWriteBothProductHalves : Prop :=
  (WritesResultAndEx .mul 0x04 fun vb va _ v e =>
      v.toNat = vb.toNat * va.toNat % 2 ^ 16 ∧ e.toNat = vb.toNat * va.toNat / 2 ^ 16) ∧
    (WritesResultAndEx .mli 0x05 fun vb va _ v e =>
      (v.toNat : Int) = vb.toInt * va.toInt % 2 ^ 16 ∧
        (e.toNat : Int) = vb.toInt * va.toInt / 2 ^ 16 % 2 ^ 16 ∧
        (vb.toInt * va.toInt - (2 ^ 16 * e.toNat + v.toNat)) % 2 ^ 32 = 0)

/-- 42_alu.md R226 and R227, DIV and DVI. -/
def Obligations.DivAndDviWriteQuotientAndFraction : Prop :=
  (WritesResultAndEx .div 0x06 fun vb va _ v e =>
      if va.toNat = 0 then v.toNat = 0 ∧ e.toNat = 0
      else v.toNat = vb.toNat / va.toNat ∧ e.toNat = vb.toNat * 2 ^ 16 / va.toNat % 2 ^ 16) ∧
    (WritesResultAndEx .dvi 0x07 fun vb va _ v e =>
      if va.toNat = 0 then v.toNat = 0 ∧ e.toNat = 0
      else
        (v.toNat : Int) = vb.toInt.tdiv va.toInt % 2 ^ 16 ∧
          (e.toNat : Int) = (vb.toInt * 2 ^ 16).tdiv va.toInt % 2 ^ 16)

/-- 42_alu.md R228 and R229, MOD and MDI: MDI's remainder is `x - y * tdiv(x, y)` and has the sign of the dividend. -/
def Obligations.ModAndMdiWriteTheRemainder : Prop :=
  (WritesResult .mod 0x08 fun vb va v => if va.toNat = 0 then v.toNat = 0 else v.toNat = vb.toNat % va.toNat) ∧
    (WritesResult .mdi 0x09 fun vb va v =>
      if va.toNat = 0 then v.toNat = 0
      else (v.toNat : Int) = (vb.toInt - va.toInt * vb.toInt.tdiv va.toInt) % 2 ^ 16 ∧
        (0 ≤ vb.toInt → 0 ≤ v.toInt) ∧ (vb.toInt ≤ 0 → v.toInt ≤ 0))

/-- 42_alu.md R230 to R232, AND, BOR, XOR, bit by bit. -/
def Obligations.LogicWorksBitByBit : Prop :=
  (WritesResult .and 0x0A fun vb va v => ∀ k, v.getLsbD k = (vb.getLsbD k && va.getLsbD k)) ∧
    (WritesResult .bor 0x0B fun vb va v => ∀ k, v.getLsbD k = (vb.getLsbD k || va.getLsbD k)) ∧
    (WritesResult .xor 0x0C fun vb va v => ∀ k, v.getLsbD k = (vb.getLsbD k ^^ va.getLsbD k))

/-- 42_alu.md R233, R234 and R236, SHR and SHL. -/
def Obligations.ShrAndShlShiftThirtyTwoBits : Prop :=
  (WritesResultAndEx .shr 0x0D fun vb va _ v e =>
      v.toNat = vb.toNat / 2 ^ (va.toNat % 32) ∧
        e.toNat = vb.toNat * 2 ^ 16 / 2 ^ (va.toNat % 32) % 2 ^ 16 ∧
        2 ^ 16 * v.toNat + e.toNat = vb.toNat * 2 ^ 16 / 2 ^ (va.toNat % 32)) ∧
    (WritesResultAndEx .shl 0x0F fun vb va _ v e =>
      let t := vb.toNat * 2 ^ (va.toNat % 32) % 2 ^ 32
      v.toNat = t % 2 ^ 16 ∧ e.toNat = t / 2 ^ 16)

/-- 42_alu.md R235, ASR: `/` and `%` by a positive number round down. -/
def Obligations.AsrShiftsTheSignedThirtyTwoBits : Prop :=
  WritesResultAndEx .asr 0x0E fun vb va _ v e =>
    (v.toNat : Int) = vb.toInt / 2 ^ (va.toNat % 32) % 2 ^ 16 ∧
      (e.toNat : Int) = vb.toInt * 2 ^ 16 / 2 ^ (va.toNat % 32) % 2 ^ 16 ∧
      2 ^ 16 * v.toInt + e.toNat = vb.toInt * 2 ^ 16 / 2 ^ (va.toNat % 32)

/-- 42_alu.md R244, ADX. -/
def Obligations.AdxAddsWithCarryIn : Prop :=
  WritesResultAndEx .adx 0x1A fun vb va ex v e =>
    let r := vb.toNat + va.toNat + ex.toNat
    v.toNat = r % 2 ^ 16 ∧ e.toNat = if r > 0xFFFF then 1 else 0

/-- 42_alu.md R245, SBX: above 0xFFFF EX takes the parameter SBX_EX_ABOVE, 0 or 1. -/
def Obligations.SbxSubtractsWithCarryIn : Prop :=
  WritesResultAndEx .sbx 0x1B fun vb va ex v e =>
    let r : Int := vb.toNat - va.toNat + ex.toNat
    (v.toNat : Int) = r % 2 ^ 16 ∧
      e.toNat = (if r < 0 then 1 else if r > 0xFFFF then (if Config.sbxExAbove then 1 else 0) else 0) ∧
      e.toNat ≤ 1

/-- 42_alu.md R246 and R247, STI and STD: b's value goes to a's location, and I and J move. -/
def Obligations.StiAndStdCopyBToAAndMove : Prop := CopiesAndMoves .sti 0x1E 1 ∧ CopiesAndMoves .std 0x1F 0xFFFF

/-! # Conditionals (43_conditional.md) -/

/-- A conditional whose predicate holds runs on: it writes nothing and PC stands after it (43_conditional.md R284 to
R291 with R280). -/
def Obligations.TrueTestRunsOn : Prop :=
  ∀ (mk : Operand → Operand → Instr) (op : Nat) (P : Word → Word → Prop), IsConditional mk op P →
    ∀ (b a : Operand) (s : State),
      (opField (firstWord (mk b a))).toNat = op ∧
        let r := s.resolveBoth b a
        (P r.vb r.va →
          ∃ t, exec (mk b a) s = .next t ∧ WroteNothing s t ∧ KeepsPlatform s t ∧ LeavesPcSp r.st t ∧
            t.cyc = s.cyc + baseCost (mk b a) + a.inline.length + b.inline.length)

/-- A conditional whose predicate fails skips the chain after it: any number `n` of conditionals and the first
instruction that is none, each passed over at one cycle, none of them resolved (43_conditional.md R281, R282). The base
cost is the parameter COST[IFx], 2 in the table of R191. -/
def Obligations.FalseTestSkipsTheChain : Prop :=
  ∀ (mk : Operand → Operand → Instr) (op : Nat) (P : Word → Word → Prop), IsConditional mk op P →
    ∀ (b a : Operand) (s : State) (n : Nat),
      let r := s.resolveBoth b a
      let last := s.readMem (skipPath s.mem r.st.pc n)
      ¬P r.vb r.va → chainPasses s.mem r.st.pc n → illegalCode last = none → isConditional last = false →
        ∃ t, exec (mk b a) s = .next t ∧ WroteNothing s t ∧ KeepsPlatform s t ∧
          t.pc = skipPath s.mem r.st.pc (n + 1) ∧ t.sp = r.st.sp ∧
          t.cyc = s.cyc + baseCost (mk b a) + a.inline.length + b.inline.length + (n + 1) ∧ tableCost (mk b a) = 2

/-- A skip that meets an illegal word, after any number `n` of conditionals, is a decode error at that word: PC stands at
it, the failed conditional's operand effects remain, nothing is charged (43_conditional.md R282, 60_exceptions.md
R470). -/
def Obligations.SkipMeetingAnIllegalWordFaults : Prop :=
  ∀ (mk : Operand → Operand → Instr) (op : Nat) (P : Word → Word → Prop), IsConditional mk op P →
    ∀ (b a : Operand) (s : State) (n : Nat) (code : BitVec 5),
      let r := s.resolveBoth b a
      let addr := skipPath s.mem r.st.pc n
      ¬P r.vb r.va → chainPasses s.mem r.st.pc n → illegalCode (s.readMem addr) = some code →
        ∃ t, exec (mk b a) s = .next t ∧ WroteNothing s t ∧ t.fault = some { code := code, pc := addr } ∧
          t.pc = addr ∧ t.sp = r.st.sp ∧ t.cyc = s.cyc ∧ t.devices = s.devices ∧ t.time = s.time ∧
          t.last = s.last ∧ t.bal = s.bal

/-- 43_conditional.md R283: a failed conditional has no successor exactly when its skip chain never reaches an
instruction that is no conditional. The model bounds the walk at 65536 conditionals (assumption 12); this says the bound
loses nothing. -/
def Obligations.EndlessChainIsStuckAndNothingElseIs : Prop :=
  ∀ (mk : Operand → Operand → Instr) (op : Nat) (P : Word → Word → Prop), IsConditional mk op P →
    ∀ (b a : Operand) (s : State),
      let r := s.resolveBoth b a
      ¬P r.vb r.va → (exec (mk b a) s = .fault .skipNeverEnds ↔ chainNeverEnds s.mem r.st.pc)

/-! # Special opcodes (44_special.md) -/

/-- 44_special.md R311, JSR, with its word `(a << 10) | 0x0020`: the return address, PC after the operand, goes to the
word below SP. -/
def Obligations.JsrPushesTheReturnAddress : Prop :=
  ∀ (a : Operand) (s : State), (firstWord (.jsr a)).toNat = 1024 * a.code.toNat + 0x20 ∧
    let mid := (s.resolve .a a).2
    ∃ t, exec (.jsr a) s = .next t ∧ t.pc = mid.readLoc (s.resolve .a a).1 ∧ t.sp = mid.sp - 1 ∧
      (∀ addr, t.readMem addr = if addr = mid.sp - 1 then mid.pc else s.readMem addr) ∧
      (∀ r, t.reg r = s.reg r) ∧ t.ex = s.ex ∧ KeepsInterrupts s t ∧ KeepsPlatform s t ∧
      Charged (.jsr a) 3 s t

/-- 44_special.md R312, INT: the operand's value is appended to the FIFO and nothing is delivered by the instruction; the
dispatch step after it does nothing while IQ = 1, and delivers this very message when IQ = 0 and the FIFO was empty. -/
def Obligations.IntEnqueuesItsOperand : Prop :=
  ∀ (a : Operand) (s : State), HasSpecialOpcode (.int a) 0x08 ∧
    let mid := (s.resolve .a a).2
    ∃ t, exec (.int a) s = .next t ∧ t.ifq = s.ifq ++ [mid.readLoc (s.resolve .a a).1] ∧ t.ia = s.ia ∧ t.iq = s.iq ∧
      (∀ r, t.reg r = s.reg r) ∧ t.ex = s.ex ∧ (∀ addr, t.readMem addr = s.readMem addr) ∧ LeavesPcSp mid t ∧
      KeepsPlatform s t ∧ Charged (.int a) 4 s t ∧
      (s.iq = true → t.dispatch = t) ∧
      (s.iq = false → s.ifq = [] → t.dispatch.ifq = [] ∧ t.dispatch.pc = s.ia ∧
        t.dispatch.reg .a = mid.readLoc (s.resolve .a a).1 ∧ t.dispatch.iq = true)

/-- 44_special.md R313, IAG: IA goes to the operand's location. -/
def Obligations.IagWritesIaToItsOperand : Prop :=
  ∀ (a : Operand) (s : State), HasSpecialOpcode (.iag a) 0x09 ∧
    ∃ t, exec (.iag a) s = .next t ∧ WroteOnly (s.resolve .a a).1 s.ia s (s.resolve .a a).2 t ∧
      Charged (.iag a) 1 s t

/-- 44_special.md R316, IAS: IA takes the operand's value. -/
def Obligations.IasSetsIa : Prop :=
  ∀ (a : Operand) (s : State), HasSpecialOpcode (.ias a) 0x0A ∧
    let mid := (s.resolve .a a).2
    ∃ t, exec (.ias a) s = .next t ∧ t.ia = mid.readLoc (s.resolve .a a).1 ∧ t.iq = s.iq ∧ t.ifq = s.ifq ∧
      (∀ r, t.reg r = s.reg r) ∧ t.ex = s.ex ∧ (∀ addr, t.readMem addr = s.readMem addr) ∧ LeavesPcSp mid t ∧
      KeepsPlatform s t ∧ Charged (.ias a) 1 s t

/-- 44_special.md R314, RFI: A is popped, then PC, and IQ is cleared; the operand is resolved and ignored. -/
def Obligations.RfiPopsAThenPcAndClearsIq : Prop :=
  ∀ (a : Operand) (s : State), HasSpecialOpcode (.rfi a) 0x0B ∧
    let mid := (s.resolve .a a).2
    ∃ t, exec (.rfi a) s = .next t ∧ t.reg .a = s.readMem mid.sp ∧ t.pc = s.readMem (mid.sp + 1) ∧
      t.sp = mid.sp + 2 ∧ t.iq = false ∧ t.ia = s.ia ∧ t.ifq = s.ifq ∧
      (∀ r, r ≠ .a → t.reg r = s.reg r) ∧ t.ex = s.ex ∧ (∀ addr, t.readMem addr = s.readMem addr) ∧
      KeepsPlatform s t ∧ Charged (.rfi a) 3 s t

/-- 44_special.md R315, IAQ: IQ is set by every nonzero operand and cleared by zero. -/
def Obligations.IaqSetsOrClearsQueueing : Prop :=
  ∀ (a : Operand) (s : State), HasSpecialOpcode (.iaq a) 0x0C ∧
    let mid := (s.resolve .a a).2
    ∃ t, exec (.iaq a) s = .next t ∧ (t.iq = true ↔ (mid.readLoc (s.resolve .a a).1).toNat ≠ 0) ∧ t.ia = s.ia ∧
      t.ifq = s.ifq ∧ (∀ r, t.reg r = s.reg r) ∧ t.ex = s.ex ∧ (∀ addr, t.readMem addr = s.readMem addr) ∧
      LeavesPcSp mid t ∧ KeepsPlatform s t ∧ Charged (.iaq a) 2 s t

/-- 44_special.md R317, HWN: the number of devices, modulo 2^16, goes to the operand's location. -/
def Obligations.HwnWritesTheDeviceCount : Prop :=
  ∀ (a : Operand) (s : State), HasSpecialOpcode (.hwn a) 0x10 ∧
    ∃ t v, exec (.hwn a) s = .next t ∧ v.toNat = s.devices.length % 2 ^ 16 ∧
      WroteOnly (s.resolve .a a).1 v s (s.resolve .a a).2 t ∧ Charged (.hwn a) 2 s t

/-- 44_special.md R318, HWQ: the identity triple of the device at the operand's index, split over A, B, C, X, Y; zeros
where the index is out of range. -/
def Obligations.HwqReportsTheIdentity : Prop :=
  ∀ (a : Operand) (s : State), HasSpecialOpcode (.hwq a) 0x11 ∧
    let mid := (s.resolve .a a).2
    let index := (mid.readLoc (s.resolve .a a).1).toNat
    ∃ t, exec (.hwq a) s = .next t ∧
      (∀ d, s.devices[index]? = some d →
        let id := identityOf d.kind
        (t.reg .a).toNat = id.hardware.toNat % 2 ^ 16 ∧ (t.reg .b).toNat = id.hardware.toNat / 2 ^ 16 ∧
          t.reg .c = id.version ∧ (t.reg .x).toNat = id.manufacturer.toNat % 2 ^ 16 ∧
          (t.reg .y).toNat = id.manufacturer.toNat / 2 ^ 16) ∧
      (s.devices[index]? = none →
        t.reg .a = 0 ∧ t.reg .b = 0 ∧ t.reg .c = 0 ∧ t.reg .x = 0 ∧ t.reg .y = 0) ∧
      t.reg .z = s.reg .z ∧ t.reg .i = s.reg .i ∧ t.reg .j = s.reg .j ∧ t.ex = s.ex ∧
      (∀ addr, t.readMem addr = s.readMem addr) ∧ LeavesPcSp mid t ∧ KeepsInterrupts s t ∧ KeepsPlatform s t ∧
      Charged (.hwq a) 4 s t

/-- HWI of an index out of range costs the base overhead only and has no effect (44_special.md R319). -/
def Obligations.HwiOutOfRangeHasNoEffect : Prop :=
  ∀ (a : Operand) (s : State), HasSpecialOpcode (.hwi a) 0x12 ∧
    let mid := (s.resolve .a a).2
    (s.devices[(mid.readLoc (s.resolve .a a).1).toNat]? = none →
      ∃ t, exec (.hwi a) s = .next t ∧ WroteNothing s t ∧ KeepsPlatform s t ∧ LeavesPcSp mid t ∧
        Charged (.hwi a) 4 s t)

/-- HWI to a Clock: arm, read, set message, or nothing, by A (45_device_clock.md R353 to R356). -/
def Obligations.HwiCommandsTheClock : Prop :=
  ∀ (a : Operand) (s : State) (i : Nat) (k : Clock), HwiReaches a s i (.clock k) →
    let sel := (s.reg .a).toNat
    let arg := s.reg .b
    ∃ t k' c, exec (.hwi a) s = .next t ∧ HwiDone a s i (.clock k') c 0 t ∧
      (sel = 0 → k'.divisor = arg ∧ k'.ticks = 0 ∧ k'.message = k.message ∧ c = s.reg .c ∧
        (arg.toNat ≠ 0 → k'.deadline = s.time + (arg.toNat : Rat) / 60) ∧
        (arg.toNat = 0 → k'.deadline = k.deadline)) ∧
      (sel = 1 → k' = k ∧ c.toNat = k.ticks % 2 ^ 16) ∧
      (sel = 2 → k'.message = arg ∧ k'.divisor = k.divisor ∧ k'.ticks = k.ticks ∧ k'.deadline = k.deadline ∧
        c = s.reg .c) ∧
      (3 ≤ sel → k' = k ∧ c = s.reg .c)

/-- HWI to a Keyboard: clear the table, pop a key, query a key, set message, or nothing, by A
(46_device_keyboard.md R382 to R386). -/
def Obligations.HwiCommandsTheKeyboard : Prop :=
  ∀ (a : Operand) (s : State) (i : Nat) (k : Keyboard), HwiReaches a s i (.keyboard k) →
    let sel := (s.reg .a).toNat
    let arg := s.reg .b
    ∃ t k' c, exec (.hwi a) s = .next t ∧ HwiDone a s i (.keyboard k') c 0 t ∧ k'.edge = k.edge ∧
      (sel ≠ 1 → k'.queue = k.queue) ∧ (sel ≠ 0 → k'.down = k.down) ∧ (sel ≠ 3 → k'.message = k.message) ∧
      (sel ≠ 1 → sel ≠ 2 → c = s.reg .c) ∧
      (sel = 0 → ∀ code, isDown k'.down code = false) ∧
      (sel = 1 → (k.queue = [] → c = 0 ∧ k'.queue = []) ∧
        ∀ code rest, k.queue = code :: rest → c = code ∧ k'.queue = rest) ∧
      (sel = 2 → c.toNat = if isDown k.down arg then 1 else 0) ∧
      (sel = 3 → k'.message = arg)

/-- HWI to a Display: the three bases, the two capability costs, or nothing, by A; no register is written
(47_device_display.md R413 to R418). -/
def Obligations.HwiCommandsTheDisplay : Prop :=
  ∀ (a : Operand) (s : State) (i : Nat) (d : Display), HwiReaches a s i (.display d) →
    let sel := (s.reg .a).toNat
    let arg := s.reg .b
    ∃ t d' cost, exec (.hwi a) s = .next t ∧ HwiDone a s i (.display d') (s.reg .c) cost t ∧
      d'.vram = (if sel = 0 then arg else d.vram) ∧ d'.font = (if sel = 1 then arg else d.font) ∧
      d'.pal = (if sel = 2 then arg else d.pal) ∧
      cost = if sel = 4 then Config.fontCost else if sel = 5 then Config.paletteCost else 0

/-! # Interrupts (60_exceptions.md) -/

/-- 60_exceptions.md R453 and R454: the dispatch step does nothing while IQ = 1 or the FIFO is empty, whatever IA holds.
Else it takes the oldest message, pushes PC and then A, jumps to IA, passes the message in A and sets IQ; the frame is
saved A under saved PC, and EX, the other registers and the cycle count stay. -/
def Obligations.DispatchDeliversTheOldestMessage : Prop :=
  (∀ (s : State), s.iq = true ∨ s.ifq = [] → s.dispatch = s) ∧
    ∀ (s : State) (m : Word) (rest : List Word), s.iq = false → s.ifq = m :: rest →
      let t := s.dispatch
      t.ifq = rest ∧ t.sp = s.sp - 2 ∧ t.pc = s.ia ∧ t.reg .a = m ∧ t.iq = true ∧
        t.readMem t.sp = s.reg .a ∧ t.readMem (t.sp + 1) = s.pc ∧
        (∀ addr, addr ≠ t.sp → addr ≠ t.sp + 1 → t.readMem addr = s.readMem addr) ∧
        (∀ r, r ≠ .a → t.reg r = s.reg r) ∧ t.ex = s.ex ∧ t.ia = s.ia ∧ t.cyc = s.cyc ∧ KeepsPlatform s t

/-- 60_exceptions.md R456: an RFI of a literal operand undoes a delivery: A, PC, SP and IQ are as before the delivery,
every other register is, the message is gone from the FIFO, and only the two words below SP may differ. -/
def Obligations.RfiUndoesDelivery : Prop :=
  ∀ (s : State) (m : Word) (rest : List Word) (c : BitVec 5), s.iq = false → s.ifq = m :: rest →
    ∃ t, exec (.rfi (.short c)) s.dispatch = .next t ∧ t.regs = s.regs ∧ t.pc = s.pc ∧ t.sp = s.sp ∧ t.iq = false ∧
      t.ex = s.ex ∧ t.ia = s.ia ∧ t.ifq = rest ∧
      (∀ addr, addr ≠ s.sp - 1 → addr ≠ s.sp - 2 → t.readMem addr = s.readMem addr) ∧ KeepsPlatform s t

/-! # The step -/

/-- When the words at PC decode to an instruction, a step is that instruction entered with PC past its first word, and
then one dispatch step unless it ended in a decode error. -/
def Obligations.StepRunsTheDecodedInstruction : Prop :=
  ∀ (s : State) (i : Instr) (rest : List Word), s.fault = none →
    decode [s.readMem s.pc, s.readMem (s.pc + 1), s.readMem (s.pc + 2)] = .ok (i, rest) →
    step s =
      match exec i (s.setPc (s.pc + 1)) with
      | .next t => .next (if t.fault = none then t.dispatch else t)
      | .fault f => .fault f
      | .refused r => .refused r

/-- While FAULT is not none no step is enabled (41_executor.md R180), and a step that executes an illegal word leaves
everything but FAULT and the fetch's PC as it was: no cost, no dispatch even with a message queued and IQ = 0. -/
def Obligations.DecodeErrorStopsTheCore : Prop :=
  (∀ (s : State) (e : DecodeError), s.fault = some e → step s = .fault (.coreStopped e)) ∧
    ∀ (s : State) (code : BitVec 5), s.fault = none → illegalCode (s.readMem s.pc) = some code →
      step s = .next ((s.setPc (s.pc + 1)).setFault (some { code := code, pc := s.pc }))

/-! # Whole-machine rules -/

/-- Every step keeps the invariant: memory in canonical form, devices well formed and at most 65536, T not negative and
not before the scheduler's time. -/
def Obligations.StepKeepsTheInvariant : Prop := ∀ (s t : State), s.wf → step s = .next t → t.wf

/-- The state after reset satisfies the invariant. -/
def Obligations.ResetSatisfiesTheInvariant : Prop := State.reset.wf

/-- Every host action keeps the invariant, a scheduler invocation of any length among them. Three cases rest on the
model's choices, not on a rule: the state a stuck invocation leaves (assumption 26), an advance to an earlier time, which
leaves T (assumption 24), and a key event where several Keyboards are attached (assumption 14). -/
def Obligations.HostActionsKeepTheInvariant : Prop := ∀ (s : State) (act : HostAction), s.wf → (s.afterHost act).wf

/-- A CPU step advances no time, leaves the scheduler alone, and neither adds, removes, reorders nor replaces a device;
only HWI changes a device's state (10_state.md R41 to R43). -/
def Obligations.StepLeavesThePlatformAlone : Prop :=
  ∀ (s t : State), step s = .next t →
    t.time = s.time ∧ t.last = s.last ∧ t.bal = s.bal ∧ t.devices.map Device.kind = s.devices.map Device.kind ∧
      (t.devices ≠ s.devices → ∃ a, s.fetch = .ok (.hwi a))

/-- IA is written by IAS alone (10_state.md R35). -/
def Obligations.OnlyIasWritesIa : Prop :=
  ∀ (s t : State), step s = .next t → t.ia ≠ s.ia → ∃ a, s.fetch = .ok (.ias a)

/-- EX changes only by an opcode that writes it or by an instruction with EX as an operand (10_state.md R33). -/
def Obligations.OnlyExWritersChangeEx : Prop :=
  ∀ (s t : State), step s = .next t → t.ex ≠ s.ex →
    ∃ i, s.fetch = .ok i ∧
      ((∃ b a, i ∈ ([.add b a, .sub b a, .mul b a, .mli b a, .div b a, .dvi b a, .shr b a, .asr b a, .shl b a,
          .adx b a, .sbx b a] : List Instr)) ∨
        (∃ a, i.operands = .two .ex a) ∨
        (∃ b, i = .sti b .ex ∨ i = .std b .ex) ∨ i = .iag .ex ∨ i = .hwn .ex)

/-- IQ changes only by IAQ, by RFI, or by a delivery, which sets it: PC is then at IA, A holds the oldest message of the
FIFO as the instruction left it, and that message has left the FIFO (10_state.md R36, 60_exceptions.md R452, R454). -/
def Obligations.OnlyIaqRfiAndDeliveryChangeIq : Prop :=
  ∀ (s t : State), step s = .next t → t.iq ≠ s.iq →
    (∃ a, s.fetch = .ok (.iaq a)) ∨ (∃ a, s.fetch = .ok (.rfi a)) ∨
      (t.iq = true ∧ t.pc = t.ia ∧
        (s.ifq = t.reg .a :: t.ifq ∨ ∃ a m, s.fetch = .ok (.int a) ∧ s.ifq ++ [m] = t.reg .a :: t.ifq))

/-- A step appends at most one message to the FIFO, and only for INT, and removes at most one, the oldest
(10_state.md R37, 60_exceptions.md section 1). -/
def Obligations.FifoIsAppendedByIntAndDrainedFromTheHead : Prop :=
  ∀ (s t : State), step s = .next t →
    ∃ added : List Word, (t.ifq = s.ifq ++ added ∨ t.ifq = (s.ifq ++ added).tail) ∧
      (added = [] ∨ (∃ m, added = [m]) ∧ ∃ a, s.fetch = .ok (.int a))

/-- Every step that completes adds at least one cycle to CYC, and a step that ends in a decode error adds none
(41_executor.md R183, 60_exceptions.md R470), for every value of the parameter COST. -/
def Obligations.CompletedStepsCostAtLeastOneCycle : Prop :=
  ∀ (s t : State), step s = .next t →
    (t.fault = none → s.cyc + 1 ≤ t.cyc) ∧ (t.fault ≠ none → t.cyc = s.cyc)

/-- A step never refuses, and stops in only two ways: in a state already stopped, or on an endless skip after a
conditional. -/
def Obligations.StepStopsOnlyWhenStoppedOrStuck : Prop :=
  ∀ (s : State),
    (∃ t, step s = .next t) ∨ (∃ e, s.fault = some e ∧ step s = .fault (.coreStopped e)) ∨
      (step s = .fault .skipNeverEnds ∧ s.fault = none ∧
        ∃ i mk op P b a, s.fetch = .ok i ∧ IsConditional mk op P ∧ i = mk b a)

/-! # Reset, load, snapshot (70_reset_and_hazards.md) -/

/-- 70_reset_and_hazards.md R500 and R501: what a core reset sets and what it leaves, and what power-on adds: T = 0 and
every device in its power-on state, for every list of attached devices; State.reset is power-on with DEVICES. The balance
is not in R500's list of values: it is part of the uninitialised scheduler state, which the model holds at 0
(assumption 13), so nothing is said of it here. -/
def Obligations.CoreResetSetsTheCore : Prop :=
  (∀ (s : State), CoreCleared s.coreReset ∧ s.coreReset.devices = s.devices ∧ s.coreReset.time = s.time) ∧
    (∀ (kinds : List Config.DeviceKind),
      CoreCleared (State.powerOn kinds) ∧ (State.powerOn kinds).time = 0 ∧
        (State.powerOn kinds).devices = kinds.map poweredOn) ∧
    CoreCleared State.reset ∧ State.reset.time = 0 ∧ State.reset.devices = Config.deviceKinds.map poweredOn

/-- Program load puts word k of the buffer at address k, in the byte order the flag names, for every k whose two bytes
the buffer holds, and changes no other word and no register (70_reset_and_hazards.md R502). -/
def Obligations.ProgramLoadWritesFromAddressZero : Prop :=
  ∀ (s : State) (big : Bool) (bytes : List Byte),
    let t := s.loadProgram big bytes
    (∀ (addr : Word) (x y : Byte), bytes[2 * addr.toNat]? = some x → bytes[2 * addr.toNat + 1]? = some y →
        (t.readMem addr).toNat = if big then 256 * x.toNat + y.toNat else 256 * y.toNat + x.toNat) ∧
      (∀ addr : Word, bytes[2 * addr.toNat + 1]? = none → t.readMem addr = s.readMem addr) ∧
      t = s.setMem t.mem

/-- Restoring a snapshot of a machine, into any machine, gives the same registers, IQ, FIFO and memory, and resets the
rest of the core (70_reset_and_hazards.md R510 to R513). The premises are the model's: memory in canonical form, and a
FIFO short enough for its signed 32-bit count (assumption 19). -/
def Obligations.SnapshotRoundTrip : Prop :=
  ∀ (s u : State), s.mem.wf → s.ifq.length < 2 ^ 31 →
    u.deserialise s.serialise =
      ({ u.coreReset with
          regs := s.regs, pc := s.pc, sp := s.sp, ex := s.ex, ia := s.ia, iq := s.iq, ifq := s.ifq, mem := s.mem },
        true)

/-- A snapshot's bytes, field by field, little-endian (70_reset_and_hazards.md R510), with the latch byte 1 or 0 and the
whole memory (R511). The count is an int32: the premise says it fits (assumption 19). -/
def Obligations.SnapshotBytesFollowTheLayout : Prop :=
  ∀ (s : State), s.ifq.length < 2 ^ 31 →
    s.serialise.length = 37 + 2 * s.ifq.length + 2 * 65536 ∧
      ∃ words : List Word, words.length = 65536 ∧ (∀ addr, words[addr.toNat]? = some (s.readMem addr)) ∧
        s.serialise.map BitVec.toNat =
          [0xED, 0xB1, 0xAB, 0x0D] ++
            ([.a, .b, .c, .x, .y, .z, .i, .j] : List Reg).flatMap (fun r => halves (s.reg r).toNat) ++
            halves s.pc.toNat ++ halves s.sp.toNat ++ halves s.ex.toNat ++ halves s.ia.toNat ++
            [if s.iq then 1 else 0] ++ quarters s.ifq.length ++ s.ifq.flatMap (fun m => halves m.toNat) ++
            quarters 65536 ++ words.flatMap (fun v => halves v.toNat)

/-- Every stream without a format error is accepted and sets the registers, IQ (any nonzero latch byte is 1), IFQ and the
words it holds; every other word is 0, CYC is 0, FAULT is none and the scheduler uninitialised; DEVICES, the devices'
states and T are as before; what follows the memory array is ignored (70_reset_and_hazards.md R510, R512). -/
def Obligations.RestoreSetsTheMachineFromTheStream : Prop :=
  ∀ (u : State) (bytes : List Byte), ¬FormatError bytes →
    ∃ t, u.deserialise bytes = (t, true) ∧
      (∀ k r, ([.a, .b, .c, .x, .y, .z, .i, .j] : List Reg)[k]? = some r → (t.reg r).toNat = halfAt bytes (4 + 2 * k)) ∧
      t.pc.toNat = halfAt bytes 20 ∧ t.sp.toNat = halfAt bytes 22 ∧ t.ex.toNat = halfAt bytes 24 ∧
      t.ia.toNat = halfAt bytes 26 ∧ (t.iq = true ↔ byteAt bytes 28 ≠ 0) ∧
      t.ifq.length = queueCount bytes ∧
      (∀ k, k < queueCount bytes → (t.ifq.getD k 0).toNat = halfAt bytes (33 + 2 * k)) ∧
      (∀ addr : Word, (t.readMem addr).toNat =
        if addr.toNat < memoryLength bytes then halfAt bytes (37 + 2 * queueCount bytes + 2 * addr.toNat) else 0) ∧
      t.cyc = 0 ∧ t.fault = none ∧ t.last = none ∧ t.devices = u.devices ∧ t.time = u.time

/-- Every format error of 70_reset_and_hazards.md R512, in any stream of bytes, leaves the machine fully reset and is
reported: a wrong magic number, a stream that ends early, a negative queue count, a memory length that is negative or
above 65536. -/
def Obligations.MalformedSnapshotsLeaveTheMachineReset : Prop :=
  ∀ (u : State) (bytes : List Byte), FormatError bytes → u.deserialise bytes = (u.coreReset, false)

/-! # Ticks, keys, pictures, the scheduler -/

/-- A host tick runs every device's tick once, in DEVICES order, at the current T: the devices' messages enter the FIFO
in that order, every mapped Display presents one frame, rendered from the current memory, T and BLINK_HALF, in that
order, and no register, no memory word and nothing of the core but the FIFO changes (70_reset_and_hazards.md R520;
45_device_clock.md R357; 46_device_keyboard.md R390; 47_device_display.md R420). -/
def Obligations.TickRunsEveryDeviceInOrder : Prop :=
  ∀ (s : State),
    let t := s.tick.1
    t.devices = s.devices.map (afterTick s.time) ∧
      t.ifq = s.ifq ++ (s.devices.map (tickMessages s.time)).flatten ∧
      t = (s.setDevices t.devices).setIfq t.ifq ∧
      s.tick.2 = (s.devices.map (tickFrames s.mem s.time)).flatten

/-- Key events (46_device_keyboard.md R387, R388; 70_reset_and_hazards.md R523): a key-down appends the code and drops the
oldest beyond 100, sets the pressed bit and the edge; a key-up clears the pressed bit alone. In the machine every attached
Keyboard takes the event (the model's choice where there are several: assumption 14) and nothing else changes. An advance
of time changes T alone, to the later of the two times (R524; that an earlier time leaves T is the model's choice:
assumption 24). -/
def Obligations.KeyEventsUpdateQueueAndTable : Prop :=
  (∀ (k : Keyboard) (code other : Word), k.queue.length ≤ 100 →
    (k.queue.length < 100 → (k.keyDown code).queue = k.queue ++ [code]) ∧
      (k.queue.length = 100 → (k.keyDown code).queue = k.queue.tail ++ [code]) ∧
      (isDown (k.keyDown code).down other = true ↔ other = code ∨ isDown k.down other = true) ∧
      (k.keyDown code).edge = true ∧ (k.keyDown code).message = k.message ∧
      (isDown (k.keyUp code).down other = true ↔ other ≠ code ∧ isDown k.down other = true) ∧
      (k.keyUp code).queue = k.queue ∧ (k.keyUp code).edge = k.edge ∧ (k.keyUp code).message = k.message) ∧
    (∀ (s : State) (code : Word),
      s.keyDown code = s.setDevices (s.devices.map (afterKey (·.keyDown code))) ∧
        s.keyUp code = s.setDevices (s.devices.map (afterKey (·.keyUp code)))) ∧
    ∀ (s : State) (now : Rat),
      s.advanceTime now = { s with time := (s.advanceTime now).time } ∧
        (s.time ≤ now → (s.advanceTime now).time = now) ∧ (now < s.time → (s.advanceTime now).time = s.time)

/-- Every pixel of a frame is the one 47_device_display.md R421 to R426 describe, row-major, 128 by 96, for every
BLINK_HALF and T. -/
def Obligations.FramePixelsFollowTheTables : Prop :=
  ∀ (d : Display) (m : Memory) (half t : Rat),
    (d.render m half t).pixels.length = 12288 ∧ (d.render m half t).width = 128 ∧
      ∀ x y, x < 128 → y < 96 →
        (d.render m half t).pixels[y * 128 + x]? = some (BitVec.ofNat 24 (pixelNat d m half t x y)) ∧
          pixelNat d m half t x y < 2 ^ 24

/-- The first invocation only initialises, and a later one that is granted no cycle changes nothing at all: with ROUND =
floor within less than a cycle's worth of time, with either rounding at the stored time itself (70_reset_and_hazards.md
R521, R525; 90_conflicts.md C10). -/
def Obligations.EarlyInvocationsRunNothing : Prop :=
  ∀ (s : State) (rate : Nat) (rounding : Config.Rounding),
    (s.last = none →
      (s.invokeWith rate rounding).state = { s with last := some s.time, bal := 0 } ∧
        (s.invokeWith rate rounding).frames = [] ∧ (s.invokeWith rate rounding).verdict = .ok) ∧
      ∀ l, s.last = some l → l ≤ s.time →
        (rounding = .floor ∧ (rate : Rat) * (s.time - l) < 1 ∨ s.time = l) →
        s.invokeWith rate rounding = { state := s, frames := [], verdict := .ok }

/-- An invocation that is granted cycles, with either rounding, is the loop of 70_reset_and_hazards.md R521: the stored
time is T, the devices tick once and their frames are presented, the grant, clamped to one second, is added to the
balance, and CPU steps run, each paid from the balance by what it adds to CYC, until the balance is spent (ok), FAULT was
set at entry or a step sets it (failed, with that error), or a step has no result (stuck). What is said of the state a
stuck invocation leaves is the model's choice (assumption 26). -/
def Obligations.InvocationSpendsItsGrant : Prop :=
  ∀ (s : State) (rate : Nat) (rounding : Config.Rounding) (l : Rat), s.last = some l →
    let earned : Rat := (rate : Rat) * (s.time - l)
    (rounding = .floor ∧ 1 ≤ earned ∨ rounding = .ceil ∧ 0 < earned) →
      let granted : Int := if rounding = .floor then earned.floor else earned.ceil
      let ready : State := { s.tick.1 with last := some s.time, bal := s.bal + min (rate : Int) granted }
      let done := s.invokeWith rate rounding
      done.frames = s.tick.2 ∧
        (∃ n u, BudgetRounds n ready u ∧
          ((done.state = u ∧ done.verdict = .ok ∧ u.fault = none ∧ u.bal ≤ 0) ∨
            (∃ e, done.state = u ∧ done.verdict = .failed e ∧ n = 0 ∧ s.fault = some e) ∨
            (∃ e, step u = .next done.state ∧ done.verdict = .failed e ∧ 0 < u.bal ∧ u.fault = none ∧
              done.state.fault = some e) ∨
            (done.state = u ∧ done.verdict = .stuck ∧ 0 < u.bal ∧ u.fault = none ∧
              step u = .fault .skipNeverEnds))) ∧
        done.state.bal = ready.bal - ((done.state.cyc : Int) - s.cyc) ∧ done.state.bal ≤ max 0 ready.bal ∧
        done.state.last = some s.time ∧ done.state.time = s.time

/-- The cycles of an instruction: its base cost and one cycle for each inline word its operands fetch (41_executor.md
R190, 40_addressing.md R151). The base cost is the parameter COST of its opcode or COST_S of its special opcode, 1 to 4
(R183), for every value of which the model's statements hold; the table is the one R191 gives. -/
def Obligations.CyclesAreBaseCostAndInlineWords : Prop :=
  (∀ (i : Instr), cycles i = baseCost i + (inlineWords i).length) ∧
    (∀ (c : BitVec 6) (n : Word), (operandOf c n).inline.length = takesWord c.toNat) ∧
    (∀ (i : Instr) (b a : Operand), i.operands = .two b a → baseCost i = Config.basicCost (opField (firstWord i))) ∧
    (∀ (i : Instr) (a : Operand), i.operands = .one a → baseCost i = Config.specialCost (bField (firstWord i))) ∧
    (∀ i, 1 ≤ baseCost i ∧ baseCost i ≤ 4) ∧
    (∀ b a, ([.set b a, .and b a, .bor b a, .xor b a, .shr b a, .asr b a, .shl b a] : List Instr).map tableCost =
      List.replicate 7 1) ∧
    (∀ b a, ([.add b a, .sub b a, .mul b a, .mli b a, .ifb b a, .ifc b a, .ife b a, .ifn b a, .ifg b a, .ifa b a,
      .ifl b a, .ifu b a, .sti b a, .std b a] : List Instr).map tableCost = List.replicate 14 2) ∧
    (∀ b a, ([.div b a, .dvi b a, .mod b a, .mdi b a, .adx b a, .sbx b a] : List Instr).map tableCost =
      List.replicate 6 3) ∧
    ∀ a, ([.jsr a, .int a, .iag a, .ias a, .rfi a, .iaq a, .hwn a, .hwq a, .hwi a] : List Instr).map tableCost =
      [3, 4, 1, 1, 3, 2, 2, 4, 4]
end

