-- ==== Sys2Proof/Laws/Decode.lean ====
section
/-! SUPPORT. The laws of fields, operand codes and opcode numbers that decoding and encoding rest on. -/

namespace Sys2Proof

/-! ## Fields -/

@[simp] theorem opField_packWord (a : BitVec 6) (b op : BitVec 5) : opField (packWord a b op) = op := by
  apply BitVec.eq_of_getLsbD_eq
  intro k hk
  simp only [opField, packWord, BitVec.getLsbD_extractLsb', BitVec.getLsbD_append]
  simp [hk]

@[simp] theorem bField_packWord (a : BitVec 6) (b op : BitVec 5) : bField (packWord a b op) = b := by
  apply BitVec.eq_of_getLsbD_eq
  intro k hk
  simp only [bField, packWord, BitVec.getLsbD_extractLsb', BitVec.getLsbD_append]
  simp [hk]

@[simp] theorem aField_packWord (a : BitVec 6) (b op : BitVec 5) : aField (packWord a b op) = a := by
  apply BitVec.eq_of_getLsbD_eq
  intro k hk
  simp only [aField, packWord, BitVec.getLsbD_extractLsb', BitVec.getLsbD_append]
  have h1 : ¬ 10 + k < 5 := by omega
  have h2 : ¬ 10 + k - 5 < 5 := by omega
  have h3 : 10 + k - 5 - 5 = k := by omega
  simp [hk, h1, h2, h3]

/-- A word is its three fields. -/
theorem packWord_fields (w : Word) : packWord (aField w) (bField w) (opField w) = w := by
  apply BitVec.eq_of_getLsbD_eq
  intro k hk
  simp only [aField, bField, opField, packWord, BitVec.getLsbD_extractLsb', BitVec.getLsbD_append]
  by_cases h1 : k < 5
  · simp [h1]
  · by_cases h2 : k - 5 < 5
    · have : 5 + (k - 5) = k := by omega
      simp [h1, h2, this]
    · have e : 10 + (k - 5 - 5) = k := by omega
      have l : k - 5 - 5 < 6 := by omega
      simp [h1, h2, e, l]

theorem opField_toNat (w : Word) : (opField w).toNat = w.toNat % 32 := by
  simp only [opField, BitVec.extractLsb'_toNat, Nat.shiftRight_zero]

theorem bField_toNat (w : Word) : (bField w).toNat = w.toNat / 32 % 32 := by
  simp only [bField, BitVec.extractLsb'_toNat, Nat.shiftRight_eq_div_pow]

theorem aField_toNat (w : Word) : (aField w).toNat = w.toNat / 1024 := by
  have := w.isLt
  simp only [aField, BitVec.extractLsb'_toNat, Nat.shiftRight_eq_div_pow]
  omega

/-- The word of a basic instruction holds its number as opcode. -/
theorem opField_firstWord {i : Instr} {b a : Operand} (h : i.operands = .two b a) :
    opField (firstWord i) = i.number := by
  simp [firstWord, h]

/-- The word of a special instruction holds opcode 0 and its number as special opcode. -/
theorem fields_firstWord_special {i : Instr} {a : Operand} (h : i.operands = .one a) :
    opField (firstWord i) = 0 ∧ bField (firstWord i) = i.number := by
  simp [firstWord, h]

/-! ## Operand codes -/

theorem Reg.number_lt (r : Reg) : r.number < 8 := by cases r <;> decide

@[simp] theorem regOf_number (r : Reg) : regOf r.number = r := by cases r <;> rfl

theorem number_regOf {k : Nat} (h : k < 8) : (regOf k).number = k := by
  interval_cases k <;> rfl

/-- Decoding an operand's code with its inline word gives the operand. -/
theorem operandOf_code (o : Operand) (n : Word) : operandOf o.code (o.inline.headD n) = o := by
  cases o with
  | reg r => cases r <;> rfl
  | ind r => cases r <;> rfl
  | idx r m => cases r <;> rfl
  | short c =>
    have hc := c.isLt
    have e : (0x20 + c.toNat) % 2 ^ 6 = 0x20 + c.toNat := Nat.mod_eq_of_lt (by omega)
    have l : ∀ k, k ≤ 0x20 → ¬ 0x20 + c.toNat < k := fun k hk => by omega
    have q : ∀ k, k < 0x20 → ¬ 0x20 + c.toNat = k := fun k hk => by omega
    simp only [operandOf, Operand.code, BitVec.toNat_ofNat, e, l, q, Nat.reduceLT, Nat.reduceLeDiff, if_false]
    congr 1
    apply BitVec.eq_of_toNat_eq
    simp only [BitVec.extractLsb'_toNat, BitVec.toNat_ofNat, e, Nat.shiftRight_zero]
    omega
  | _ => rfl

/-- A fact about every operand code, from its 64 values. -/
theorem forall_code {p : BitVec 6 → Prop} (h : ∀ k < 64, p (BitVec.ofNat 6 k)) (c : BitVec 6) : p c := by
  simpa using h c.toNat c.isLt

/-- The code of a decoded operand is the code it was decoded from. -/
theorem code_operandOf (c : BitVec 6) (n : Word) : (operandOf c n).code = c := by
  refine forall_code (p := fun c => (operandOf c n).code = c) (fun k hk => ?_) c
  interval_cases k <;> rfl

/-- A decoded operand holds the word it was given exactly when its code takes one. -/
theorem inline_operandOf (c : BitVec 6) (n : Word) :
    (operandOf c n).inline = if needsWord c then [n] else [] := by
  refine forall_code (p := fun c => (operandOf c n).inline = if needsWord c then [n] else []) (fun k hk => ?_) c
  interval_cases k <;> rfl

theorem needsWord_code (o : Operand) : needsWord o.code = !o.inline.isEmpty := by
  conv_rhs => rw [← operandOf_code o 0, inline_operandOf]
  cases needsWord o.code <;> rfl

/-- A b operand's code fits the five-bit field. -/
theorem code_setWidth {o : Operand} (h : o.fitsB = true) : (o.code.setWidth 5).setWidth 6 = o.code := by
  cases o with
  | reg r => cases r <;> rfl
  | ind r => cases r <;> rfl
  | idx r m => cases r <;> rfl
  | short c => cases h
  | _ => rfl

theorem needsWord_iff (c : BitVec 6) :
    needsWord c = true ↔ (0x10 ≤ c.toNat ∧ c.toNat ≤ 0x17) ∨ c.toNat = 0x1A ∨ c.toNat = 0x1E ∨ c.toNat = 0x1F := by
  simp [needsWord, or_assoc]

/-- A five-bit code is no short literal. -/
theorem fitsB_operandOf (c : BitVec 5) (n : Word) : (operandOf (c.setWidth 6) n).fitsB = true := by
  have hc := c.isLt
  have e : (operandOf (c.setWidth 6) n).fitsB = true ∨ 0x20 ≤ (c.setWidth 6).toNat := by
    refine forall_code (p := fun c => (operandOf c n).fitsB = true ∨ 0x20 ≤ c.toNat) (fun k hk => ?_) _
    interval_cases k <;> first | exact .inl rfl | exact .inr (by decide)
  rcases e with e | e
  · exact e
  · simp only [BitVec.toNat_setWidth] at e
    omega

/-! ## Opcode numbers -/

/-- A basic opcode's number is not the special escape, and is the number of its instruction. -/
theorem number_of_basicOf {op : BitVec 5} {b a : Operand} {i : Instr} (h : basicOf op b a = some i) :
    i.number = op ∧ i.operands = .two b a := by
  have hop := op.isLt
  unfold basicOf at h
  split at h
  all_goals
    first
    | (cases h; refine ⟨?_, rfl⟩; apply BitVec.eq_of_toNat_eq; rw [‹op.toNat = _›]; rfl)
    | cases h

theorem number_of_specialOf {sop : BitVec 5} {a : Operand} {i : Instr} (h : specialOf sop a = some i) :
    i.number = sop ∧ i.operands = .one a := by
  unfold specialOf at h
  split at h
  all_goals
    first
    | (cases h; refine ⟨?_, rfl⟩; apply BitVec.eq_of_toNat_eq; rw [‹sop.toNat = _›]; rfl)
    | cases h

theorem basicOf_number {i : Instr} {b a : Operand} (h : i.operands = .two b a) :
    basicOf i.number b a = some i ∧ i.number ≠ 0 := by
  cases i <;> cases h <;> exact ⟨rfl, by simp [Instr.number]⟩

theorem specialOf_number {i : Instr} {a : Operand} (h : i.operands = .one a) : specialOf i.number a = some i := by
  cases i <;> cases h <;> rfl

/-! ## Lengths -/

theorem Operand.inline_length (o : Operand) : o.inline.length = if needsWord o.code then 1 else 0 := by
  rw [needsWord_code]
  cases o <;> rfl

/-- The encoding of a well-formed instruction has the length its first word says (30_encoding.md R105). -/
theorem encode_length {i : Instr} (h : i.wellFormed = true) : (encode i).length = wordLength (firstWord i) := by
  unfold Instr.wellFormed at h
  cases e : i.operands with
  | two b a =>
    have hb : b.fitsB = true := by simpa [e] using h
    have hn := (basicOf_number e).2
    simp only [encode, firstWord, inlineWords, e, wordLength, aField_packWord, bField_packWord, opField_packWord,
      code_setWidth hb, List.length_cons, List.length_append, Operand.inline_length, if_pos hn]
    omega
  | one a =>
    simp only [encode, firstWord, inlineWords, e, wordLength, aField_packWord, bField_packWord, opField_packWord,
      List.length_cons, Operand.inline_length]
    simp
    omega

end Sys2Proof
end

