-- ==== Sys2Proof/Laws/State.lean ====
section
/-! SUPPORT. One lemma for each field of State under each update, so that no proof unfolds a record update. -/

namespace Sys2Proof.Machine

/-! ## Registers -/

@[simp] theorem Regs.get_set (g : Regs) (r q : Reg) (v : Word) :
    (g.set r v).get q = if r = q then v else g.get q := by
  cases r <;> cases q <;> rfl

/-- Two register files that read alike are equal. -/
theorem Regs.ext_get {g h : Regs} (e : ∀ r, g.get r = h.get r) : g = h := by
  cases g; cases h
  simpa [Regs.get] using
    ⟨e .a, e .b, e .c, e .x, e .y, e .z, e .i, e .j⟩

theorem State.reg_eq (s : State) (r : Reg) : s.reg r = s.regs.get r := rfl

theorem State.readMem_eq (s : State) (a : Word) : s.readMem a = s.mem.read a := rfl

/-! ## setReg -/

@[simp] theorem State.setReg_regs (s : State) (r : Reg) (v : Word) : (s.setReg r v).regs = s.regs.set r v := rfl

@[simp] theorem State.setReg_pc (s : State) (r : Reg) (v : Word) : (s.setReg r v).pc = s.pc := rfl

@[simp] theorem State.setReg_sp (s : State) (r : Reg) (v : Word) : (s.setReg r v).sp = s.sp := rfl

@[simp] theorem State.setReg_ex (s : State) (r : Reg) (v : Word) : (s.setReg r v).ex = s.ex := rfl

@[simp] theorem State.setReg_ia (s : State) (r : Reg) (v : Word) : (s.setReg r v).ia = s.ia := rfl

@[simp] theorem State.setReg_iq (s : State) (r : Reg) (v : Word) : (s.setReg r v).iq = s.iq := rfl

@[simp] theorem State.setReg_ifq (s : State) (r : Reg) (v : Word) : (s.setReg r v).ifq = s.ifq := rfl

@[simp] theorem State.setReg_cyc (s : State) (r : Reg) (v : Word) : (s.setReg r v).cyc = s.cyc := rfl

@[simp] theorem State.setReg_fault (s : State) (r : Reg) (v : Word) : (s.setReg r v).fault = s.fault := rfl

@[simp] theorem State.setReg_mem (s : State) (r : Reg) (v : Word) : (s.setReg r v).mem = s.mem := rfl

@[simp] theorem State.setReg_devices (s : State) (r : Reg) (v : Word) : (s.setReg r v).devices = s.devices := rfl

@[simp] theorem State.setReg_time (s : State) (r : Reg) (v : Word) : (s.setReg r v).time = s.time := rfl

@[simp] theorem State.setReg_last (s : State) (r : Reg) (v : Word) : (s.setReg r v).last = s.last := rfl

@[simp] theorem State.setReg_bal (s : State) (r : Reg) (v : Word) : (s.setReg r v).bal = s.bal := rfl

@[simp] theorem State.setReg_reg (s : State) (r q : Reg) (v : Word) :
    (s.setReg r v).reg q = if r = q then v else s.reg q := Regs.get_set s.regs r q v

@[simp] theorem State.setReg_readMem (s : State) (r : Reg) (v : Word) (addr : Word) :
    (s.setReg r v).readMem addr = s.readMem addr := rfl

/-! ## setRegs -/

@[simp] theorem State.setRegs_regs (s : State) (g : Regs) : (s.setRegs g).regs = g := rfl

@[simp] theorem State.setRegs_pc (s : State) (g : Regs) : (s.setRegs g).pc = s.pc := rfl

@[simp] theorem State.setRegs_sp (s : State) (g : Regs) : (s.setRegs g).sp = s.sp := rfl

@[simp] theorem State.setRegs_ex (s : State) (g : Regs) : (s.setRegs g).ex = s.ex := rfl

@[simp] theorem State.setRegs_ia (s : State) (g : Regs) : (s.setRegs g).ia = s.ia := rfl

@[simp] theorem State.setRegs_iq (s : State) (g : Regs) : (s.setRegs g).iq = s.iq := rfl

@[simp] theorem State.setRegs_ifq (s : State) (g : Regs) : (s.setRegs g).ifq = s.ifq := rfl

@[simp] theorem State.setRegs_cyc (s : State) (g : Regs) : (s.setRegs g).cyc = s.cyc := rfl

@[simp] theorem State.setRegs_fault (s : State) (g : Regs) : (s.setRegs g).fault = s.fault := rfl

@[simp] theorem State.setRegs_mem (s : State) (g : Regs) : (s.setRegs g).mem = s.mem := rfl

@[simp] theorem State.setRegs_devices (s : State) (g : Regs) : (s.setRegs g).devices = s.devices := rfl

@[simp] theorem State.setRegs_time (s : State) (g : Regs) : (s.setRegs g).time = s.time := rfl

@[simp] theorem State.setRegs_last (s : State) (g : Regs) : (s.setRegs g).last = s.last := rfl

@[simp] theorem State.setRegs_bal (s : State) (g : Regs) : (s.setRegs g).bal = s.bal := rfl

@[simp] theorem State.setRegs_reg (s : State) (g : Regs) (q : Reg) : (s.setRegs g).reg q = g.get q := rfl

@[simp] theorem State.setRegs_readMem (s : State) (g : Regs) (addr : Word) :
    (s.setRegs g).readMem addr = s.readMem addr := rfl

/-! ## setPc -/

@[simp] theorem State.setPc_regs (s : State) (v : Word) : (s.setPc v).regs = s.regs := rfl

@[simp] theorem State.setPc_pc (s : State) (v : Word) : (s.setPc v).pc = v := rfl

@[simp] theorem State.setPc_sp (s : State) (v : Word) : (s.setPc v).sp = s.sp := rfl

@[simp] theorem State.setPc_ex (s : State) (v : Word) : (s.setPc v).ex = s.ex := rfl

@[simp] theorem State.setPc_ia (s : State) (v : Word) : (s.setPc v).ia = s.ia := rfl

@[simp] theorem State.setPc_iq (s : State) (v : Word) : (s.setPc v).iq = s.iq := rfl

@[simp] theorem State.setPc_ifq (s : State) (v : Word) : (s.setPc v).ifq = s.ifq := rfl

@[simp] theorem State.setPc_cyc (s : State) (v : Word) : (s.setPc v).cyc = s.cyc := rfl

@[simp] theorem State.setPc_fault (s : State) (v : Word) : (s.setPc v).fault = s.fault := rfl

@[simp] theorem State.setPc_mem (s : State) (v : Word) : (s.setPc v).mem = s.mem := rfl

@[simp] theorem State.setPc_devices (s : State) (v : Word) : (s.setPc v).devices = s.devices := rfl

@[simp] theorem State.setPc_time (s : State) (v : Word) : (s.setPc v).time = s.time := rfl

@[simp] theorem State.setPc_last (s : State) (v : Word) : (s.setPc v).last = s.last := rfl

@[simp] theorem State.setPc_bal (s : State) (v : Word) : (s.setPc v).bal = s.bal := rfl

@[simp] theorem State.setPc_reg (s : State) (v : Word) (q : Reg) : (s.setPc v).reg q = s.reg q := rfl

@[simp] theorem State.setPc_readMem (s : State) (v : Word) (addr : Word) :
    (s.setPc v).readMem addr = s.readMem addr := rfl

/-! ## setSp -/

@[simp] theorem State.setSp_regs (s : State) (v : Word) : (s.setSp v).regs = s.regs := rfl

@[simp] theorem State.setSp_pc (s : State) (v : Word) : (s.setSp v).pc = s.pc := rfl

@[simp] theorem State.setSp_sp (s : State) (v : Word) : (s.setSp v).sp = v := rfl

@[simp] theorem State.setSp_ex (s : State) (v : Word) : (s.setSp v).ex = s.ex := rfl

@[simp] theorem State.setSp_ia (s : State) (v : Word) : (s.setSp v).ia = s.ia := rfl

@[simp] theorem State.setSp_iq (s : State) (v : Word) : (s.setSp v).iq = s.iq := rfl

@[simp] theorem State.setSp_ifq (s : State) (v : Word) : (s.setSp v).ifq = s.ifq := rfl

@[simp] theorem State.setSp_cyc (s : State) (v : Word) : (s.setSp v).cyc = s.cyc := rfl

@[simp] theorem State.setSp_fault (s : State) (v : Word) : (s.setSp v).fault = s.fault := rfl

@[simp] theorem State.setSp_mem (s : State) (v : Word) : (s.setSp v).mem = s.mem := rfl

@[simp] theorem State.setSp_devices (s : State) (v : Word) : (s.setSp v).devices = s.devices := rfl

@[simp] theorem State.setSp_time (s : State) (v : Word) : (s.setSp v).time = s.time := rfl

@[simp] theorem State.setSp_last (s : State) (v : Word) : (s.setSp v).last = s.last := rfl

@[simp] theorem State.setSp_bal (s : State) (v : Word) : (s.setSp v).bal = s.bal := rfl

@[simp] theorem State.setSp_reg (s : State) (v : Word) (q : Reg) : (s.setSp v).reg q = s.reg q := rfl

@[simp] theorem State.setSp_readMem (s : State) (v : Word) (addr : Word) :
    (s.setSp v).readMem addr = s.readMem addr := rfl

/-! ## setEx -/

@[simp] theorem State.setEx_regs (s : State) (v : Word) : (s.setEx v).regs = s.regs := rfl

@[simp] theorem State.setEx_pc (s : State) (v : Word) : (s.setEx v).pc = s.pc := rfl

@[simp] theorem State.setEx_sp (s : State) (v : Word) : (s.setEx v).sp = s.sp := rfl

@[simp] theorem State.setEx_ex (s : State) (v : Word) : (s.setEx v).ex = v := rfl

@[simp] theorem State.setEx_ia (s : State) (v : Word) : (s.setEx v).ia = s.ia := rfl

@[simp] theorem State.setEx_iq (s : State) (v : Word) : (s.setEx v).iq = s.iq := rfl

@[simp] theorem State.setEx_ifq (s : State) (v : Word) : (s.setEx v).ifq = s.ifq := rfl

@[simp] theorem State.setEx_cyc (s : State) (v : Word) : (s.setEx v).cyc = s.cyc := rfl

@[simp] theorem State.setEx_fault (s : State) (v : Word) : (s.setEx v).fault = s.fault := rfl

@[simp] theorem State.setEx_mem (s : State) (v : Word) : (s.setEx v).mem = s.mem := rfl

@[simp] theorem State.setEx_devices (s : State) (v : Word) : (s.setEx v).devices = s.devices := rfl

@[simp] theorem State.setEx_time (s : State) (v : Word) : (s.setEx v).time = s.time := rfl

@[simp] theorem State.setEx_last (s : State) (v : Word) : (s.setEx v).last = s.last := rfl

@[simp] theorem State.setEx_bal (s : State) (v : Word) : (s.setEx v).bal = s.bal := rfl

@[simp] theorem State.setEx_reg (s : State) (v : Word) (q : Reg) : (s.setEx v).reg q = s.reg q := rfl

@[simp] theorem State.setEx_readMem (s : State) (v : Word) (addr : Word) :
    (s.setEx v).readMem addr = s.readMem addr := rfl

/-! ## setIa -/

@[simp] theorem State.setIa_regs (s : State) (v : Word) : (s.setIa v).regs = s.regs := rfl

@[simp] theorem State.setIa_pc (s : State) (v : Word) : (s.setIa v).pc = s.pc := rfl

@[simp] theorem State.setIa_sp (s : State) (v : Word) : (s.setIa v).sp = s.sp := rfl

@[simp] theorem State.setIa_ex (s : State) (v : Word) : (s.setIa v).ex = s.ex := rfl

@[simp] theorem State.setIa_ia (s : State) (v : Word) : (s.setIa v).ia = v := rfl

@[simp] theorem State.setIa_iq (s : State) (v : Word) : (s.setIa v).iq = s.iq := rfl

@[simp] theorem State.setIa_ifq (s : State) (v : Word) : (s.setIa v).ifq = s.ifq := rfl

@[simp] theorem State.setIa_cyc (s : State) (v : Word) : (s.setIa v).cyc = s.cyc := rfl

@[simp] theorem State.setIa_fault (s : State) (v : Word) : (s.setIa v).fault = s.fault := rfl

@[simp] theorem State.setIa_mem (s : State) (v : Word) : (s.setIa v).mem = s.mem := rfl

@[simp] theorem State.setIa_devices (s : State) (v : Word) : (s.setIa v).devices = s.devices := rfl

@[simp] theorem State.setIa_time (s : State) (v : Word) : (s.setIa v).time = s.time := rfl

@[simp] theorem State.setIa_last (s : State) (v : Word) : (s.setIa v).last = s.last := rfl

@[simp] theorem State.setIa_bal (s : State) (v : Word) : (s.setIa v).bal = s.bal := rfl

@[simp] theorem State.setIa_reg (s : State) (v : Word) (q : Reg) : (s.setIa v).reg q = s.reg q := rfl

@[simp] theorem State.setIa_readMem (s : State) (v : Word) (addr : Word) :
    (s.setIa v).readMem addr = s.readMem addr := rfl

/-! ## setIq -/

@[simp] theorem State.setIq_regs (s : State) (v : Bool) : (s.setIq v).regs = s.regs := rfl

@[simp] theorem State.setIq_pc (s : State) (v : Bool) : (s.setIq v).pc = s.pc := rfl

@[simp] theorem State.setIq_sp (s : State) (v : Bool) : (s.setIq v).sp = s.sp := rfl

@[simp] theorem State.setIq_ex (s : State) (v : Bool) : (s.setIq v).ex = s.ex := rfl

@[simp] theorem State.setIq_ia (s : State) (v : Bool) : (s.setIq v).ia = s.ia := rfl

@[simp] theorem State.setIq_iq (s : State) (v : Bool) : (s.setIq v).iq = v := rfl

@[simp] theorem State.setIq_ifq (s : State) (v : Bool) : (s.setIq v).ifq = s.ifq := rfl

@[simp] theorem State.setIq_cyc (s : State) (v : Bool) : (s.setIq v).cyc = s.cyc := rfl

@[simp] theorem State.setIq_fault (s : State) (v : Bool) : (s.setIq v).fault = s.fault := rfl

@[simp] theorem State.setIq_mem (s : State) (v : Bool) : (s.setIq v).mem = s.mem := rfl

@[simp] theorem State.setIq_devices (s : State) (v : Bool) : (s.setIq v).devices = s.devices := rfl

@[simp] theorem State.setIq_time (s : State) (v : Bool) : (s.setIq v).time = s.time := rfl

@[simp] theorem State.setIq_last (s : State) (v : Bool) : (s.setIq v).last = s.last := rfl

@[simp] theorem State.setIq_bal (s : State) (v : Bool) : (s.setIq v).bal = s.bal := rfl

@[simp] theorem State.setIq_reg (s : State) (v : Bool) (q : Reg) : (s.setIq v).reg q = s.reg q := rfl

@[simp] theorem State.setIq_readMem (s : State) (v : Bool) (addr : Word) :
    (s.setIq v).readMem addr = s.readMem addr := rfl

/-! ## setIfq -/

@[simp] theorem State.setIfq_regs (s : State) (ms : List Word) : (s.setIfq ms).regs = s.regs := rfl

@[simp] theorem State.setIfq_pc (s : State) (ms : List Word) : (s.setIfq ms).pc = s.pc := rfl

@[simp] theorem State.setIfq_sp (s : State) (ms : List Word) : (s.setIfq ms).sp = s.sp := rfl

@[simp] theorem State.setIfq_ex (s : State) (ms : List Word) : (s.setIfq ms).ex = s.ex := rfl

@[simp] theorem State.setIfq_ia (s : State) (ms : List Word) : (s.setIfq ms).ia = s.ia := rfl

@[simp] theorem State.setIfq_iq (s : State) (ms : List Word) : (s.setIfq ms).iq = s.iq := rfl

@[simp] theorem State.setIfq_ifq (s : State) (ms : List Word) : (s.setIfq ms).ifq = ms := rfl

@[simp] theorem State.setIfq_cyc (s : State) (ms : List Word) : (s.setIfq ms).cyc = s.cyc := rfl

@[simp] theorem State.setIfq_fault (s : State) (ms : List Word) : (s.setIfq ms).fault = s.fault := rfl

@[simp] theorem State.setIfq_mem (s : State) (ms : List Word) : (s.setIfq ms).mem = s.mem := rfl

@[simp] theorem State.setIfq_devices (s : State) (ms : List Word) : (s.setIfq ms).devices = s.devices := rfl

@[simp] theorem State.setIfq_time (s : State) (ms : List Word) : (s.setIfq ms).time = s.time := rfl

@[simp] theorem State.setIfq_last (s : State) (ms : List Word) : (s.setIfq ms).last = s.last := rfl

@[simp] theorem State.setIfq_bal (s : State) (ms : List Word) : (s.setIfq ms).bal = s.bal := rfl

@[simp] theorem State.setIfq_reg (s : State) (ms : List Word) (q : Reg) : (s.setIfq ms).reg q = s.reg q := rfl

@[simp] theorem State.setIfq_readMem (s : State) (ms : List Word) (addr : Word) :
    (s.setIfq ms).readMem addr = s.readMem addr := rfl

/-! ## charge -/

@[simp] theorem State.charge_regs (s : State) (n : Nat) : (s.charge n).regs = s.regs := rfl

@[simp] theorem State.charge_pc (s : State) (n : Nat) : (s.charge n).pc = s.pc := rfl

@[simp] theorem State.charge_sp (s : State) (n : Nat) : (s.charge n).sp = s.sp := rfl

@[simp] theorem State.charge_ex (s : State) (n : Nat) : (s.charge n).ex = s.ex := rfl

@[simp] theorem State.charge_ia (s : State) (n : Nat) : (s.charge n).ia = s.ia := rfl

@[simp] theorem State.charge_iq (s : State) (n : Nat) : (s.charge n).iq = s.iq := rfl

@[simp] theorem State.charge_ifq (s : State) (n : Nat) : (s.charge n).ifq = s.ifq := rfl

@[simp] theorem State.charge_cyc (s : State) (n : Nat) : (s.charge n).cyc = s.cyc + n := rfl

@[simp] theorem State.charge_fault (s : State) (n : Nat) : (s.charge n).fault = s.fault := rfl

@[simp] theorem State.charge_mem (s : State) (n : Nat) : (s.charge n).mem = s.mem := rfl

@[simp] theorem State.charge_devices (s : State) (n : Nat) : (s.charge n).devices = s.devices := rfl

@[simp] theorem State.charge_time (s : State) (n : Nat) : (s.charge n).time = s.time := rfl

@[simp] theorem State.charge_last (s : State) (n : Nat) : (s.charge n).last = s.last := rfl

@[simp] theorem State.charge_bal (s : State) (n : Nat) : (s.charge n).bal = s.bal := rfl

@[simp] theorem State.charge_reg (s : State) (n : Nat) (q : Reg) : (s.charge n).reg q = s.reg q := rfl

@[simp] theorem State.charge_readMem (s : State) (n : Nat) (addr : Word) :
    (s.charge n).readMem addr = s.readMem addr := rfl

/-! ## setFault -/

@[simp] theorem State.setFault_regs (s : State) (e : Option DecodeError) : (s.setFault e).regs = s.regs := rfl

@[simp] theorem State.setFault_pc (s : State) (e : Option DecodeError) : (s.setFault e).pc = s.pc := rfl

@[simp] theorem State.setFault_sp (s : State) (e : Option DecodeError) : (s.setFault e).sp = s.sp := rfl

@[simp] theorem State.setFault_ex (s : State) (e : Option DecodeError) : (s.setFault e).ex = s.ex := rfl

@[simp] theorem State.setFault_ia (s : State) (e : Option DecodeError) : (s.setFault e).ia = s.ia := rfl

@[simp] theorem State.setFault_iq (s : State) (e : Option DecodeError) : (s.setFault e).iq = s.iq := rfl

@[simp] theorem State.setFault_ifq (s : State) (e : Option DecodeError) : (s.setFault e).ifq = s.ifq := rfl

@[simp] theorem State.setFault_cyc (s : State) (e : Option DecodeError) : (s.setFault e).cyc = s.cyc := rfl

@[simp] theorem State.setFault_fault (s : State) (e : Option DecodeError) : (s.setFault e).fault = e := rfl

@[simp] theorem State.setFault_mem (s : State) (e : Option DecodeError) : (s.setFault e).mem = s.mem := rfl

@[simp] theorem State.setFault_devices (s : State) (e : Option DecodeError) : (s.setFault e).devices = s.devices := rfl

@[simp] theorem State.setFault_time (s : State) (e : Option DecodeError) : (s.setFault e).time = s.time := rfl

@[simp] theorem State.setFault_last (s : State) (e : Option DecodeError) : (s.setFault e).last = s.last := rfl

@[simp] theorem State.setFault_bal (s : State) (e : Option DecodeError) : (s.setFault e).bal = s.bal := rfl

@[simp] theorem State.setFault_reg (s : State) (e : Option DecodeError) (q : Reg) : (s.setFault e).reg q = s.reg q := rfl

@[simp] theorem State.setFault_readMem (s : State) (e : Option DecodeError) (addr : Word) :
    (s.setFault e).readMem addr = s.readMem addr := rfl

/-! ## setMem -/

@[simp] theorem State.setMem_regs (s : State) (m : Memory) : (s.setMem m).regs = s.regs := rfl

@[simp] theorem State.setMem_pc (s : State) (m : Memory) : (s.setMem m).pc = s.pc := rfl

@[simp] theorem State.setMem_sp (s : State) (m : Memory) : (s.setMem m).sp = s.sp := rfl

@[simp] theorem State.setMem_ex (s : State) (m : Memory) : (s.setMem m).ex = s.ex := rfl

@[simp] theorem State.setMem_ia (s : State) (m : Memory) : (s.setMem m).ia = s.ia := rfl

@[simp] theorem State.setMem_iq (s : State) (m : Memory) : (s.setMem m).iq = s.iq := rfl

@[simp] theorem State.setMem_ifq (s : State) (m : Memory) : (s.setMem m).ifq = s.ifq := rfl

@[simp] theorem State.setMem_cyc (s : State) (m : Memory) : (s.setMem m).cyc = s.cyc := rfl

@[simp] theorem State.setMem_fault (s : State) (m : Memory) : (s.setMem m).fault = s.fault := rfl

@[simp] theorem State.setMem_mem (s : State) (m : Memory) : (s.setMem m).mem = m := rfl

@[simp] theorem State.setMem_devices (s : State) (m : Memory) : (s.setMem m).devices = s.devices := rfl

@[simp] theorem State.setMem_time (s : State) (m : Memory) : (s.setMem m).time = s.time := rfl

@[simp] theorem State.setMem_last (s : State) (m : Memory) : (s.setMem m).last = s.last := rfl

@[simp] theorem State.setMem_bal (s : State) (m : Memory) : (s.setMem m).bal = s.bal := rfl

@[simp] theorem State.setMem_reg (s : State) (m : Memory) (q : Reg) : (s.setMem m).reg q = s.reg q := rfl

@[simp] theorem State.setMem_readMem (s : State) (m : Memory) (addr : Word) :
    (s.setMem m).readMem addr = m.read addr := rfl

/-! ## setDevices -/

@[simp] theorem State.setDevices_regs (s : State) (ds : List Device) : (s.setDevices ds).regs = s.regs := rfl

@[simp] theorem State.setDevices_pc (s : State) (ds : List Device) : (s.setDevices ds).pc = s.pc := rfl

@[simp] theorem State.setDevices_sp (s : State) (ds : List Device) : (s.setDevices ds).sp = s.sp := rfl

@[simp] theorem State.setDevices_ex (s : State) (ds : List Device) : (s.setDevices ds).ex = s.ex := rfl

@[simp] theorem State.setDevices_ia (s : State) (ds : List Device) : (s.setDevices ds).ia = s.ia := rfl

@[simp] theorem State.setDevices_iq (s : State) (ds : List Device) : (s.setDevices ds).iq = s.iq := rfl

@[simp] theorem State.setDevices_ifq (s : State) (ds : List Device) : (s.setDevices ds).ifq = s.ifq := rfl

@[simp] theorem State.setDevices_cyc (s : State) (ds : List Device) : (s.setDevices ds).cyc = s.cyc := rfl

@[simp] theorem State.setDevices_fault (s : State) (ds : List Device) : (s.setDevices ds).fault = s.fault := rfl

@[simp] theorem State.setDevices_mem (s : State) (ds : List Device) : (s.setDevices ds).mem = s.mem := rfl

@[simp] theorem State.setDevices_devices (s : State) (ds : List Device) : (s.setDevices ds).devices = ds := rfl

@[simp] theorem State.setDevices_time (s : State) (ds : List Device) : (s.setDevices ds).time = s.time := rfl

@[simp] theorem State.setDevices_last (s : State) (ds : List Device) : (s.setDevices ds).last = s.last := rfl

@[simp] theorem State.setDevices_bal (s : State) (ds : List Device) : (s.setDevices ds).bal = s.bal := rfl

@[simp] theorem State.setDevices_reg (s : State) (ds : List Device) (q : Reg) : (s.setDevices ds).reg q = s.reg q := rfl

@[simp] theorem State.setDevices_readMem (s : State) (ds : List Device) (addr : Word) :
    (s.setDevices ds).readMem addr = s.readMem addr := rfl

/-! ## Updates made of these -/

@[simp] theorem State.advancePc_eq (s : State) : s.advancePc = s.setPc (s.pc + 1) := rfl

@[simp] theorem State.writeMem_eq (s : State) (a v : Word) : s.writeMem a v = s.setMem (s.mem.write a v) := rfl

@[simp] theorem State.enqueue_eq (s : State) (m : Word) : s.enqueue m = s.setIfq (s.ifq ++ [m]) := rfl

@[simp] theorem State.raiseDecodeError_eq (s : State) (code : BitVec 5) (addr : Word) :
    s.raiseDecodeError code addr = s.setFault (some { code := code, pc := addr }) := rfl

end Sys2Proof.Machine
end

