-- ==== Sys2Proof/Laws/Memory.lean ====
section
/-! SUPPORT. The laws of memory: a read after a write, the canonical form, and what a load leaves. The read laws hold of
every list of cells; only the canonical form needs `Memory.wf`. -/

namespace Sys2Proof.Machine

/-! ## Reads -/

theorem Memory.readAt_of_forall_ne {m : Memory} {a : Nat} (h : ∀ c ∈ m, c.1 ≠ a) : m.readAt a = 0 := by
  induction m with
  | nil => rfl
  | cons c m ih =>
    have hc : c.1 ≠ a := h c (by simp)
    obtain ⟨k, v⟩ := c
    simp only [Memory.readAt, if_neg hc]
    exact ih fun d hd => h d (by simp [hd])

theorem Memory.readAt_filter {m : Memory} {p : Nat → Bool} {b : Nat} :
    Memory.readAt (m.filter fun c => p c.1) b = if p b then m.readAt b else 0 := by
  induction m with
  | nil => simp [Memory.readAt]
  | cons c m ih =>
    obtain ⟨k, v⟩ := c
    by_cases hk : k = b
    · subst hk
      by_cases hp : p k <;> simp [hp, Memory.readAt, ih]
    · by_cases hp : p k <;> simp [hp, Memory.readAt, ih, hk]

theorem Memory.readAt_insertCell {m : Memory} {a : Nat} {v : Word} {b : Nat} (h : ∀ c ∈ m, c.1 ≠ a) :
    (Memory.insertCell a v m).readAt b = if b = a then v else m.readAt b := by
  induction m with
  | nil => by_cases hb : a = b <;> simp [Memory.insertCell, Memory.readAt, hb, eq_comm]
  | cons c m ih =>
    obtain ⟨k, u⟩ := c
    have hk : k ≠ a := h (k, u) (by simp)
    have ih := ih fun d hd => h d (by simp [hd])
    by_cases hlt : a < k
    · simp only [Memory.insertCell, if_pos hlt, Memory.readAt]
      by_cases hb : a = b
      · simp [hb]
      · simp [hb, Ne.symm hb]
    · simp only [Memory.insertCell, if_neg hlt, Memory.readAt, ih]
      by_cases hb : k = b
      · subst hb; simp [hk]
      · simp [hb]

theorem Memory.readAt_writeAt (m : Memory) (a : Nat) (v : Word) (b : Nat) :
    (m.writeAt a v).readAt b = if b = a then v else m.readAt b := by
  have hrest : ∀ c ∈ m.filter (fun cell => cell.1 ≠ a), c.1 ≠ a := by
    intro c hc; simpa using (List.mem_filter.mp hc).2
  have hread := Memory.readAt_filter (m := m) (p := fun k => k ≠ a) (b := b)
  unfold Memory.writeAt
  by_cases hv : v = 0
  · subst hv
    simp only [if_true]
    by_cases hb : b = a
    · subst hb; rw [if_pos rfl]; exact Memory.readAt_of_forall_ne hrest
    · simpa [hb] using hread
  · simp only [if_neg hv]
    rw [Memory.readAt_insertCell hrest]
    by_cases hb : b = a
    · simp [hb]
    · simpa [hb] using hread

/-- A read after a write gives the written word at its address and the old word everywhere else (20_memory.md R80). -/
@[simp] theorem Memory.read_write (m : Memory) (a v b : Word) :
    (m.write a v).read b = if b = a then v else m.read b := by
  simp [Memory.read, Memory.write, Memory.readAt_writeAt, BitVec.toNat_inj]

/-! ## The canonical form -/

theorem Memory.wf_nil : Memory.wf [] := by simp [Memory.wf]

theorem Memory.wf_filter {m : Memory} (h : m.wf) (p : Nat × Word → Bool) : Memory.wf (m.filter p) :=
  ⟨h.1.filter p, fun c hc => h.2 c (List.mem_filter.mp hc).1⟩

theorem Memory.mem_insertCell {m : Memory} {a : Nat} {v : Word} {c : Nat × Word} :
    c ∈ Memory.insertCell a v m ↔ c = (a, v) ∨ c ∈ m := by
  induction m with
  | nil => simp [Memory.insertCell]
  | cons d m ih =>
    obtain ⟨k, u⟩ := d
    by_cases hlt : a < k
    · simp [Memory.insertCell, hlt]
    · simp only [Memory.insertCell, if_neg hlt, List.mem_cons, ih]
      tauto

theorem Memory.wf_insertCell {m : Memory} {a : Nat} {v : Word} (h : m.wf) (hv : v ≠ 0) (ha : a < 65536)
    (hne : ∀ c ∈ m, c.1 ≠ a) : Memory.wf (Memory.insertCell a v m) := by
  refine ⟨?_, fun c hc => ?_⟩
  · obtain ⟨hs, -⟩ := h
    induction m with
    | nil => simp [Memory.insertCell]
    | cons d m ih =>
      obtain ⟨k, u⟩ := d
      obtain ⟨hd, hm⟩ := List.pairwise_cons.mp hs
      have hk : k ≠ a := hne (k, u) (by simp)
      by_cases hlt : a < k
      · simp only [Memory.insertCell, if_pos hlt]
        refine List.pairwise_cons.mpr ⟨fun c hc => ?_, hs⟩
        rcases List.mem_cons.mp hc with rfl | hc
        · exact hlt
        · exact hlt.trans (hd c hc)
      · simp only [Memory.insertCell, if_neg hlt]
        refine List.pairwise_cons.mpr ⟨fun c hc => ?_, ih (fun c hc => hne c (by simp [hc])) hm⟩
        rcases Memory.mem_insertCell.mp hc with rfl | hc
        · show k < a; omega
        · exact hd c hc
  · rcases Memory.mem_insertCell.mp hc with rfl | hc
    · exact ⟨hv, ha⟩
    · exact h.2 c hc

theorem Memory.wf_writeAt {m : Memory} (h : m.wf) {a : Nat} (ha : a < 65536) (v : Word) : (m.writeAt a v).wf := by
  have hrest : ∀ c ∈ m.filter (fun cell => cell.1 ≠ a), c.1 ≠ a := by
    intro c hc; simpa using (List.mem_filter.mp hc).2
  unfold Memory.writeAt
  by_cases hv : v = 0
  · simpa [hv] using Memory.wf_filter h _
  · simp only [if_neg hv]
    exact Memory.wf_insertCell (Memory.wf_filter h _) hv ha hrest

/-- A store keeps the canonical form. -/
theorem Memory.wf_write {m : Memory} (h : m.wf) (a v : Word) : (m.write a v).wf :=
  Memory.wf_writeAt h a.isLt v

/-! ## Runs of words -/

theorem Memory.mem_cellsOf {ws : List Word} {a : Nat} {c : Nat × Word} (h : c ∈ Memory.cellsOf a ws) :
    a ≤ c.1 ∧ c.1 < a + ws.length ∧ c.2 ≠ 0 := by
  induction ws generalizing a with
  | nil => simp [Memory.cellsOf] at h
  | cons v vs ih =>
    have next : c ∈ Memory.cellsOf (a + 1) vs → a ≤ c.1 ∧ c.1 < a + (vs.length + 1) ∧ c.2 ≠ 0 := by
      intro hc
      have := ih hc
      exact ⟨by omega, by omega, this.2.2⟩
    by_cases hv : v = 0
    · simp only [Memory.cellsOf, if_pos hv] at h
      simpa using next h
    · simp only [Memory.cellsOf, if_neg hv, List.mem_cons] at h
      rcases h with rfl | h
      · exact ⟨le_refl _, by simp, hv⟩
      · simpa using next h

theorem Memory.cellsOf_sorted (ws : List Word) (a : Nat) :
    (Memory.cellsOf a ws).Pairwise fun p q => p.1 < q.1 := by
  induction ws generalizing a with
  | nil => simp [Memory.cellsOf]
  | cons v vs ih =>
    by_cases hv : v = 0
    · simpa [Memory.cellsOf, hv] using ih (a + 1)
    · simp only [Memory.cellsOf, if_neg hv]
      refine List.pairwise_cons.mpr ⟨fun c hc => ?_, ih (a + 1)⟩
      have := (Memory.mem_cellsOf hc).1
      show a < c.1
      omega

theorem Memory.readAt_cellsOf (ws : List Word) (a b : Nat) :
    (Memory.cellsOf a ws).readAt b = if a ≤ b then ws.getD (b - a) 0 else 0 := by
  induction ws generalizing a with
  | nil => simp [Memory.cellsOf, Memory.readAt]
  | cons v vs ih =>
    have shift : a + 1 ≤ b → (v :: vs).getD (b - a) 0 = vs.getD (b - (a + 1)) 0 := by
      intro hle
      obtain ⟨k, rfl⟩ := Nat.exists_eq_add_of_le hle
      have h1 : a + 1 + k - a = k + 1 := by omega
      have h2 : a + 1 + k - (a + 1) = k := by omega
      simp [h1, h2]
    by_cases hv : v = 0
    · simp only [Memory.cellsOf, if_pos hv, ih]
      rcases Nat.lt_trichotomy b a with h | h | h
      · simp [Nat.not_le.mpr h, Nat.not_le.mpr (Nat.lt_succ_of_lt h)]
      · subst h; simp [hv]
      · rw [if_pos (by omega), if_pos (by omega), shift (by omega)]
    · simp only [Memory.cellsOf, if_neg hv, Memory.readAt, ih]
      rcases Nat.lt_trichotomy b a with h | h | h
      · rw [if_neg (by omega), if_neg (by omega), if_neg (by omega)]
      · subst h; simp
      · rw [if_neg (by omega), if_pos (by omega), if_pos (by omega), shift (by omega)]

theorem Memory.readAt_append (m n : Memory) (b : Nat) :
    (m ++ n : Memory).readAt b = if ∃ c ∈ m, c.1 = b then m.readAt b else n.readAt b := by
  induction m with
  | nil => simp
  | cons c m ih =>
    obtain ⟨k, v⟩ := c
    by_cases hk : k = b
    · simp [Memory.readAt, hk]
    · have e : (∃ c ∈ ((k, v) :: m : Memory), c.1 = b) ↔ ∃ c ∈ m, c.1 = b := by simp [hk]
      simp only [e, List.cons_append, Memory.readAt, if_neg hk, ih]

/-- What a program load or a restore leaves: the words, and the old contents beyond them. -/
theorem Memory.read_loadWords (ws : List Word) (m : Memory) (a : Word) :
    (Memory.loadWords ws m).read a = if a.toNat < ws.length then ws.getD a.toNat 0 else m.read a := by
  have ha := a.isLt
  have htake : (ws.take 65536).getD a.toNat 0 = ws.getD a.toNat 0 := by
    simp [List.getD_eq_getElem?_getD, ha]
  have hcells := Memory.readAt_cellsOf (ws.take 65536) 0 a.toNat
  simp only [Nat.zero_le, if_true, Nat.sub_zero, htake] at hcells
  have hrest := Memory.readAt_filter (m := m) (p := fun k => ws.length ≤ k) (b := a.toNat)
  unfold Memory.loadWords Memory.read
  rw [Memory.readAt_append]
  by_cases hex : ∃ c ∈ Memory.cellsOf 0 (ws.take 65536), c.1 = a.toNat
  · rw [if_pos hex]
    obtain ⟨c, hc, he⟩ := hex
    have := (Memory.mem_cellsOf hc).2.1
    simp only [List.length_take] at this
    rw [if_pos (by omega), hcells]
  · rw [if_neg hex, hrest]
    by_cases hlt : a.toNat < ws.length
    · rw [if_pos hlt, ← hcells, if_neg (by simpa using hlt)]
      symm
      exact Memory.readAt_of_forall_ne fun c hc he => hex ⟨c, hc, he⟩
    · rw [if_neg hlt, if_pos (by simpa using hlt)]

/-- A load keeps the canonical form. -/
theorem Memory.wf_loadWords {m : Memory} (h : m.wf) (ws : List Word) : (Memory.loadWords ws m).wf := by
  have hm := Memory.wf_filter h fun cell => ws.length ≤ cell.1
  refine ⟨?_, fun c hc => ?_⟩
  · refine List.pairwise_append.mpr ⟨Memory.cellsOf_sorted _ _, hm.1, fun p hp q hq => ?_⟩
    have h1 := (Memory.mem_cellsOf hp).2.1
    have h2 := (List.mem_filter.mp hq).2
    simp only [List.length_take, decide_eq_true_eq] at h1 h2
    omega
  · rcases List.mem_append.mp hc with hc | hc
    · have h1 := Memory.mem_cellsOf hc
      simp only [List.length_take] at h1
      exact ⟨h1.2.2, by omega⟩
    · exact hm.2 c hc

/-- Memories in canonical form that read alike are equal. -/
theorem Memory.ext_of_wf {m n : Memory} (hm : m.wf) (hn : n.wf) (h : ∀ a, m.readAt a = n.readAt a) : m = n := by
  have head_absent : ∀ {k : Nat} {v : Word} {l : Memory}, Memory.wf ((k, v) :: l) →
      ∀ a ≤ k, a ≠ k → Memory.readAt ((k, v) :: l) a = 0 := by
    intro k v l hl a ha hne
    refine Memory.readAt_of_forall_ne fun c hc => ?_
    rcases List.mem_cons.mp hc with rfl | hc
    · exact fun e => hne e.symm
    · have := (List.pairwise_cons.mp hl.1).1 c hc
      simp only at this
      omega
  have tail_wf : ∀ {c : Nat × Word} {l : Memory}, Memory.wf (c :: l) → Memory.wf l := fun hl =>
    ⟨(List.pairwise_cons.mp hl.1).2, fun d hd => hl.2 d (by simp [hd])⟩
  induction m generalizing n with
  | nil =>
    cases n with
    | nil => rfl
    | cons c n =>
      obtain ⟨k, v⟩ := c
      have := h k
      simp [Memory.readAt] at this
      exact absurd this.symm (hn.2 (k, v) (by simp)).1
  | cons c m ih =>
    obtain ⟨k, v⟩ := c
    have hv := (hm.2 (k, v) (by simp)).1
    cases n with
    | nil =>
      have := h k
      simp [Memory.readAt] at this
      exact absurd this hv
    | cons d n =>
      obtain ⟨l, u⟩ := d
      have hu := (hn.2 (l, u) (by simp)).1
      have hkl : k = l := by
        rcases Nat.lt_trichotomy k l with hlt | he | hlt
        · have := h k
          rw [head_absent hn k (by omega) (by omega)] at this
          simp [Memory.readAt] at this
          exact absurd this hv
        · exact he
        · have := h l
          rw [head_absent hm l (by omega) (by omega)] at this
          simp [Memory.readAt] at this
          exact absurd this.symm hu
      subst hkl
      have hvu : v = u := by simpa [Memory.readAt] using h k
      subst hvu
      congr 1
      refine ih (tail_wf hm) (tail_wf hn) fun a => ?_
      by_cases hak : a = k
      · subst hak
        have absent : ∀ {l : Memory}, Memory.wf ((a, v) :: l) → l.readAt a = 0 := fun hl =>
          Memory.readAt_of_forall_ne fun c hc => by
            have := (List.pairwise_cons.mp hl.1).1 c hc
            simp only at this
            omega
        rw [absent hm, absent hn]
      · simpa [Memory.readAt, Ne.symm hak] using h a

end Sys2Proof.Machine
end

