-- ==== Sys2Proof/Laws/Operands.lean ====
section
/-! SUPPORT. What reading, writing and resolving a location can do. -/

namespace Sys2Proof.Machine

/-! ## Writing a location touches that location alone -/

@[simp] theorem State.writeLoc_reg (s : State) (l : Loc) (v : Word) (r : Reg) :
    (s.writeLoc l v).reg r = if l = .reg r then v else s.reg r := by
  cases l <;> simp [State.writeLoc]

@[simp] theorem State.writeLoc_sp (s : State) (l : Loc) (v : Word) :
    (s.writeLoc l v).sp = if l = .sp then v else s.sp := by
  cases l <;> simp [State.writeLoc]

@[simp] theorem State.writeLoc_pc (s : State) (l : Loc) (v : Word) :
    (s.writeLoc l v).pc = if l = .pc then v else s.pc := by
  cases l <;> simp [State.writeLoc]

@[simp] theorem State.writeLoc_ex (s : State) (l : Loc) (v : Word) :
    (s.writeLoc l v).ex = if l = .ex then v else s.ex := by
  cases l <;> simp [State.writeLoc]

@[simp] theorem State.writeLoc_readMem (s : State) (l : Loc) (v addr : Word) :
    (s.writeLoc l v).readMem addr = if l = .mem addr then v else s.readMem addr := by
  cases l <;> simp [State.writeLoc, State.readMem_eq, eq_comm]

@[simp] theorem State.writeLoc_ia (s : State) (l : Loc) (v : Word) : (s.writeLoc l v).ia = s.ia := by
  cases l <;> rfl

@[simp] theorem State.writeLoc_iq (s : State) (l : Loc) (v : Word) : (s.writeLoc l v).iq = s.iq := by
  cases l <;> rfl

@[simp] theorem State.writeLoc_ifq (s : State) (l : Loc) (v : Word) : (s.writeLoc l v).ifq = s.ifq := by
  cases l <;> rfl

@[simp] theorem State.writeLoc_cyc (s : State) (l : Loc) (v : Word) : (s.writeLoc l v).cyc = s.cyc := by
  cases l <;> rfl

@[simp] theorem State.writeLoc_fault (s : State) (l : Loc) (v : Word) : (s.writeLoc l v).fault = s.fault := by
  cases l <;> rfl

@[simp] theorem State.writeLoc_devices (s : State) (l : Loc) (v : Word) : (s.writeLoc l v).devices = s.devices := by
  cases l <;> rfl

@[simp] theorem State.writeLoc_time (s : State) (l : Loc) (v : Word) : (s.writeLoc l v).time = s.time := by
  cases l <;> rfl

@[simp] theorem State.writeLoc_last (s : State) (l : Loc) (v : Word) : (s.writeLoc l v).last = s.last := by
  cases l <;> rfl

@[simp] theorem State.writeLoc_bal (s : State) (l : Loc) (v : Word) : (s.writeLoc l v).bal = s.bal := by
  cases l <;> rfl

theorem State.writeLoc_wf {s : State} (h : s.mem.wf) (l : Loc) (v : Word) : (s.writeLoc l v).mem.wf := by
  cases l <;> simp only [State.writeLoc] <;> first | exact h | exact Memory.wf_write h _ _

/-- A value written to a location that is not a literal is what the location reads. -/
theorem State.readLoc_writeLoc (s : State) {l : Loc} (v : Word) (h : ∀ u, l ≠ .lit u) :
    (s.writeLoc l v).readLoc l = v := by
  cases l <;> simp [State.readLoc, State.writeLoc, State.readMem_eq] at h ⊢

/-! ## Writing a result and EX -/

/-- EX after `writeResultAndEx`: the value for EX, or one of the two where EX is the destination
(41_executor.md R188). -/
theorem State.writeResultAndEx_ex (s : State) (l : Loc) (v e : Word) :
    if l = .ex then (s.writeResultAndEx l v e).ex = v ∨ (s.writeResultAndEx l v e).ex = e
    else (s.writeResultAndEx l v e).ex = e := by
  unfold State.writeResultAndEx
  by_cases h : l = .ex
  · cases Config.exDestOrder <;> simp [h]
  · simp [h]

/-- The two writes in the order EX_DEST_ORDER names (41_executor.md R188). -/
theorem State.writeResultAndEx_order (s : State) (l : Loc) (v e : Word) :
    s.writeResultAndEx l v e =
      match Config.exDestOrder with
      | .resultLast => (s.setEx e).writeLoc l v
      | .exLast => (s.writeLoc l v).setEx e := by
  unfold State.writeResultAndEx
  cases Config.exDestOrder <;> cases l <;> rfl

@[simp] theorem State.writeResultAndEx_sp (s : State) (l : Loc) (v e : Word) :
    (s.writeResultAndEx l v e).sp = if l = .sp then v else s.sp := by
  unfold State.writeResultAndEx; by_cases h : l = .ex <;> simp [h]

@[simp] theorem State.writeResultAndEx_pc (s : State) (l : Loc) (v e : Word) :
    (s.writeResultAndEx l v e).pc = if l = .pc then v else s.pc := by
  unfold State.writeResultAndEx; by_cases h : l = .ex <;> simp [h]

@[simp] theorem State.writeResultAndEx_reg (s : State) (l : Loc) (v e : Word) (r : Reg) :
    (s.writeResultAndEx l v e).reg r = if l = .reg r then v else s.reg r := by
  unfold State.writeResultAndEx; by_cases h : l = .ex <;> simp [h]

@[simp] theorem State.writeResultAndEx_readMem (s : State) (l : Loc) (v e addr : Word) :
    (s.writeResultAndEx l v e).readMem addr = if l = .mem addr then v else s.readMem addr := by
  unfold State.writeResultAndEx; by_cases h : l = .ex <;> simp [h]

@[simp] theorem State.writeResultAndEx_ia (s : State) (l : Loc) (v e : Word) :
    (s.writeResultAndEx l v e).ia = s.ia := by
  unfold State.writeResultAndEx; by_cases h : l = .ex <;> simp [h]

@[simp] theorem State.writeResultAndEx_iq (s : State) (l : Loc) (v e : Word) :
    (s.writeResultAndEx l v e).iq = s.iq := by
  unfold State.writeResultAndEx; by_cases h : l = .ex <;> simp [h]

@[simp] theorem State.writeResultAndEx_ifq (s : State) (l : Loc) (v e : Word) :
    (s.writeResultAndEx l v e).ifq = s.ifq := by
  unfold State.writeResultAndEx; by_cases h : l = .ex <;> simp [h]

@[simp] theorem State.writeResultAndEx_cyc (s : State) (l : Loc) (v e : Word) :
    (s.writeResultAndEx l v e).cyc = s.cyc := by
  unfold State.writeResultAndEx; by_cases h : l = .ex <;> simp [h]

@[simp] theorem State.writeResultAndEx_fault (s : State) (l : Loc) (v e : Word) :
    (s.writeResultAndEx l v e).fault = s.fault := by
  unfold State.writeResultAndEx; by_cases h : l = .ex <;> simp [h]

@[simp] theorem State.writeResultAndEx_devices (s : State) (l : Loc) (v e : Word) :
    (s.writeResultAndEx l v e).devices = s.devices := by
  unfold State.writeResultAndEx; by_cases h : l = .ex <;> simp [h]

@[simp] theorem State.writeResultAndEx_time (s : State) (l : Loc) (v e : Word) :
    (s.writeResultAndEx l v e).time = s.time := by
  unfold State.writeResultAndEx; by_cases h : l = .ex <;> simp [h]

@[simp] theorem State.writeResultAndEx_last (s : State) (l : Loc) (v e : Word) :
    (s.writeResultAndEx l v e).last = s.last := by
  unfold State.writeResultAndEx; by_cases h : l = .ex <;> simp [h]

@[simp] theorem State.writeResultAndEx_bal (s : State) (l : Loc) (v e : Word) :
    (s.writeResultAndEx l v e).bal = s.bal := by
  unfold State.writeResultAndEx; by_cases h : l = .ex <;> simp [h]

theorem State.writeResultAndEx_wf {s : State} (h : s.mem.wf) (l : Loc) (v e : Word) :
    (s.writeResultAndEx l v e).mem.wf := by
  unfold State.writeResultAndEx
  by_cases hl : l = .ex
  · simpa [hl] using h
  · simpa [hl] using State.writeLoc_wf h l v

/-! ## Resolving an operand moves PC and SP alone -/

/-- SP after the resolution of an operand: POP and PUSH move it (40_addressing.md R144). -/
def spAfter (pos : Position) (o : Operand) (sp : Word) : Word :=
  match o, pos with
  | .stack, .a => sp + 1
  | .stack, .b => sp - 1
  | _, _ => sp

@[simp] theorem State.resolve_sp (s : State) (pos : Position) (o : Operand) :
    (s.resolve pos o).2.sp = spAfter pos o s.sp := by
  cases o <;> cases pos <;> rfl

@[simp] theorem State.resolve_pc (s : State) (pos : Position) (o : Operand) :
    (s.resolve pos o).2.pc = s.pc + BitVec.ofNat 16 (surcharge o) := by
  cases o <;> cases pos <;> simp [State.resolve, surcharge]

@[simp] theorem State.resolve_reg (s : State) (pos : Position) (o : Operand) (r : Reg) :
    (s.resolve pos o).2.reg r = s.reg r := by
  cases o <;> cases pos <;> rfl

@[simp] theorem State.resolve_readMem (s : State) (pos : Position) (o : Operand) (addr : Word) :
    (s.resolve pos o).2.readMem addr = s.readMem addr := by
  cases o <;> cases pos <;> rfl

@[simp] theorem State.resolve_regs (s : State) (pos : Position) (o : Operand) : (s.resolve pos o).2.regs = s.regs := by
  cases o <;> cases pos <;> rfl

@[simp] theorem State.resolve_ex (s : State) (pos : Position) (o : Operand) : (s.resolve pos o).2.ex = s.ex := by
  cases o <;> cases pos <;> rfl

@[simp] theorem State.resolve_mem (s : State) (pos : Position) (o : Operand) : (s.resolve pos o).2.mem = s.mem := by
  cases o <;> cases pos <;> rfl

@[simp] theorem State.resolve_ia (s : State) (pos : Position) (o : Operand) : (s.resolve pos o).2.ia = s.ia := by
  cases o <;> cases pos <;> rfl

@[simp] theorem State.resolve_iq (s : State) (pos : Position) (o : Operand) : (s.resolve pos o).2.iq = s.iq := by
  cases o <;> cases pos <;> rfl

@[simp] theorem State.resolve_ifq (s : State) (pos : Position) (o : Operand) : (s.resolve pos o).2.ifq = s.ifq := by
  cases o <;> cases pos <;> rfl

@[simp] theorem State.resolve_cyc (s : State) (pos : Position) (o : Operand) : (s.resolve pos o).2.cyc = s.cyc := by
  cases o <;> cases pos <;> rfl

@[simp] theorem State.resolve_fault (s : State) (pos : Position) (o : Operand) : (s.resolve pos o).2.fault = s.fault := by
  cases o <;> cases pos <;> rfl

@[simp] theorem State.resolve_devices (s : State) (pos : Position) (o : Operand) : (s.resolve pos o).2.devices = s.devices := by
  cases o <;> cases pos <;> rfl

@[simp] theorem State.resolve_time (s : State) (pos : Position) (o : Operand) : (s.resolve pos o).2.time = s.time := by
  cases o <;> cases pos <;> rfl

@[simp] theorem State.resolve_last (s : State) (pos : Position) (o : Operand) : (s.resolve pos o).2.last = s.last := by
  cases o <;> cases pos <;> rfl

@[simp] theorem State.resolve_bal (s : State) (pos : Position) (o : Operand) : (s.resolve pos o).2.bal = s.bal := by
  cases o <;> cases pos <;> rfl

/-! ## Resolving both operands -/

@[simp] theorem State.resolveBoth_sp (s : State) (b a : Operand) :
    (s.resolveBoth b a).st.sp = spAfter .b b (spAfter .a a s.sp) := by
  simp [State.resolveBoth]

@[simp] theorem State.resolveBoth_pc (s : State) (b a : Operand) :
    (s.resolveBoth b a).st.pc = s.pc + BitVec.ofNat 16 (surcharge a) + BitVec.ofNat 16 (surcharge b) := by
  simp [State.resolveBoth]

@[simp] theorem State.resolveBoth_reg (s : State) (b a : Operand) (r : Reg) :
    (s.resolveBoth b a).st.reg r = s.reg r := by
  simp [State.resolveBoth]

@[simp] theorem State.resolveBoth_readMem (s : State) (b a : Operand) (addr : Word) :
    (s.resolveBoth b a).st.readMem addr = s.readMem addr := by
  simp [State.resolveBoth]

@[simp] theorem State.resolveBoth_regs (s : State) (b a : Operand) : (s.resolveBoth b a).st.regs = s.regs := by
  simp [State.resolveBoth]

@[simp] theorem State.resolveBoth_ex (s : State) (b a : Operand) : (s.resolveBoth b a).st.ex = s.ex := by
  simp [State.resolveBoth]

@[simp] theorem State.resolveBoth_mem (s : State) (b a : Operand) : (s.resolveBoth b a).st.mem = s.mem := by
  simp [State.resolveBoth]

@[simp] theorem State.resolveBoth_ia (s : State) (b a : Operand) : (s.resolveBoth b a).st.ia = s.ia := by
  simp [State.resolveBoth]

@[simp] theorem State.resolveBoth_iq (s : State) (b a : Operand) : (s.resolveBoth b a).st.iq = s.iq := by
  simp [State.resolveBoth]

@[simp] theorem State.resolveBoth_ifq (s : State) (b a : Operand) : (s.resolveBoth b a).st.ifq = s.ifq := by
  simp [State.resolveBoth]

@[simp] theorem State.resolveBoth_cyc (s : State) (b a : Operand) : (s.resolveBoth b a).st.cyc = s.cyc := by
  simp [State.resolveBoth]

@[simp] theorem State.resolveBoth_fault (s : State) (b a : Operand) : (s.resolveBoth b a).st.fault = s.fault := by
  simp [State.resolveBoth]

@[simp] theorem State.resolveBoth_devices (s : State) (b a : Operand) : (s.resolveBoth b a).st.devices = s.devices := by
  simp [State.resolveBoth]

@[simp] theorem State.resolveBoth_time (s : State) (b a : Operand) : (s.resolveBoth b a).st.time = s.time := by
  simp [State.resolveBoth]

@[simp] theorem State.resolveBoth_last (s : State) (b a : Operand) : (s.resolveBoth b a).st.last = s.last := by
  simp [State.resolveBoth]

@[simp] theorem State.resolveBoth_bal (s : State) (b a : Operand) : (s.resolveBoth b a).st.bal = s.bal := by
  simp [State.resolveBoth]


end Sys2Proof.Machine
end

