-- ==== Sys2Proof/Laws/Ops.lean ====
section
/-! SUPPORT. What the stack, the interrupt controller and the return from an interrupt can do. -/

namespace Sys2Proof.Machine

/-! ## The stack -/

@[simp] theorem State.push_sp (s : State) (v : Word) : (s.push v).sp = s.sp - 1 := rfl

@[simp] theorem State.push_readMem (s : State) (v addr : Word) :
    (s.push v).readMem addr = if addr = s.sp - 1 then v else s.readMem addr := by
  simp [State.push, State.readMem_eq]

@[simp] theorem State.push_mem (s : State) (v : Word) : (s.push v).mem = s.mem.write (s.sp - 1) v := rfl

@[simp] theorem State.push_reg (s : State) (v : Word) (r : Reg) : (s.push v).reg r = s.reg r := rfl

@[simp] theorem State.pop_fst (s : State) : s.pop.1 = s.readMem s.sp := rfl

@[simp] theorem State.pop_snd (s : State) : s.pop.2 = s.setSp (s.sp + 1) := rfl

@[simp] theorem State.push_regs (s : State) (v : Word) : (s.push v).regs = s.regs := rfl

@[simp] theorem State.push_pc (s : State) (v : Word) : (s.push v).pc = s.pc := rfl

@[simp] theorem State.push_ex (s : State) (v : Word) : (s.push v).ex = s.ex := rfl

@[simp] theorem State.push_ia (s : State) (v : Word) : (s.push v).ia = s.ia := rfl

@[simp] theorem State.push_iq (s : State) (v : Word) : (s.push v).iq = s.iq := rfl

@[simp] theorem State.push_ifq (s : State) (v : Word) : (s.push v).ifq = s.ifq := rfl

@[simp] theorem State.push_cyc (s : State) (v : Word) : (s.push v).cyc = s.cyc := rfl

@[simp] theorem State.push_fault (s : State) (v : Word) : (s.push v).fault = s.fault := rfl

@[simp] theorem State.push_devices (s : State) (v : Word) : (s.push v).devices = s.devices := rfl

@[simp] theorem State.push_time (s : State) (v : Word) : (s.push v).time = s.time := rfl

@[simp] theorem State.push_last (s : State) (v : Word) : (s.push v).last = s.last := rfl

@[simp] theorem State.push_bal (s : State) (v : Word) : (s.push v).bal = s.bal := rfl

/-! ## Delivery (60_exceptions.md R454) -/

@[simp] theorem State.deliver_pc (s : State) (m : Word) (rest : List Word) : (s.deliver m rest).pc = s.ia := rfl

@[simp] theorem State.deliver_sp (s : State) (m : Word) (rest : List Word) :
    (s.deliver m rest).sp = s.sp - 1 - 1 := rfl

@[simp] theorem State.deliver_iq (s : State) (m : Word) (rest : List Word) : (s.deliver m rest).iq = true := rfl

@[simp] theorem State.deliver_ifq (s : State) (m : Word) (rest : List Word) : (s.deliver m rest).ifq = rest := rfl

@[simp] theorem State.deliver_reg (s : State) (m : Word) (rest : List Word) (r : Reg) :
    (s.deliver m rest).reg r = if r = .a then m else s.reg r := by
  simp [State.deliver, eq_comm]

@[simp] theorem State.deliver_readMem (s : State) (m : Word) (rest : List Word) (addr : Word) :
    (s.deliver m rest).readMem addr =
      if addr = s.sp - 1 - 1 then s.reg .a else if addr = s.sp - 1 then s.pc else s.readMem addr := by
  have h (t : State) (u v addr : Word) : ((t.push u).push v).readMem addr =
      if addr = t.sp - 1 - 1 then v else if addr = t.sp - 1 then u else t.readMem addr := by
    rw [State.push_readMem, State.push_readMem]; rfl
  exact h (s.setIfq rest) s.pc (s.reg .a) addr

@[simp] theorem State.deliver_ex (s : State) (m : Word) (rest : List Word) : (s.deliver m rest).ex = s.ex := rfl

@[simp] theorem State.deliver_ia (s : State) (m : Word) (rest : List Word) : (s.deliver m rest).ia = s.ia := rfl

@[simp] theorem State.deliver_cyc (s : State) (m : Word) (rest : List Word) : (s.deliver m rest).cyc = s.cyc := rfl

@[simp] theorem State.deliver_fault (s : State) (m : Word) (rest : List Word) : (s.deliver m rest).fault = s.fault := rfl

@[simp] theorem State.deliver_devices (s : State) (m : Word) (rest : List Word) : (s.deliver m rest).devices = s.devices := rfl

@[simp] theorem State.deliver_time (s : State) (m : Word) (rest : List Word) : (s.deliver m rest).time = s.time := rfl

@[simp] theorem State.deliver_last (s : State) (m : Word) (rest : List Word) : (s.deliver m rest).last = s.last := rfl

@[simp] theorem State.deliver_bal (s : State) (m : Word) (rest : List Word) : (s.deliver m rest).bal = s.bal := rfl

theorem State.deliver_wf {s : State} (h : s.mem.wf) (m : Word) (rest : List Word) : (s.deliver m rest).mem.wf :=
  Memory.wf_write (Memory.wf_write h _ _) _ _

/-! ## The dispatch step (60_exceptions.md R453) -/

/-- The dispatch step does nothing, or delivers the oldest message. -/
theorem State.dispatch_cases (s : State) :
    s.dispatch = s ∧ (s.iq = true ∨ s.ifq = []) ∨
      ∃ m rest, s.iq = false ∧ s.ifq = m :: rest ∧ s.dispatch = s.deliver m rest := by
  unfold State.dispatch
  cases hq : s.iq
  · cases hf : s.ifq with
    | nil => simp
    | cons m rest => simp
  · simp

@[simp] theorem State.dispatch_ex (s : State) : s.dispatch.ex = s.ex := by
  rcases s.dispatch_cases with ⟨h, -⟩ | ⟨m, rest, -, -, h⟩ <;> simp [h]

@[simp] theorem State.dispatch_ia (s : State) : s.dispatch.ia = s.ia := by
  rcases s.dispatch_cases with ⟨h, -⟩ | ⟨m, rest, -, -, h⟩ <;> simp [h]

@[simp] theorem State.dispatch_cyc (s : State) : s.dispatch.cyc = s.cyc := by
  rcases s.dispatch_cases with ⟨h, -⟩ | ⟨m, rest, -, -, h⟩ <;> simp [h]

@[simp] theorem State.dispatch_fault (s : State) : s.dispatch.fault = s.fault := by
  rcases s.dispatch_cases with ⟨h, -⟩ | ⟨m, rest, -, -, h⟩ <;> simp [h]

@[simp] theorem State.dispatch_devices (s : State) : s.dispatch.devices = s.devices := by
  rcases s.dispatch_cases with ⟨h, -⟩ | ⟨m, rest, -, -, h⟩ <;> simp [h]

@[simp] theorem State.dispatch_time (s : State) : s.dispatch.time = s.time := by
  rcases s.dispatch_cases with ⟨h, -⟩ | ⟨m, rest, -, -, h⟩ <;> simp [h]

@[simp] theorem State.dispatch_last (s : State) : s.dispatch.last = s.last := by
  rcases s.dispatch_cases with ⟨h, -⟩ | ⟨m, rest, -, -, h⟩ <;> simp [h]

@[simp] theorem State.dispatch_bal (s : State) : s.dispatch.bal = s.bal := by
  rcases s.dispatch_cases with ⟨h, -⟩ | ⟨m, rest, -, -, h⟩ <;> simp [h]

theorem State.dispatch_wf {s : State} (h : s.mem.wf) : s.dispatch.mem.wf := by
  rcases s.dispatch_cases with ⟨e, -⟩ | ⟨m, rest, -, -, e⟩ <;> rw [e]
  · exact h
  · exact State.deliver_wf h m rest

/-! ## The return from an interrupt (44_special.md R314) -/

@[simp] theorem State.returnFromInterrupt_pc (s : State) :
    s.returnFromInterrupt.pc = s.readMem (s.sp + 1) := rfl

@[simp] theorem State.returnFromInterrupt_sp (s : State) : s.returnFromInterrupt.sp = s.sp + 1 + 1 := rfl

@[simp] theorem State.returnFromInterrupt_iq (s : State) : s.returnFromInterrupt.iq = false := rfl

@[simp] theorem State.returnFromInterrupt_reg (s : State) (r : Reg) :
    s.returnFromInterrupt.reg r = if r = .a then s.readMem s.sp else s.reg r := by
  simp [State.returnFromInterrupt, eq_comm]

@[simp] theorem State.returnFromInterrupt_readMem (s : State) (addr : Word) :
    s.returnFromInterrupt.readMem addr = s.readMem addr := rfl

@[simp] theorem State.returnFromInterrupt_ex (s : State) : s.returnFromInterrupt.ex = s.ex := rfl

@[simp] theorem State.returnFromInterrupt_ia (s : State) : s.returnFromInterrupt.ia = s.ia := rfl

@[simp] theorem State.returnFromInterrupt_ifq (s : State) : s.returnFromInterrupt.ifq = s.ifq := rfl

@[simp] theorem State.returnFromInterrupt_cyc (s : State) : s.returnFromInterrupt.cyc = s.cyc := rfl

@[simp] theorem State.returnFromInterrupt_fault (s : State) : s.returnFromInterrupt.fault = s.fault := rfl

@[simp] theorem State.returnFromInterrupt_mem (s : State) : s.returnFromInterrupt.mem = s.mem := rfl

@[simp] theorem State.returnFromInterrupt_devices (s : State) : s.returnFromInterrupt.devices = s.devices := rfl

@[simp] theorem State.returnFromInterrupt_time (s : State) : s.returnFromInterrupt.time = s.time := rfl

@[simp] theorem State.returnFromInterrupt_last (s : State) : s.returnFromInterrupt.last = s.last := rfl

@[simp] theorem State.returnFromInterrupt_bal (s : State) : s.returnFromInterrupt.bal = s.bal := rfl

end Sys2Proof.Machine
end

