-- ==== Sys2Proof/Laws/Exec.lean ====
section
/-! SUPPORT. What each shared operation of the meanings can do, said once: the opcodes that write a result, the block
copies, the conditionals and their skip, a device command, what surrounds an instruction, one step. -/

namespace Sys2Proof.Machine

/-! ## Cycles -/

/-- The surcharge of an operand counts its inline words (40_addressing.md R151). -/
theorem surcharge_eq_length (o : Operand) : surcharge o = o.inline.length := by cases o <;> rfl

/-- A base cost is 1 to 4, whatever the parameter is (41_executor.md R183). -/
theorem baseCost_bounds (i : Instr) : 1 ≤ baseCost i ∧ baseCost i ≤ 4 := by
  have hb := (Config.basicCostLessOne i.number).isLt
  have hs := (Config.specialCostLessOne i.number).isLt
  unfold baseCost Config.basicCost Config.specialCost
  split <;> omega

theorem one_le_cycles (i : Instr) : 1 ≤ cycles i := by
  have := (baseCost_bounds i).1
  unfold cycles
  split <;> omega

/-! ## Opcodes that write a result -/

/-- `resultAndEx` completes: b's location takes the result, EX its value, and nothing else changes but PC and SP by the
operands and CYC by the cost. -/
theorem resultAndEx_spec (f : Word → Word → Word → ResultEx) (cost : Nat) (b a : Operand) (s : State) :
    ∃ t, resultAndEx f cost b a s = .next t ∧
      WroteWithEx (s.resolveBoth b a).lb
        (f (s.resolveBoth b a).vb (s.resolveBoth b a).va s.ex).result
        (f (s.resolveBoth b a).vb (s.resolveBoth b a).va s.ex).ex s (s.resolveBoth b a).st t ∧
      t.cyc = s.cyc + cost := by
  refine ⟨_, rfl, ⟨?_, ?_, ?_, ?_, ?_, ?_, ?_, ⟨?_, ?_, ?_⟩, ⟨?_, ?_, ?_, ?_, ?_⟩⟩, ?_⟩
  case refine_4 => intro h; simp [State.writeResultAndEx, h]
  case refine_5 => intro h e; simp [State.writeResultAndEx, h, e]
  case refine_6 => intro h e; simp [State.writeResultAndEx, h, e]
  all_goals simp

/-- `resultOnly` completes: b's location takes the result and EX is as it was unless it is the destination. -/
theorem resultOnly_spec (f : Word → Word → Word) (cost : Nat) (b a : Operand) (s : State) :
    ∃ t, resultOnly f cost b a s = .next t ∧
      WroteOnly (s.resolveBoth b a).lb (f (s.resolveBoth b a).vb (s.resolveBoth b a).va) s
        (s.resolveBoth b a).st t ∧
      t.cyc = s.cyc + cost := by
  refine ⟨_, rfl, ⟨?_, ?_, ?_, ?_, ?_, ⟨?_, ?_, ?_⟩, ⟨?_, ?_, ?_, ?_, ?_⟩⟩, ?_⟩
  all_goals simp

/-- A location write after the operands, and a charge, is `WroteOnly`. -/
theorem writeLoc_charge_wroteOnly (s : State) (b a : Operand) (l : Loc) (v : Word) (cost : Nat) :
    WroteOnly l v s (s.resolveBoth b a).st (((s.resolveBoth b a).st.writeLoc l v).charge cost) := by
  refine ⟨?_, ?_, ?_, ?_, ?_, ⟨?_, ?_, ?_⟩, ⟨?_, ?_, ?_, ?_, ?_⟩⟩
  all_goals simp

/-- As `writeLoc_charge_wroteOnly`, for the special opcodes. -/
theorem writeLoc_charge_wroteOnly_a (s : State) (a : Operand) (l : Loc) (v : Word) (cost : Nat) :
    WroteOnly l v s (s.resolve .a a).2 (((s.resolve .a a).2.writeLoc l v).charge cost) := by
  refine ⟨?_, ?_, ?_, ?_, ?_, ⟨?_, ?_, ?_⟩, ⟨?_, ?_, ?_, ?_, ?_⟩⟩
  all_goals simp

/-- What a block copy leaves (42_alu.md R246, R247). -/
theorem blockCopy_spec (d : Word) (cost : Nat) (b a : Operand) (s : State) :
    ∃ t u, blockCopy d cost b a s = .next t ∧
      WroteOnly (s.resolveBoth b a).la (s.resolveBoth b a).vb s (s.resolveBoth b a).st u ∧
      t = (((u.setReg .i (u.reg .i + d)).setReg .j (u.reg .j + d)).charge cost) ∧ u.cyc = s.cyc := by
  refine ⟨_, (s.resolveBoth b a).st.writeLoc (s.resolveBoth b a).la (s.resolveBoth b a).vb, rfl, ?_, ?_, ?_⟩
  · refine ⟨?_, ?_, ?_, ?_, ?_, ⟨?_, ?_, ?_⟩, ⟨?_, ?_, ?_, ?_, ?_⟩⟩
    all_goals simp
  · simp [State.setReg, State.reg, State.charge]
  · simp

/-! ## The skip -/

theorem skipPath_succ (m : Memory) (p : Word) (n : Nat) :
    skipPath m p (n + 1) = skipPath m (p + BitVec.ofNat 16 (wordLength (m.read p))) n := by
  induction n with
  | zero => rfl
  | succ n ih =>
    rw [skipPath, ih]
    rfl

/-- How a skip with `fuel` can end: it passed `n` more conditionals and one last instruction, or met an illegal word
after `n` conditionals, or passed `fuel` of them. -/
theorem skipFrom_cases (m : Memory) (fuel : Nat) (p : Word) (count : Nat) :
    (∃ n < fuel, chainPasses m p n ∧ illegalCode (m.read (skipPath m p n)) = none ∧
        isConditional (m.read (skipPath m p n)) = false ∧
        skipFrom m fuel p count = .passed (skipPath m p (n + 1)) (count + n + 1)) ∨
      (∃ n < fuel, ∃ code, chainPasses m p n ∧ illegalCode (m.read (skipPath m p n)) = some code ∧
        skipFrom m fuel p count = .illegal code (skipPath m p n)) ∨
      (chainPasses m p fuel ∧ skipFrom m fuel p count = .endless) := by
  induction fuel generalizing p count with
  | zero => exact .inr (.inr ⟨fun k hk => absurd hk (by omega), rfl⟩)
  | succ fuel ih =>
    cases hc : illegalCode (m.read p) with
    | some code =>
      refine .inr (.inl ⟨0, by omega, code, fun k hk => absurd hk (by omega), hc, ?_⟩)
      simp [skipFrom, hc, skipPath]
    | none =>
      cases hi : isConditional (m.read p) with
      | false =>
        refine .inl ⟨0, by omega, fun k hk => absurd hk (by omega), hc, hi, ?_⟩
        simp [skipFrom, hc, hi, skipPath]
      | true =>
        have first : ∀ n, chainPasses m (p + BitVec.ofNat 16 (wordLength (m.read p))) n → chainPasses m p (n + 1) := by
          intro n h k hk
          cases k with
          | zero => exact ⟨hc, hi⟩
          | succ k => rw [skipPath_succ]; exact h k (by omega)
        have unfold_once : skipFrom m (fuel + 1) p count =
            skipFrom m fuel (p + BitVec.ofNat 16 (wordLength (m.read p))) (count + 1) := by
          simp [skipFrom, hc, hi]
        rw [unfold_once]
        rcases ih (p + BitVec.ofNat 16 (wordLength (m.read p))) (count + 1) with
          ⟨n, hn, h, hl, hf, e⟩ | ⟨n, hn, code, h, hl, e⟩ | ⟨h, e⟩
        · refine .inl ⟨n + 1, by omega, first n h, ?_, ?_, ?_⟩
          · rw [skipPath_succ]; exact hl
          · rw [skipPath_succ]; exact hf
          · rw [e, skipPath_succ m p (n + 1), show count + 1 + n + 1 = count + (n + 1) + 1 by omega]
        · refine .inr (.inl ⟨n + 1, by omega, code, first n h, ?_, ?_⟩)
          · rw [skipPath_succ]; exact hl
          · rw [e, skipPath_succ]
        · exact .inr (.inr ⟨first fuel h, e⟩)

theorem skipPath_add (m : Memory) (p : Word) (i j : Nat) :
    skipPath m p (i + j) = skipPath m (skipPath m p i) j := by
  induction j with
  | zero => rfl
  | succ j ih => rw [← Nat.add_assoc, skipPath, ih]; rfl

/-- A path that passes 65536 conditionals meets an address twice, so it passes conditionals for ever
(43_conditional.md R283). -/
theorem chainNeverEnds_of_chainPasses {m : Memory} {p : Word} (h : chainPasses m p skipLimit) :
    chainNeverEnds m p := by
  have twice : ∃ i j : Fin 65537, i < j ∧ skipPath m p i = skipPath m p j := by
    obtain ⟨i, j, hne, e⟩ := Fintype.exists_ne_map_eq_of_card_lt
      (fun i : Fin 65537 => ((skipPath m p i).toFin : Fin (2 ^ 16))) (by simp)
    have e : skipPath m p i = skipPath m p j := BitVec.toFin_inj.mp e
    rcases lt_or_gt_of_ne hne with hlt | hlt
    · exact ⟨i, j, hlt, e⟩
    · exact ⟨j, i, hlt, e.symm⟩
  obtain ⟨i, j, hij, e⟩ := twice
  have hij : i.val < j.val := hij
  have hj := j.isLt
  have back : ∀ k, 65536 ≤ k → skipPath m p k = skipPath m p (k - (j - i)) := by
    intro k hk
    have h1 : j.val + (k - j) = k := by omega
    have h2 : i.val + (k - j) = k - (j - i) := by omega
    rw [← h1, skipPath_add, ← e, ← skipPath_add, h2, h1]
  have all : ∀ k, illegalCode (m.read (skipPath m p k)) = none ∧
      isConditional (m.read (skipPath m p k)) = true := by
    intro k
    induction k using Nat.strong_induction_on with
    | _ k ih =>
      by_cases hk : k < 65536
      · exact h k hk
      · rw [back k (by omega)]
        exact ih _ (by omega)
  exact fun n k _ => all k

/-- A path that passes `n` conditionals and not one more is shorter than the skip's fuel. -/
theorem lt_skipLimit_of_chainPasses {m : Memory} {p : Word} {n : Nat} (h : chainPasses m p n)
    (hn : ¬(illegalCode (m.read (skipPath m p n)) = none ∧ isConditional (m.read (skipPath m p n)) = true)) :
    n < skipLimit := by
  by_contra hc
  exact hn (chainNeverEnds_of_chainPasses (fun k hk => h k (by omega)) (n + 1) n (by omega))

/-! ## The conditionals -/

/-- How a conditional can end (43_conditional.md R280 to R283). -/
theorem conditional_cases (test : Word → Word → Bool) (cost : Nat) (b a : Operand) (s : State) :
    (test (s.resolveBoth b a).vb (s.resolveBoth b a).va = true ∧
        conditional test cost b a s = .next ((s.resolveBoth b a).st.charge cost)) ∨
      (test (s.resolveBoth b a).vb (s.resolveBoth b a).va = false ∧
        ((∃ p count, skip (s.resolveBoth b a).st.mem (s.resolveBoth b a).st.pc = .passed p count ∧
            conditional test cost b a s = .next (((s.resolveBoth b a).st.setPc p).charge (cost + count))) ∨
          (∃ code p, skip (s.resolveBoth b a).st.mem (s.resolveBoth b a).st.pc = .illegal code p ∧
            conditional test cost b a s = .next (((s.resolveBoth b a).st.setPc p).raiseDecodeError code p)) ∨
          (skip (s.resolveBoth b a).st.mem (s.resolveBoth b a).st.pc = .endless ∧
            conditional test cost b a s = .fault .skipNeverEnds))) := by
  unfold conditional
  cases ht : test (s.resolveBoth b a).vb (s.resolveBoth b a).va
  · right
    refine ⟨rfl, ?_⟩
    cases hs : skip (s.resolveBoth b a).st.mem (s.resolveBoth b a).st.pc with
    | passed p count => exact .inl ⟨p, count, rfl, by simp only [ht, hs, Bool.false_eq_true, if_false]⟩
    | illegal code p => exact .inr (.inl ⟨code, p, rfl, by simp only [ht, hs, Bool.false_eq_true, if_false]⟩)
    | endless => exact .inr (.inr ⟨rfl, by simp only [ht, hs, Bool.false_eq_true, if_false]⟩)
  · exact .inl ⟨rfl, by simp [ht]⟩

/-! ## The hardware bus -/

/-- What an HWI does on the bus: nothing out of range, else the device's command (44_special.md R319, R320). -/
theorem State.commandDevice_cases (s : State) (index : Nat) :
    (s.devices[index]? = none ∧ s.commandDevice index = (s, 0)) ∨
      ∃ d, s.devices[index]? = some d ∧
        s.commandDevice index =
          ((s.setRegs (deviceCommand d s.regs s.time).regs).setDevices
              (s.devices.set index (deviceCommand d s.regs s.time).device),
            (deviceCommand d s.regs s.time).cost) := by
  unfold State.commandDevice
  cases h : s.devices[index]? with
  | none => exact .inl ⟨rfl, rfl⟩
  | some d => exact .inr ⟨d, rfl, rfl⟩

/-- A device command changes at most C among the registers (45_device_clock.md, 46_device_keyboard.md,
47_device_display.md). -/
theorem deviceCommand_regs (d : Device) (g : Regs) (t : Rat) {r : Reg} (h : r ≠ .c) :
    (deviceCommand d g t).regs.get r = g.get r := by
  have hc : ∀ v, ({ g with c := v } : Regs).get r = g.get r := by
    intro v; cases r <;> first | rfl | exact absurd rfl h
  cases d with
  | clock k =>
    simp only [deviceCommand, Clock.command]
    split_ifs <;> first | rfl | exact hc _
  | keyboard k =>
    simp only [deviceCommand, Keyboard.command]
    split_ifs
    · rfl
    · cases k.queue with
      | nil => exact hc _
      | cons code rest => exact hc _
    all_goals first | rfl | exact hc _
  | display k => rfl

/-- A device command keeps the kind of the device. -/
theorem deviceCommand_kind (d : Device) (g : Regs) (t : Rat) : (deviceCommand d g t).device.kind = d.kind := by
  cases d <;> rfl

/-! ## Around the instruction -/

/-- A step that answers a next state fetched an illegal word, or ran the fetched instruction and then the dispatch step
unless the instruction ended in a decode error (41_executor.md R180 to R189). -/
theorem step_next_cases {s t : State} (h : step s = .next t) :
    s.fault = none ∧
      ((∃ code, s.fetch = .error code ∧ t = s.illegalFetch code) ∨
        ∃ i u, s.fetch = .ok i ∧ exec i s.advancePc = .next u ∧ t = if u.fault = none then u.dispatch else u) := by
  unfold step at h
  cases hf : s.fault with
  | some e => simp [hf] at h
  | none =>
    refine ⟨rfl, ?_⟩
    cases hi : s.fetch with
    | error code =>
      simp only [hf, hi, Host.Outcome.next.injEq] at h
      exact .inl ⟨code, rfl, h.symm⟩
    | ok i =>
      simp only [hf, hi] at h
      cases hx : exec i s.advancePc with
      | next u =>
        simp only [hx, afterInstruction, Host.Outcome.next.injEq] at h
        exact .inr ⟨i, u, rfl, hx, h.symm⟩
      | fault f => simp only [hx, afterInstruction, reduceCtorEq] at h
      | refused r => simp only [hx, afterInstruction, reduceCtorEq] at h

end Sys2Proof.Machine
end

