-- ==== Sys2Proof/Laws/Host.lean ====
section
/-! SUPPORT. What the host's actions can do: key events, ticks, the snapshot's fields, a scheduler invocation. -/

namespace Sys2Proof.Machine

/-! ## KB_DOWN -/

theorem mem_insertKey (k : Nat) (l : List Nat) (x : Nat) : x ∈ insertKey k l ↔ x = k ∨ x ∈ l := by
  induction l with
  | nil => simp [insertKey]
  | cons u us ih =>
    simp only [insertKey]
    split
    · simp
    · simp only [List.mem_cons, ih]; tauto

theorem insertKey_pairwise {k : Nat} {l : List Nat} (h : l.Pairwise (· < ·)) (hk : ∀ x ∈ l, x ≠ k) :
    (insertKey k l).Pairwise (· < ·) := by
  induction l with
  | nil => simp [insertKey]
  | cons u us ih =>
    obtain ⟨h1, h2⟩ := List.pairwise_cons.mp h
    simp only [insertKey]
    split
    · rename_i hlt
      refine List.pairwise_cons.mpr ⟨fun x hx => ?_, h⟩
      rcases List.mem_cons.mp hx with rfl | hx
      · exact hlt
      · exact hlt.trans (h1 x hx)
    · rename_i hlt
      refine List.pairwise_cons.mpr ⟨fun x hx => ?_, ih h2 fun x hx => hk x (by simp [hx])⟩
      rcases (mem_insertKey _ _ _).mp hx with rfl | hx
      · have := hk u (by simp); omega
      · exact h1 x hx

/-! ## Bytes and words -/

theorem append_toNat (x y : Byte) : (x ++ y : Word).toNat = 256 * x.toNat + y.toNat := by
  rw [BitVec.toNat_append, ← Nat.shiftLeft_add_eq_or_of_lt y.isLt, Nat.shiftLeft_eq]
  omega

/-- Word k of a loaded buffer (70_reset_and_hazards.md R502). -/
theorem wordsOfBytes_getElem? (big : Bool) (n : Nat) (bytes : List Byte) :
    (wordsOfBytes big bytes)[n]? =
      match bytes[2 * n]?, bytes[2 * n + 1]? with
      | some x, some y => some (if big then (x ++ y : Word) else (y ++ x : Word))
      | _, _ => none := by
  induction bytes using wordsOfBytes.induct generalizing n with
  | case1 x y rest ih =>
    cases n with
    | zero => simp [wordsOfBytes]
    | succ n =>
      simp only [wordsOfBytes, List.getElem?_cons_succ, ih]
      rw [show 2 * (n + 1) = 2 * n + 1 + 1 by ring]
      simp only [List.getElem?_cons_succ]
  | case2 bs h =>
    match bs, h with
    | [], _ => simp [wordsOfBytes]
    | [x], _ => cases n <;> simp [wordsOfBytes]
    | x :: y :: r, h => exact absurd rfl (h x y r)

/-! ## The snapshot -/

theorem bytes16_join (w : Word) : (w.extractLsb' 8 8 ++ w.extractLsb' 0 8 : Word) = w := by
  have := w.isLt
  apply BitVec.eq_of_toNat_eq
  rw [append_toNat]
  simp only [BitVec.extractLsb'_toNat, Nat.shiftRight_eq_div_pow]
  omega

theorem bytes16_length (ws : List Word) : (ws.flatMap bytes16).length = 2 * ws.length := by
  induction ws with
  | nil => rfl
  | cons w ws ih => simp only [List.flatMap_cons, List.length_append, ih, bytes16, List.length_cons, List.length_nil]; omega

/-- Reading back the words a snapshot wrote. -/
theorem takeWords_bytes16 (ws : List Word) (rest : List Byte) :
    takeWords ws.length (ws.flatMap bytes16 ++ rest) = some (ws, rest) := by
  induction ws with
  | nil => rfl
  | cons w ws ih =>
    simp only [List.flatMap_cons, bytes16, List.cons_append, List.nil_append, List.length_cons, takeWords]
    rw [ih]
    simp only [bytes16_join]

/-- Reading back a 32-bit field a snapshot wrote. -/
theorem take32_bytes32 (v : BitVec 32) (rest : List Byte) : take32 (bytes32 v ++ rest) = some (v, rest) := by
  simp only [bytes32, List.cons_append, List.nil_append, take32, Option.some.injEq, Prod.mk.injEq, and_true]
  apply BitVec.eq_of_getLsbD_eq
  intro i hi
  simp only [BitVec.getLsbD_append, BitVec.getLsbD_extractLsb']
  by_cases h1 : i < 8
  · simp [h1]
  · by_cases h2 : i - 8 < 8
    · simp [h1, h2, show 8 + (i - 8) = i by omega]
    · by_cases h3 : i - 8 - 8 < 8
      · simp [h1, h2, h3, show 16 + (i - 8 - 8) = i by omega]
      · simp [h1, h2, h3, show i - 8 - 8 - 8 < 8 by omega, show 24 + (i - 8 - 8 - 8) = i by omega]

theorem Memory.firstWords_length (m : Memory) (n : Nat) : (m.firstWords n).length = n := by
  simp [Memory.firstWords]

theorem Memory.firstWords_getElem? (m : Memory) {n k : Nat} (h : k < n) :
    (m.firstWords n)[k]? = some (m.readAt k) := by
  simp [Memory.firstWords, h]

theorem Memory.allWords_length (m : Memory) : m.allWords.length = 65536 := by
  unfold Memory.allWords; exact m.firstWords_length _

theorem Memory.allWords_getElem? (m : Memory) (a : Word) : m.allWords[a.toNat]? = some (m.read a) := by
  unfold Memory.allWords; exact m.firstWords_getElem? a.isLt

/-- Reading `n` uint16s at offset `k`: all of them, or none where the stream ends before. -/
theorem takeWords_drop (bs : List Byte) (n : Nat) : ∀ k, k ≤ bs.length →
    (k + 2 * n ≤ bs.length ∧ ∃ ws, takeWords n (bs.drop k) = some (ws, bs.drop (k + 2 * n)) ∧ ws.length = n ∧
      ∀ j, j < n → (ws.getD j 0).toNat = halfAt bs (k + 2 * j)) ∨
    (bs.length < k + 2 * n ∧ takeWords n (bs.drop k) = none) := by
  induction n with
  | zero => intro k hk; left; exact ⟨hk, [], rfl, rfl, fun j hj => by omega⟩
  | succ n ih =>
    intro k hk
    by_cases h : k + 2 ≤ bs.length
    · have e : bs.drop k = bs[k] :: bs[k+1] :: bs.drop (k + 2) := by
        rw [List.drop_eq_getElem_cons (by omega), List.drop_eq_getElem_cons (by omega)]
      rw [e]
      simp only [takeWords]
      rcases ih (k + 2) h with ⟨h1, ws, h2, h3, h4⟩ | ⟨h1, h2⟩
      · left
        refine ⟨by omega, _, by rw [h2]; simp only; rw [show k + 2 + 2 * n = k + 2 * (n + 1) by ring], by simp [h3], ?_⟩
        intro j hj
        cases j with
        | zero =>
          rw [List.getD_cons_zero, append_toNat]
          simp only [halfAt, byteAt]
          rw [List.getD_eq_getElem?_getD, List.getD_eq_getElem?_getD, List.getElem?_eq_getElem (by omega),
            List.getElem?_eq_getElem (by omega)]
          simp; omega
        | succ j =>
          rw [List.getD_cons_succ, h4 j (by omega)]
          congr 1; omega
      · right
        exact ⟨by omega, by rw [h2]⟩
    · right
      refine ⟨by omega, ?_⟩
      have hl : (bs.drop k).length < 2 := by simp; omega
      match bs.drop k, hl with
      | [], _ => rfl
      | [_], _ => rfl

/-- Reading a uint32 at offset `k`. -/
theorem take32_drop (bs : List Byte) (k : Nat) :
    (k + 4 ≤ bs.length ∧ ∃ v, take32 (bs.drop k) = some (v, bs.drop (k + 4)) ∧ v.toNat = fullAt bs k) ∨
    (bs.length < k + 4 ∧ take32 (bs.drop k) = none) := by
  by_cases h : k + 4 ≤ bs.length
  · left
    refine ⟨h, ?_⟩
    have e : bs.drop k = bs[k] :: bs[k+1] :: bs[k+2] :: bs[k+3] :: bs.drop (k + 4) := by
      rw [List.drop_eq_getElem_cons (by omega), List.drop_eq_getElem_cons (by omega),
        List.drop_eq_getElem_cons (by omega), List.drop_eq_getElem_cons (by omega)]
    rw [e]
    refine ⟨_, rfl, ?_⟩
    have h0 := bs[k].isLt
    have h1 := bs[k+1].isLt
    have h2 := bs[k+2].isLt
    simp only [fullAt, halfAt, byteAt, List.getD_eq_getElem?_getD]
    rw [List.getElem?_eq_getElem (by omega), List.getElem?_eq_getElem (by omega),
      List.getElem?_eq_getElem (by omega), List.getElem?_eq_getElem (by omega)]
    rw [BitVec.toNat_append, ← Nat.shiftLeft_add_eq_or_of_lt h0, BitVec.toNat_append,
      ← Nat.shiftLeft_add_eq_or_of_lt h1, BitVec.toNat_append, ← Nat.shiftLeft_add_eq_or_of_lt h2]
    simp only [Nat.shiftLeft_eq, Option.getD_some, show k + 2 + 1 = k + 3 by rfl]
    omega
  · right
    refine ⟨by omega, ?_⟩
    have hl : (bs.drop k).length < 4 := by simp; omega
    match bs.drop k, hl with
    | [], _ => rfl
    | [_], _ => rfl
    | [_,_], _ => rfl
    | [_,_,_], _ => rfl

/-- Reading a byte at offset `k`. -/
theorem takeByte_drop (bs : List Byte) (k : Nat) :
    (k + 1 ≤ bs.length ∧ ∃ b, takeByte (bs.drop k) = some (b, bs.drop (k + 1)) ∧ b.toNat = byteAt bs k) ∨
    (bs.length < k + 1 ∧ takeByte (bs.drop k) = none) := by
  by_cases h : k < bs.length
  · left
    rw [List.drop_eq_getElem_cons h]
    refine ⟨by omega, _, rfl, ?_⟩
    simp [byteAt, h]
  · right
    rw [List.drop_eq_nil_of_le (by omega)]
    exact ⟨by omega, rfl⟩

/-! ## The scheduler -/

/-- An invocation once the scheduler is initialised (70_reset_and_hazards.md R521). -/
theorem State.invokeWith_of_last {s : State} {l : Rat} (h : s.last = some l) (rate : Nat) (rounding : Config.Rounding) :
    s.invokeWith rate rounding =
      if roundCycles rounding ((rate : Rat) * (s.time - l)) = 0 then { state := s, frames := [], verdict := .ok }
      else
        let ticked := { s with last := some s.time }.tick
        let ready := { ticked.1 with bal := s.bal + min (roundCycles rounding ((rate : Rat) * (s.time - l))) rate }
        { state := (runBudget ready.bal.toNat ready).1, frames := ticked.2
          verdict := (runBudget ready.bal.toNat ready).2 } := by
  simp only [State.invokeWith, h]
  rfl

/-- What a run of the loop can do: `n` completed rounds to `u`, and there it ends: the loop's condition fails, the fuel is
spent, a step sets FAULT, or a step answers no next state. -/
theorem runBudget_cases (fuel : Nat) (s : State) :
    ∃ n u, BudgetRounds n s u ∧
      ((¬(u.bal > 0 ∧ u.fault = none) ∧ runBudget fuel s = (u, u.verdict)) ∨
        (n = fuel ∧ runBudget fuel s = (u, u.verdict)) ∨
        ((u.bal > 0 ∧ u.fault = none) ∧ ∃ t, step u = .next t ∧ t.fault ≠ none ∧ runBudget fuel s = (t, t.verdict)) ∨
        ((u.bal > 0 ∧ u.fault = none) ∧ (∀ t, step u ≠ .next t) ∧ runBudget fuel s = (u, .stuck))) := by
  induction fuel generalizing s with
  | zero => exact ⟨0, s, .done s, .inr (.inl ⟨rfl, rfl⟩)⟩
  | succ fuel ih =>
    by_cases hc : s.bal > 0 ∧ s.fault = none
    · cases hs : step s with
      | next t =>
        by_cases hf : t.fault = none
        · obtain ⟨n, u, hr, h⟩ := ih { t with bal := t.bal - ((t.cyc : Int) - s.cyc) }
          have e : runBudget (fuel + 1) s = runBudget fuel { t with bal := t.bal - ((t.cyc : Int) - s.cyc) } := by
            simp only [runBudget, if_pos hc, hs, if_pos hf]
          refine ⟨n + 1, u, .round hc.1 hc.2 hs hf hr, ?_⟩
          rw [e]
          rcases h with h | ⟨hn, h⟩ | h
          · exact .inl h
          · exact .inr (.inl ⟨by rw [hn], h⟩)
          · exact .inr (.inr h)
        · refine ⟨0, s, .done s, .inr (.inr (.inl ⟨hc, t, hs, hf, ?_⟩))⟩
          simp only [runBudget, if_pos hc, hs, if_neg hf]
      | fault f =>
        refine ⟨0, s, .done s, .inr (.inr (.inr ⟨hc, (fun t h => nomatch hs.symm.trans h), ?_⟩))⟩
        simp only [runBudget, if_pos hc, hs]
      | refused r =>
        refine ⟨0, s, .done s, .inr (.inr (.inr ⟨hc, (fun t h => nomatch hs.symm.trans h), ?_⟩))⟩
        simp only [runBudget, if_pos hc, hs]
    · exact ⟨0, s, .done s, .inl ⟨hc, by simp only [runBudget, if_neg hc]⟩⟩

end Sys2Proof.Machine
end

