-- ==== Sys2Proof/Laws/PerInstr.lean ====
section
/-! SUPPORT. Facts about every instruction as syntax, one lemma for each constructor. -/

namespace Sys2Proof.Laws

/-- The words of an instruction are as many as its first word says (30_encoding.md R105). -/
def InlineCount.Statement (i : Instr) : Prop := i.wellFormed = true → (encode i).length = wordLength (firstWord i)

theorem InlineCount.set (b a : Operand) : InlineCount.Statement (.set b a) := encode_length

theorem InlineCount.add (b a : Operand) : InlineCount.Statement (.add b a) := encode_length

theorem InlineCount.sub (b a : Operand) : InlineCount.Statement (.sub b a) := encode_length

theorem InlineCount.mul (b a : Operand) : InlineCount.Statement (.mul b a) := encode_length

theorem InlineCount.mli (b a : Operand) : InlineCount.Statement (.mli b a) := encode_length

theorem InlineCount.div (b a : Operand) : InlineCount.Statement (.div b a) := encode_length

theorem InlineCount.dvi (b a : Operand) : InlineCount.Statement (.dvi b a) := encode_length

theorem InlineCount.mod (b a : Operand) : InlineCount.Statement (.mod b a) := encode_length

theorem InlineCount.mdi (b a : Operand) : InlineCount.Statement (.mdi b a) := encode_length

theorem InlineCount.and (b a : Operand) : InlineCount.Statement (.and b a) := encode_length

theorem InlineCount.bor (b a : Operand) : InlineCount.Statement (.bor b a) := encode_length

theorem InlineCount.xor (b a : Operand) : InlineCount.Statement (.xor b a) := encode_length

theorem InlineCount.shr (b a : Operand) : InlineCount.Statement (.shr b a) := encode_length

theorem InlineCount.asr (b a : Operand) : InlineCount.Statement (.asr b a) := encode_length

theorem InlineCount.shl (b a : Operand) : InlineCount.Statement (.shl b a) := encode_length

theorem InlineCount.ifb (b a : Operand) : InlineCount.Statement (.ifb b a) := encode_length

theorem InlineCount.ifc (b a : Operand) : InlineCount.Statement (.ifc b a) := encode_length

theorem InlineCount.ife (b a : Operand) : InlineCount.Statement (.ife b a) := encode_length

theorem InlineCount.ifn (b a : Operand) : InlineCount.Statement (.ifn b a) := encode_length

theorem InlineCount.ifg (b a : Operand) : InlineCount.Statement (.ifg b a) := encode_length

theorem InlineCount.ifa (b a : Operand) : InlineCount.Statement (.ifa b a) := encode_length

theorem InlineCount.ifl (b a : Operand) : InlineCount.Statement (.ifl b a) := encode_length

theorem InlineCount.ifu (b a : Operand) : InlineCount.Statement (.ifu b a) := encode_length

theorem InlineCount.adx (b a : Operand) : InlineCount.Statement (.adx b a) := encode_length

theorem InlineCount.sbx (b a : Operand) : InlineCount.Statement (.sbx b a) := encode_length

theorem InlineCount.sti (b a : Operand) : InlineCount.Statement (.sti b a) := encode_length

theorem InlineCount.std (b a : Operand) : InlineCount.Statement (.std b a) := encode_length

theorem InlineCount.jsr (a : Operand) : InlineCount.Statement (.jsr a) := encode_length

theorem InlineCount.int (a : Operand) : InlineCount.Statement (.int a) := encode_length

theorem InlineCount.iag (a : Operand) : InlineCount.Statement (.iag a) := encode_length

theorem InlineCount.ias (a : Operand) : InlineCount.Statement (.ias a) := encode_length

theorem InlineCount.rfi (a : Operand) : InlineCount.Statement (.rfi a) := encode_length

theorem InlineCount.iaq (a : Operand) : InlineCount.Statement (.iaq a) := encode_length

theorem InlineCount.hwn (a : Operand) : InlineCount.Statement (.hwn a) := encode_length

theorem InlineCount.hwq (a : Operand) : InlineCount.Statement (.hwq a) := encode_length

theorem InlineCount.hwi (a : Operand) : InlineCount.Statement (.hwi a) := encode_length

end Sys2Proof.Laws
end

