-- ==== Sys2Proof/Tests/Slice0.lean ====
section
/-! SUPPORT. Tests: the WellFormed smoke, one word of every instruction written out from 30_encoding.md, vectors of
95_test_vectors.md, and for every statement with hypotheses a witness that meets them. -/

namespace Sys2Proof.Tests

open Sys2Proof Sys2Proof.Machine Sys2Proof.Claims

/-! ## Helpers -/

/-- Power-on with `kinds` attached and `ws` loaded at address 0. -/
def machineWith (kinds : List Config.DeviceKind) (ws : List Word) : State :=
  (State.powerOn kinds).setMem (Memory.loadWords ws [])

/-- Power-on without devices and `ws` loaded at address 0. -/
def machine (ws : List Word) : State := machineWith [] ws

/-- What is seen of the state after one step, none if the step does not complete. -/
def after {α : Type} (s : State) (view : State → α) : Option α :=
  match step s with
  | .next t => some (view t)
  | _ => none

/-- The cycles of the first instruction by the table of 41_executor.md R191, 0 where none decodes. The vectors of
95_test_vectors.md assume that table, which the machine's own costs need not follow. -/
def tableCycles (ws : List Word) : Nat :=
  match decode ws with
  | .ok (i, _) => tableCost i + (inlineWords i).length
  | .error _ => 0

/-- A, EX and the table's cycles after `OP A, v` with the inline literal v, from A and EX. -/
def afterAlu (op a v ex : Word) : Option (Word × Word × Nat) :=
  after (((machine [0x7C00 ||| op, v]).setReg .a a).setEx ex) fun t =>
    (t.reg .a, t.ex, tableCycles [0x7C00 ||| op, v])

/-- PC after a step from A and B. -/
def afterTest (ws : List Word) (a b : Word) : Option Word := after (((machine ws).setReg .a a).setReg .b b) (·.pc)

/-! ## WellFormed -/

/-- The one check: a short literal cannot stand in the b position (30_encoding.md R103). -/
theorem test_short_literal_in_b_is_ill_formed : (Instr.set (.short 0) (.reg .a)).wellFormed = false := by decide

theorem test_short_literal_in_a_is_well_formed : (Instr.set (.reg .a) (.short 31)).wellFormed = true := by decide

/-! ## One word of every instruction, as `aaaaaa_bbbbb_ooooo` (30_encoding.md R101, R102, R106, R109, R110) -/

theorem test_decode_set : decode [0b011111_00000_00001, 0x0005] = .ok (.set (.reg .a) (.lit 5), []) := by decide

theorem test_decode_add : decode [0b011110_11110_00010, 0x2000, 0x1000] = .ok (.add (.abs 0x1000) (.abs 0x2000), []) := by decide

theorem test_decode_sub : decode [0b100010_11100_00011] = .ok (.sub .pc (.short 2), []) := by decide

theorem test_decode_mul : decode [0b001000_00001_00100] = .ok (.mul (.reg .b) (.ind .a), []) := by decide

theorem test_decode_mli : decode [0b010001_00010_00101, 0xFFFF] = .ok (.mli (.reg .c) (.idx .b 0xFFFF), []) := by decide

theorem test_decode_div : decode [0b011001_00011_00110] = .ok (.div (.reg .x) .peek, []) := by decide

theorem test_decode_dvi : decode [0b011010_00100_00111, 0x0003] = .ok (.dvi (.reg .y) (.pick 3), []) := by decide

theorem test_decode_mod : decode [0b011011_00101_01000] = .ok (.mod (.reg .z) .sp, []) := by decide

theorem test_decode_mdi : decode [0b011100_00110_01001] = .ok (.mdi (.reg .i) .pc, []) := by decide

theorem test_decode_and : decode [0b011101_00111_01010] = .ok (.and (.reg .j) .ex, []) := by decide

theorem test_decode_bor : decode [0b100000_01001_01011] = .ok (.bor (.ind .b) (.short 0), []) := by decide

theorem test_decode_xor : decode [0b111111_01011_01100] = .ok (.xor (.ind .x) (.short 31), []) := by decide

theorem test_decode_shr : decode [0b000011_10010_01101, 0x0007] = .ok (.shr (.idx .c 7) (.reg .x), []) := by decide

theorem test_decode_asr : decode [0b010000_10111_01110, 0x0002, 0x0001] = .ok (.asr (.idx .j 1) (.idx .a 2), []) := by decide

theorem test_decode_shl : decode [0b011000_11000_01111] = .ok (.shl .stack .stack, []) := by decide

theorem test_decode_ifb : decode [0b000100_11001_10000] = .ok (.ifb .peek (.reg .y), []) := by decide

theorem test_decode_ifc : decode [0b000101_11010_10001, 0x0008] = .ok (.ifc (.pick 8) (.reg .z), []) := by decide

theorem test_decode_ife : decode [0b100101_00000_10010] = .ok (.ife (.reg .a) (.short 5), []) := by decide

theorem test_decode_ifn : decode [0b000110_11011_10011] = .ok (.ifn .sp (.reg .i), []) := by decide

theorem test_decode_ifg : decode [0b000111_11101_10100] = .ok (.ifg .ex (.reg .j), []) := by decide

theorem test_decode_ifa : decode [0b001001_11111_10101, 0x0009] = .ok (.ifa (.lit 9) (.ind .b), []) := by decide

theorem test_decode_ifl : decode [0b010110_01111_10110, 0x0004] = .ok (.ifl (.ind .j) (.idx .i 4), []) := by decide

theorem test_decode_ifu : decode [0b001101_01110_10111] = .ok (.ifu (.ind .i) (.ind .z), []) := by decide

theorem test_decode_adx : decode [0b000001_00000_11010] = .ok (.adx (.reg .a) (.reg .b), []) := by decide

theorem test_decode_sbx : decode [0b000010_10000_11011, 0x0001] = .ok (.sbx (.idx .a 1) (.reg .c), []) := by decide

theorem test_decode_sti : decode [0b001111_01110_11110] = .ok (.sti (.ind .i) (.ind .j), []) := by decide

theorem test_decode_std : decode [0b001110_01111_11111] = .ok (.std (.ind .j) (.ind .i), []) := by decide

theorem test_decode_jsr : decode [0b011111_00001_00000, 0x1234] = .ok (.jsr (.lit 0x1234), []) := by decide

theorem test_decode_int : decode [0b000000_01000_00000] = .ok (.int (.reg .a), []) := by decide

theorem test_decode_iag : decode [0b011000_01001_00000] = .ok (.iag .stack, []) := by decide

theorem test_decode_ias : decode [0b101011_01010_00000] = .ok (.ias (.short 11), []) := by decide

theorem test_decode_rfi : decode [0b100001_01011_00000] = .ok (.rfi (.short 1), []) := by decide

theorem test_decode_iaq : decode [0b011110_01100_00000, 0x0006] = .ok (.iaq (.abs 6), []) := by decide

theorem test_decode_hwn : decode [0b001010_10000_00000] = .ok (.hwn (.ind .c), []) := by decide

theorem test_decode_hwq : decode [0b010100_10001_00000, 0x0002] = .ok (.hwq (.idx .y 2), []) := by decide

theorem test_decode_hwi : decode [0b100010_10010_00000] = .ok (.hwi (.short 2), []) := by decide

/-- The basic opcodes without an instruction (30_encoding.md R112). -/
theorem test_unassigned_basic :
    ([0x0018, 0x0019, 0x001C, 0x001D] : List Word).map (fun w => decode [w]) =
      [.error (.illegal 0x18), .error (.illegal 0x19), .error (.illegal 0x1C), .error (.illegal 0x1D)] := by decide

/-- Special opcodes at the edges of the unassigned ranges (30_encoding.md R112). -/
theorem test_unassigned_special :
    ([0x0000, 0x0040, 0x00E0, 0x01A0, 0x01E0, 0x0260, 0x03E0] : List Word).map (fun w => decode [w]) =
      [.error (.illegal 0x00), .error (.illegal 0x02), .error (.illegal 0x07), .error (.illegal 0x0D),
        .error (.illegal 0x0F), .error (.illegal 0x13), .error (.illegal 0x1F)] := by decide

/-- A row of the opcode table, its operand words zeros. -/
theorem test_decodeTableWord : decodeTableWord 16 0x7FE1 = some (.set (.lit 0) (.lit 0)) := by decide

theorem test_encode : encode (.add (.abs 0x1000) (.abs 0x2000)) = [0x7BC2, 0x2000, 0x1000] := by decide

/-! ## Vectors of 95_test_vectors.md, one step each -/

/-- V-S1, first step; V-A8: a literal destination is discarded. -/
theorem test_set : after (machine [0x7C01, 0x0005]) (fun t => (t.reg .a, t.pc, tableCycles [0x7C01, 0x0005])) = some (5, 2, 2) := by decide

theorem test_set_literal_destination :
    after ((machine [0x03E1, 0x0005]).setReg .a 7) (fun t => (t.reg .a, t.pc, t.mem)) =
      some (7, 2, [(0, 0x03E1), (1, 5)]) := by decide

/-- V-A1: SP is read before the push moves it. -/
theorem test_push_sp :
    after ((machine [0x6F01]).setSp 0x1000) (fun t => (t.sp, t.readMem 0x0FFF)) = some (0x0FFF, 0x1000) := by decide

/-- V-A2: POP before PUSH. -/
theorem test_push_pop :
    after (((machine [0x6301]).setSp 0x1000).writeMem 0x1000 0xAAAA) (fun t => (t.sp, t.readMem 0x1000)) =
      some (0x1000, 0xAAAA) := by decide

/-- V-A3 and V-A4: register + next word and SP + next word wrap. -/
theorem test_indexed_wraps :
    after (((machine [0x4401, 0x0010]).setReg .b 0xFFFF).writeMem 0x000F 0x7777) (fun t => (t.reg .a, t.pc)) =
      some (0x7777, 2) := by decide

theorem test_pick_wraps :
    after (((machine [0x0341, 0x0001]).setSp 0xFFFF).setReg .a 9) (fun t => (t.readMem 0, t.sp, t.pc)) =
      some (9, 0xFFFF, 2) := by decide

theorem test_add_1 : afterAlu 0x02 0xFFFF 0x0001 0x0000 = some (0x0000, 0x0001, 3) := by decide

theorem test_add_2 : afterAlu 0x02 0x1234 0x0000 0x0055 = some (0x1234, 0x0000, 3) := by decide

theorem test_sub_1 : afterAlu 0x03 0x0000 0x0001 0x0000 = some (0xFFFF, 0xFFFF, 3) := by decide

theorem test_sub_2 : afterAlu 0x03 0x8000 0x0001 0x0000 = some (0x7FFF, 0x0000, 3) := by decide

theorem test_mul_1 : afterAlu 0x04 0xFFFF 0xFFFF 0x0000 = some (0x0001, 0xFFFE, 3) := by decide

theorem test_mul_2 : afterAlu 0x04 0x8000 0x0002 0x0000 = some (0x0000, 0x0001, 3) := by decide

theorem test_mli_1 : afterAlu 0x05 0x8000 0x0002 0x0000 = some (0x0000, 0xFFFF, 3) := by decide

theorem test_mli_2 : afterAlu 0x05 0x7FFF 0x7FFF 0x0000 = some (0x0001, 0x3FFF, 3) := by decide

theorem test_div_1 : afterAlu 0x06 0x0007 0x0002 0x0000 = some (0x0003, 0x8000, 4) := by decide

theorem test_div_2 : afterAlu 0x06 0x1234 0x0000 0x0055 = some (0x0000, 0x0000, 4) := by decide

theorem test_dvi_1 : afterAlu 0x07 0xFFF9 0x0002 0x0000 = some (0xFFFD, 0x8000, 4) := by decide

theorem test_dvi_2 : afterAlu 0x07 0x8000 0xFFFF 0x0000 = some (0x8000, 0x0000, 4) := by decide

theorem test_mod_1 : afterAlu 0x08 0xFFFF 0x0010 0x0055 = some (0x000F, 0x0055, 4) := by decide

theorem test_mod_2 : afterAlu 0x08 0x1234 0x0000 0x0055 = some (0x0000, 0x0055, 4) := by decide

theorem test_mdi_1 : afterAlu 0x09 0xFFF9 0x0010 0x0055 = some (0xFFF9, 0x0055, 4) := by decide

theorem test_mdi_2 : afterAlu 0x09 0x0007 0xFFF0 0x0055 = some (0x0007, 0x0055, 4) := by decide

theorem test_and_1 : afterAlu 0x0A 0x1234 0x0F0F 0x0055 = some (0x0204, 0x0055, 2) := by decide

theorem test_bor_1 : afterAlu 0x0B 0x1234 0x0F0F 0x0055 = some (0x1F3F, 0x0055, 2) := by decide

theorem test_xor_1 : afterAlu 0x0C 0x1234 0x0F0F 0x0055 = some (0x1D3B, 0x0055, 2) := by decide

theorem test_shr_1 : afterAlu 0x0D 0x1234 0x0014 0x0000 = some (0x0000, 0x0123, 2) := by decide

theorem test_shr_2 : afterAlu 0x0D 0x1234 0x0021 0x0000 = some (0x091A, 0x0000, 2) := by decide

theorem test_asr_1 : afterAlu 0x0E 0x8000 0x0004 0x0000 = some (0xF800, 0x0000, 2) := by decide

theorem test_asr_2 : afterAlu 0x0E 0x8000 0x0011 0x0000 = some (0xFFFF, 0xC000, 2) := by decide

theorem test_shl_1 : afterAlu 0x0F 0x1234 0x0004 0x0000 = some (0x2340, 0x0001, 2) := by decide

theorem test_shl_2 : afterAlu 0x0F 0x0002 0x001F 0x0000 = some (0x0000, 0x0000, 2) := by decide

theorem test_adx_1 : afterAlu 0x1A 0xFFFF 0xFFFF 0xFFFF = some (0xFFFD, 0x0001, 4) := by decide

theorem test_adx_2 : afterAlu 0x1A 0xFFFF 0x0000 0x0001 = some (0x0000, 0x0001, 4) := by decide

theorem test_sbx_1 : afterAlu 0x1B 0x0000 0x0001 0x0000 = some (0xFFFF, 0x0001, 4) := by decide

theorem test_sbx_2 : afterAlu 0x1B 0x0000 0x0000 0xFFFF = some (0xFFFF, 0x0000, 4) := by decide

/-- V-SBX3: above 0xFFFF the result is fixed and EX is the parameter SBX_EX_ABOVE. -/
theorem test_sbx_above :
    afterAlu 0x1B 5 3 0xFFFF = some (1, if Config.sbxExAbove then 1 else 0, 4) := by rfl

/-- V-STI1: b's value goes to a's location. -/
theorem test_sti :
    after ((((machine [0x39FE]).setReg .i 0x0100).setReg .j 0x0200).writeMem 0x0200 0xBEEF)
      (fun t => (t.readMem 0x0100, t.reg .i, t.reg .j, tableCycles [0x39FE])) = some (0xBEEF, 0x0101, 0x0201, 2) := by decide

/-- 42_alu.md R246: where a is I the write comes first and the increment applies to the written value. -/
theorem test_sti_into_i :
    after ((machine [0b000110_00000_11110]).setReg .a 0x0041) (fun t => (t.reg .i, t.reg .j)) = some (0x0042, 1) := by
  decide

/-- V-STD1. -/
theorem test_std :
    after (((((machine [0x041F]).setReg .a 1).setReg .b 2).setReg .i 0).setReg .j 5)
      (fun t => (t.reg .a, t.reg .b, t.reg .i, t.reg .j)) = some (1, 1, 0xFFFF, 4) := by decide

/-- V-IF1 to V-IF12. -/
theorem test_ife_true : afterTest [0x0012, 0x8801] 0 0 = some 1 := by decide

theorem test_ifn_skips_a_chain :
    afterTest [0x0013, 0x8812, 0x8813, 0x8814, 0x7C20, 0x1234, 0x8801] 0 0 = some 6 := by decide

/-- The skip of the vector before: four instructions passed. -/
theorem test_skip_counts_instructions :
    skip (machine [0x0013, 0x8812, 0x8813, 0x8814, 0x7C20, 0x1234, 0x8801]).mem 1 = .passed 6 4 ∧
      tableCycles [0x0013] + 4 = 6 := by decide

theorem test_ifg : afterTest [0x0414] 0x8000 1 = some 1 := by decide

theorem test_ifa : afterTest [0x0415, 0x8801] 0x8000 1 = some 2 := by decide

theorem test_ifl : afterTest [0x0416] 1 0x8000 = some 1 := by decide

theorem test_ifu : afterTest [0x0417, 0x8801] 1 0x8000 = some 2 := by decide

theorem test_ifb : afterTest [0x0410, 0x8801] 0x00F0 0x0F00 = some 2 := by decide

theorem test_ifc : afterTest [0x0411] 0x00F0 0x0F00 = some 1 := by decide

theorem test_skip_meets_illegal_word :
    after (machine [0x8812, 0x8812, 0x0000]) (fun t => (t.fault, t.pc, t.cyc)) =
      some (some { code := 0, pc := 2 }, 2, 0) := by decide

theorem test_failed_test_pops :
    after (((machine [0x6010, 0x8801]).setSp 0x1000).setReg .a 0xFFFF) (fun t => (t.sp, t.pc)) =
      some (0x1001, 2) := by decide

/-- V-JSR1 and V-JSR2. -/
theorem test_jsr :
    after (machine [0x7C20, 0x1234]) (fun t => (t.pc, t.sp, t.readMem 0xFFFF, tableCycles [0x7C20, 0x1234])) =
      some (0x1234, 0xFFFF, 2, 4) := by decide

theorem test_jsr_pop :
    after (((machine [0x6020]).setSp 0x1000).writeMem 0x1000 0x0040) (fun t => (t.pc, t.sp, t.readMem 0x1000)) =
      some (0x0040, 0x1000, 1) := by decide

/-- V-INT1: the message waits behind the one before it. -/
theorem test_int :
    after ((((machine [0x0100]).setReg .a 7).setIa 0x0200).setIfq [9])
      (fun t => ((t.sp, t.readMem 0xFFFF, t.readMem 0xFFFE), (t.pc, t.reg .a), (t.iq, t.ifq))) =
      some ((0xFFFE, 1, 7), (0x0200, 9), (true, [7])) := by decide

/-- V-IAG2: the write overwrites the instruction's own word. -/
theorem test_iag :
    after ((machine [0x6120]).setIa 0x1234) (fun t => (t.readMem 0, t.sp, tableCycles [0x6120])) = some (0x1234, 1, 1) := by decide

/-- V-IAS1. -/
theorem test_ias : after (machine [0xAD40]) (fun t => (t.ia, tableCycles [0xAD40])) = some (10, 1) := by decide

/-- V-RFI1: the return, and the delivery after it. -/
theorem test_rfi :
    after (((((((machine [0x8560]).setSp 0xFFFE).writeMem 0xFFFE 1).writeMem 0xFFFF 3).setIq true).setIa 0x0300).setIfq
        [0x33]) (fun t => ((t.sp, t.readMem 0xFFFF, t.readMem 0xFFFE), (t.pc, t.reg .a), (t.iq, t.ifq))) =
      some ((0xFFFE, 3, 1), (0x0300, 0x33), (true, [])) := by decide

/-- V-IAQ1 and V-IAQ2. -/
theorem test_iaq : after (machine [0x8D80]) (fun t => (t.iq, tableCycles [0x8D80])) = some (true, 2) := by decide

theorem test_iaq_zero_delivers :
    after ((((machine [0x8580]).setIq true).setIfq [5]).setIa 0x40) (fun t => (t.sp, t.pc, t.reg .a, t.iq, t.ifq)) =
      some (0xFFFE, 0x40, 5, true, []) := by decide

/-- V-HWN1 and V-HWN2. -/
theorem test_hwn : after (machineWith [.keyboard] [0x0200]) (fun t => (t.reg .a, tableCycles [0x0200])) = some (1, 2) := by decide

theorem test_hwn_literal : after (machineWith [.keyboard] [0x9A00]) (fun t => (t.regs, t.pc)) =
    some ((machine []).regs, 1) := by decide

/-- V-HWQ1, with the identity's fields as the parameter has them, and V-HWQ2. -/
theorem test_hwq :
    after (machineWith [.keyboard] [0x0220]) (fun t => (t.reg .a, t.reg .b, t.reg .c, t.reg .x, t.reg .y)) =
      some (Config.idKeyboard.hardware.extractLsb' 0 16, Config.idKeyboard.hardware.extractLsb' 16 16,
        Config.idKeyboard.version, Config.idKeyboard.manufacturer.extractLsb' 0 16,
        Config.idKeyboard.manufacturer.extractLsb' 16 16) := by rfl

theorem test_hwq_out_of_range :
    after (((machineWith [.keyboard] [0x9A20]).setReg .a 1).setReg .y 5) (fun t => (t.reg .a, t.reg .y, tableCycles [0x9A20])) =
      some (0, 0, 4) := by decide

/-- V-HWI1 and V-HWI2. -/
theorem test_hwi_pops_a_key :
    after ((((machineWith [.keyboard] [0x8640]).keyDown 0x41)).setReg .a 1) (fun t => (t.reg .c, tableCycles [0x8640])) =
      some (0x41, 4) := by decide

theorem test_hwi_out_of_range :
    after (((machineWith [.keyboard] [0x9240]).setReg .a 1).setReg .c 9) (fun t => (t.reg .c, tableCycles [0x9240])) =
      some (9, 4) := by decide

/-- V-F1: no dispatch after a fault. -/
theorem test_illegal_word :
    after ((machine [0x0018]).setIfq [1]) (fun t => (t.fault, t.pc, t.ifq, t.cyc)) =
      some (some { code := 0x18, pc := 0 }, 1, [1], 0) := by decide

/-- An instruction and its inline word across the top of the address space (20_memory.md R74). -/
theorem test_fetch_wraps :
    after (((machine [0x0005]).writeMem 0xFFFF 0x7C01).setPc 0xFFFF) (fun t => (t.reg .a, t.pc)) = some (5, 1) := by
  decide

/-- The host's placement runs as the first step after power-on. -/
theorem test_withFetchWord :
    after ((machine []).withFetchWord 16 0x8801) (fun t => (t.reg .a, t.pc)) = some (1, 1) := by decide

/-! ## Devices, ticks, the scheduler, the snapshot -/

/-- V-CLK1, V-CLK2: armed at T = 10 with B = 60; the tick at 11 counts and enqueues, the one before does not. -/
theorem test_clock_ticks :
    let armed := ({ divisor := 0, deadline := 0, ticks := 0, message := 0x42 } : Clock).command
      { a := 0, b := 60, c := 0, x := 0, y := 0, z := 0, i := 0, j := 0 } 10
    armed.1.tick (21 / 2) = (armed.1, []) ∧
      armed.1.tick 11 = ({ divisor := 60, deadline := 12, ticks := 1, message := 0x42 }, [0x42]) := by decide +kernel

/-- Key events reach the Keyboard of the machine (70_reset_and_hazards.md R523). -/
theorem test_key_reaches_the_machine :
    let s := (machineWith [.keyboard] []).keyDown 0x41
    s.devices = [.keyboard { queue := [0x41], down := [0x41], message := 0, edge := true }] ∧
      (s.keyUp 0x41).devices = [.keyboard { queue := [0x41], down := [], message := 0, edge := true }] := by decide

/-- V-KB5 and V-KB7. -/
theorem test_keyboard_tick :
    let down := (({ queue := [], down := [], message := 0x55, edge := false } : Keyboard).keyDown 0x41).keyDown 0x42
    down.tick.2 = [0x55] ∧ down.tick.1.tick.2 = [] ∧ down.queue = [0x41, 0x42] := by decide

/-- V-KB6: the oldest key is dropped beyond 100. -/
theorem test_keyboard_capacity :
    (({ queue := (List.range 100).map (BitVec.ofNat 16), down := [], message := 0, edge := false } :
      Keyboard).keyDown 100).queue.map BitVec.toNat = (List.range 100).map (· + 1) := by decide +kernel

/-- 47_device_display.md R428: a glyph, and the blink phase at T = 0.7. -/
theorem test_display_pixels :
    let d : Display := { vram := 0x8000, font := 0x9000, pal := 0xA000 }
    let m : Memory := [(0x8000, 0xF041), (0x9082, 0xFF09), (0x9083, 0x0900), (0xA00F, 0x0FFF)]
    let blinking : Memory := [(0x8000, 0xF0C1), (0x9082, 0xFF09), (0x9083, 0x0900), (0xA00F, 0x0FFF)]
    ([(0, 0), (1, 0), (1, 1), (1, 3), (3, 0)] : List (Nat × Nat)).map (fun p => d.pixelAt m (1 / 2) 0 p.1 p.2) =
        [0xFFFFFF, 0xFFFFFF, 0, 0xFFFFFF, 0] ∧
      d.pixelAt blinking (1 / 2) (7 / 10) 0 0 = 0 ∧ d.pixelAt blinking (1 / 2) (6 / 5) 0 0 = 0xFFFFFF := by
  decide +kernel

/-- 70_reset_and_hazards.md R521: the device tick comes before the instructions, a decode error ends the loop, and the
grant, clamped to one second, is not charged for it. -/
theorem test_scheduler_decode_error :
    let s := { machine [0x0018] with last := some 0, time := 5 }
    let done := s.invokeWith 100 .floor
    (done.state.bal, done.state.pc, done.verdict) = (100, 1, .failed { code := 0x18, pc := 0 }) := by decide +kernel

/-- V-SNP3: a stream with one memory word. -/
theorem test_deserialise :
    let bytes : List Byte := [0xED, 0xB1, 0xAB, 0x0D, 5, 0] ++ List.replicate 22 0 ++ [0] ++ [0, 0, 0, 0] ++ [1, 0, 0, 0] ++
      [1, 0x7C]
    let r := ({ machine [1, 2, 3] with iq := true }).deserialise bytes
    (r.1.reg .a, r.1.mem, r.1.iq, r.2) = (5, [(0, 0x7C01)], false, true) := by decide +kernel

/-- 70_reset_and_hazards.md R514: the first 41 bytes. -/
theorem test_serialise :
    let s := (((machine [0x7C01]).setReg .a 5).setIq true).setIfq [7]
    s.serialise.take 41 = [0xED, 0xB1, 0xAB, 0x0D, 5, 0] ++ List.replicate 22 0 ++ [1] ++ [1, 0, 0, 0] ++ [7, 0] ++
      [0, 0, 1, 0] ++ [1, 0x7C] := by decide +kernel

/-- 70_reset_and_hazards.md R503: big-endian load, and an odd trailing byte ignored. -/
theorem test_loadProgram :
    ((machine []).loadProgram true [0x7C, 0x01, 0x00, 0x05, 0x00, 0x21, 0xFF]).mem = [(0, 0x7C01), (1, 5), (2, 0x21)] := by
  decide

/-! ## Witnesses: for every statement with hypotheses, concrete values that meet them, clause by clause -/

theorem witness_DecodingAnEncodedInstructionGivesItBack :
    (Instr.set (.reg .a) (.short 31)).wellFormed = true ∧ (Instr.add (.abs 0x1000) (.lit 0xFFFF)).wellFormed = true := by
  decide

theorem witness_EncodingADecodedInstructionGivesItsWords :
    decode [0x0021] = .ok (.set (.reg .b) (.reg .a), []) ∧
      decode [0x7BC2, 0x2000, 0x1000, 9] = .ok (.add (.abs 0x1000) (.abs 0x2000), [9]) := by decide

/-- 30_encoding.md R111 and R112, at the edges of the ranges: op 0x0F, 0x10, 0x17, 0x18 and sop 0x07, 0x08, 0x12, 0x13. -/
theorem test_conditional_and_illegal_words :
    ([0x000F, 0x0010, 0x0017, 0x0018] : List Word).map isConditional = [false, true, true, false] ∧
      ([0x0017, 0x0018, 0x001D, 0x00E0, 0x0100, 0x0240, 0x0260, 0x0000] : List Word).map illegalCode =
        [none, some 0x18, some 0x1D, some 0x07, none, none, some 0x13, some 0] := by
  decide

/-- Instructions of one, two and three words in memory, none a conditional. -/
theorem witness_FirstWordGivesTheLength :
    ∀ w ∈ ([0x0021, 0x7C20, 0x7BC2] : List Word), illegalCode ((machine [w]).mem.read 0) = none ∧
      isConditional ((machine [w]).mem.read 0) = false := by
  intro w hw
  fin_cases hw <;> decide

/-- The four clauses of the next witness, of the word at PC of a machine. -/
def wordAtPc (w : Word) : Nat := ((machine [w]).readMem (machine [w]).pc).toNat

theorem witness_UnassignedOpcodesAreDecodeErrors :
    (∀ w, (machine [w]).fault = none) ∧
      (∀ w ∈ ([0x0018, 0x0019, 0x001C, 0x001D] : List Word), unassignedBasic (wordAtPc w % 32)) ∧
      (∀ w ∈ ([0x0000, 0x0040, 0x00E0, 0x01A0, 0x01E0, 0x0260, 0x03E0] : List Word),
        wordAtPc w % 32 = 0 ∧ unassignedSpecial (wordAtPc w / 32 % 32)) ∧
      (∀ w ∈ ([0x0001, 0x0017, 0x001A, 0x001B, 0x001E, 0x0020, 0x0100, 0x0180, 0x0200, 0x0240] : List Word),
        ¬unassignedBasic (wordAtPc w % 32) ∧ ¬(wordAtPc w % 32 = 0 ∧ unassignedSpecial (wordAtPc w / 32 % 32))) ∧
      wordAtPc 0 = 0 := by
  unfold unassignedBasic unassignedSpecial
  refine ⟨fun _ => rfl, ?_, ?_, ?_, by decide⟩
  all_goals
    intro w hw
    fin_cases hw <;> decide

/-- Every clause of the code table has its code: the first and the last register, and each single code. -/
theorem witness_ResolverFollowsTheCodeTable :
    ([.a, .b, .c, .x, .y, .z, .i, .j] : List Reg)[0]? = some .a ∧
      ([.a, .b, .c, .x, .y, .z, .i, .j] : List Reg)[7]? = some .j ∧
      ∀ code < 64, (BitVec.ofNat 6 code).toNat = code := by decide

theorem witness_SetWritesTheSourceValue : (Instr.set (.lit 5) (.short 31)).wellFormed = true := by decide

/-- Each of the eight conditionals has operands whose test holds and operands whose test fails. -/
theorem witness_TrueTestRunsOn :
    ∀ mk op P, IsConditional mk op P →
      let r := fun x y : Word => (machine []).resolveBoth (.lit x) (.lit y)
      (∃ x y, P (r x y).vb (r x y).va) ∧ ∃ x y, ¬P (r x y).vb (r x y).va := by
  intro mk op P h
  cases h
  · exact ⟨⟨1, 1, by decide⟩, 1, 2, by decide⟩
  · exact ⟨⟨1, 2, by decide⟩, 1, 1, by decide⟩
  · exact ⟨⟨1, 1, by decide⟩, 1, 2, by decide⟩
  · exact ⟨⟨1, 2, by decide⟩, 1, 1, by decide⟩
  · exact ⟨⟨2, 1, by decide⟩, 1, 1, by decide⟩
  · exact ⟨⟨1, 0xFFFF, by decide⟩, 1, 1, by decide⟩
  · exact ⟨⟨1, 2, by decide⟩, 1, 1, by decide⟩
  · exact ⟨⟨0xFFFF, 1, by decide⟩, 1, 1, by decide⟩

/-- Two inline literals from PC = 0 leave PC at `IFN A, B` and then `SET A, 5`, from PC = 1 at the SET. -/
def beforeChain (pc : Word) : State := (machine [0, 0, 0x0413, 0x7C01, 5]).setPc pc

/-- For each conditional: a failed test with a chain of one conditional, and with none. -/
theorem witness_FalseTestSkipsTheChain :
    ∀ mk op P, IsConditional mk op P → ∃ b a, ∀ n ≤ 1,
      let s := beforeChain (1 - BitVec.ofNat 16 n)
      let r := s.resolveBoth b a
      ¬P r.vb r.va ∧ chainPasses s.mem r.st.pc n ∧
        illegalCode (s.readMem (skipPath s.mem r.st.pc n)) = none ∧
        isConditional (s.readMem (skipPath s.mem r.st.pc n)) = false := by
  unfold chainPasses
  intro mk op P h
  cases h
  · exact ⟨.lit 1, .lit 2, by decide⟩
  · exact ⟨.lit 1, .lit 1, by decide⟩
  · exact ⟨.lit 1, .lit 2, by decide⟩
  all_goals exact ⟨.lit 1, .lit 1, by decide⟩

/-- As `beforeChain`, with an illegal word where the SET was. -/
def beforeIllegal (pc : Word) : State := (machine [0, 0, 0x0413, 0x0018]).setPc pc

theorem witness_SkipMeetingAnIllegalWordFaults :
    ∀ mk op P, IsConditional mk op P → ∃ b a, ∀ n ≤ 1,
      let s := beforeIllegal (1 - BitVec.ofNat 16 n)
      let r := s.resolveBoth b a
      ¬P r.vb r.va ∧ chainPasses s.mem r.st.pc n ∧
        illegalCode (s.readMem (skipPath s.mem r.st.pc n)) = some 0x18 := by
  unfold chainPasses
  intro mk op P h
  cases h
  · exact ⟨.lit 1, .lit 2, by decide⟩
  · exact ⟨.lit 1, .lit 1, by decide⟩
  · exact ⟨.lit 1, .lit 2, by decide⟩
  all_goals exact ⟨.lit 1, .lit 1, by decide⟩

/-- Where every word is one conditional `v` a failed test is stuck. -/
theorem stuck_of_all_conditionals {s : State} {v : Word} (legal : illegalCode v = none) (test : isConditional v = true)
    (h : ∀ p, s.mem.read p = v) :
    ¬((s.resolveBoth (.reg .a) (.reg .a)).vb ≠ (s.resolveBoth (.reg .a) (.reg .a)).va) ∧
      chainNeverEnds s.mem (s.resolveBoth (.reg .a) (.reg .a)).st.pc ∧
        exec (.ifn (.reg .a) (.reg .a)) s = .fault .skipNeverEnds := by
  have never : ∀ p, chainNeverEnds s.mem p := by
    intro p n k _
    rw [h]
    exact ⟨legal, test⟩
  refine ⟨fun e => e rfl, never _, ?_⟩
  rcases conditional_cases notEqual (cycles (.ifn (.reg .a) (.reg .a))) (.reg .a) (.reg .a) s with ⟨e, -⟩ | ⟨-, e⟩
  · simp [State.resolveBoth, State.resolve, State.readLoc, notEqual] at e
  · rcases skipFrom_cases s.mem skipLimit (s.resolveBoth (.reg .a) (.reg .a)).st.pc 0 with
      ⟨n, -, -, -, c, -⟩ | ⟨n, -, code, -, c, -⟩ | ⟨-, c⟩
    · rw [h, test] at c
      cases c
    · rw [h, legal] at c
      cases c
    · rcases e with ⟨p, k, e, -⟩ | ⟨code, p, e, -⟩ | ⟨-, e⟩
      · cases e.symm.trans c
      · cases e.symm.trans c
      · exact e

theorem read_replicate (v p : Word) (n : Nat) (h : p.toNat < n) :
    (Memory.loadWords (List.replicate n v) []).read p = v := by
  rw [Memory.read_loadWords, List.length_replicate, if_pos h, List.getD_eq_getElem?_getD, List.getElem?_replicate,
    if_pos h, Option.getD_some]

/-- There is a memory full of `IFE A, A`: an endless chain, before which a failed test is stuck. -/
theorem witness_EndlessChainIsStuckAndNothingElseIs :
    IsConditional .ifn 0x13 (fun vb va => vb ≠ va) ∧
      ∃ s : State, ¬((s.resolveBoth (.reg .a) (.reg .a)).vb ≠ (s.resolveBoth (.reg .a) (.reg .a)).va) ∧
        chainNeverEnds s.mem (s.resolveBoth (.reg .a) (.reg .a)).st.pc ∧
        exec (.ifn (.reg .a) (.reg .a)) s = .fault .skipNeverEnds := by
  refine ⟨.ifn, (machine []).setMem (Memory.loadWords (List.replicate 65536 0x0012) []), ?_⟩
  refine stuck_of_all_conditionals (v := 0x0012) (by decide) (by decide) fun p => ?_
  rw [State.setMem_mem]
  exact read_replicate 0x0012 p 65536 p.isLt

/-- Index 0 has a device of each kind, index 1 has none. -/
theorem witness_HwqReportsTheIdentity (kind : Config.DeviceKind) :
    let index := fun c => (((machineWith [kind] []).resolve .a (.short c)).2.readLoc
      ((machineWith [kind] []).resolve .a (.short c)).1).toNat
    (machineWith [kind] []).devices[index 1]? = some (powerOnDevice kind) ∧
      (machineWith [kind] []).devices[index 2]? = none := ⟨rfl, rfl⟩

theorem witness_HwiOutOfRangeHasNoEffect :
    (machineWith [.clock] []).devices[(((machineWith [.clock] []).resolve .a (.short 2)).2.readLoc
      ((machineWith [.clock] []).resolve .a (.short 2)).1).toNat]? = none := by decide

/-- Every kind of device is reached, with every selector in A and every argument in B. -/
theorem hwi_reaches (kind : Config.DeviceKind) (sel arg : Word) :
    let s := ((machineWith [kind] []).setReg .a sel).setReg .b arg
    HwiReaches (.short 1) s 0 (powerOnDevice kind) ∧ s.reg .a = sel ∧ s.reg .b = arg :=
  ⟨⟨rfl, rfl⟩, rfl, rfl⟩

theorem witness_HwiCommandsTheClock :
    ∃ k, ∀ sel ∈ ([0, 1, 2, 3, 0xFFFF] : List Word), ∀ arg ∈ ([0, 60] : List Word),
      ∃ s, HwiReaches (.short 1) s 0 (.clock k) ∧ s.reg .a = sel ∧ s.reg .b = arg :=
  ⟨_, fun sel _ arg _ => ⟨_, hwi_reaches .clock sel arg⟩⟩

/-- The queue empty, and with a key. -/
theorem witness_HwiCommandsTheKeyboard :
    ∀ sel ∈ ([0, 1, 2, 3, 4] : List Word),
      (∃ s k, HwiReaches (.short 1) s 0 (.keyboard k) ∧ s.reg .a = sel ∧ k.queue = []) ∧
        ∃ s k, HwiReaches (.short 1) s 0 (.keyboard k) ∧ s.reg .a = sel ∧ k.queue = [0x41] :=
  fun sel _ =>
    ⟨⟨_, _, ⟨rfl, rfl⟩, (hwi_reaches .keyboard sel 0).2.1, rfl⟩,
      ((machineWith [.keyboard] []).keyDown 0x41).setReg .a sel, _, ⟨rfl, rfl⟩, rfl, rfl⟩

theorem witness_HwiCommandsTheDisplay :
    ∃ d, ∀ sel ∈ ([0, 1, 2, 3, 4, 5, 6] : List Word),
      ∃ s, HwiReaches (.short 1) s 0 (.display d) ∧ s.reg .a = sel :=
  ⟨_, fun sel _ => ⟨_, (hwi_reaches .display sel 0).1, (hwi_reaches .display sel 0).2.1⟩⟩

theorem witness_IntEnqueuesItsOperand :
    ((machine []).setIq true).iq = true ∧ (machine []).iq = false ∧ (machine []).ifq = [] := by decide

theorem witness_DispatchDeliversTheOldestMessage :
    ((machine []).setIq true).iq = true ∧ (machine []).ifq = [] ∧
      ((machine []).setIfq [1, 2]).iq = false ∧ ((machine []).setIfq [1, 2]).ifq = 1 :: [2] := by decide

theorem witness_RfiUndoesDelivery :
    ((machine []).setIfq [1]).iq = false ∧ ((machine []).setIfq [1]).ifq = 1 :: [] := by decide

theorem witness_StepRunsTheDecodedInstruction :
    let s := machine [0x7BC2, 0x2000, 0x1000]
    s.fault = none ∧ decode [s.readMem s.pc, s.readMem (s.pc + 1), s.readMem (s.pc + 2)] =
      .ok (.add (.abs 0x1000) (.abs 0x2000), []) := by decide

theorem witness_DecodeErrorStopsTheCore :
    ((machine []).setFault (some { code := 0, pc := 0 })).fault = some { code := 0, pc := 0 } ∧
      (machine [0x001D]).fault = none ∧ illegalCode ((machine [0x001D]).readMem (machine [0x001D]).pc) = some 0x1D := by
  decide

/-- One device of each kind, and a program. -/
def fullMachine (ws : List Word) : State := machineWith [.clock, .keyboard, .display] ws

theorem fullMachine_wf (ws : List Word) : (fullMachine ws).wf where
  mem := Memory.wf_loadWords Memory.wf_nil ws
  devices := by simp [fullMachine, machineWith, State.powerOn, State.setMem, powerOnDevice, Device.wf]
  count := show 3 ≤ 65536 by decide
  time := le_refl _
  last := fun _ h => nomatch h

theorem witness_StepKeepsTheInvariant :
    (fullMachine [0x8801]).wf ∧ ∃ t, step (fullMachine [0x8801]) = .next t := ⟨fullMachine_wf _, _, rfl⟩

theorem witness_HostActionsKeepTheInvariant : (fullMachine [0x8801]).wf := fullMachine_wf _

/-- An HWI arms the Clock: DEVICES changes. -/
theorem witness_StepLeavesThePlatformAlone :
    ∃ t, step ((fullMachine [0x8640]).setReg .b 60) = .next t ∧
      t.devices ≠ ((fullMachine [0x8640]).setReg .b 60).devices := ⟨_, rfl, by decide +kernel⟩

theorem witness_OnlyIasWritesIa : ∃ t, step (machine [0xAD40]) = .next t ∧ t.ia ≠ (machine [0xAD40]).ia :=
  ⟨_, rfl, by decide⟩

/-- EX changed by SUB, SET EX, STI EX, IAG EX and HWN EX. -/
theorem witness_OnlyExWritersChangeEx :
    ∀ w ∈ ([0x8803, 0x8BA1, 0x741E, 0x7520, 0x7600] : List Word),
      ∃ t, step ((((fullMachine [w]).setReg .a 0).setEx 9).setIa 4) = .next t ∧ t.ex ≠ 9 := by
  intro w hw
  fin_cases hw <;> exact ⟨_, rfl, by decide⟩

/-- IQ changed by IAQ, by RFI, by the delivery after an INT, and by the delivery after an IAS. -/
theorem witness_OnlyIaqRfiAndDeliveryChangeIq :
    after (machine [0x8D80]) (·.iq) = some true ∧ after ((machine [0x8560]).setIq true) (·.iq) = some false ∧
      after (machine [0x0100]) (·.iq) = some true ∧ after ((machine [0xAD40]).setIfq [1]) (·.iq) = some true := by
  decide

/-- A message appended and kept, and one delivered. -/
theorem witness_FifoIsAppendedByIntAndDrainedFromTheHead :
    after ((machine [0x0100]).setIq true) (·.ifq) = some [0] ∧ after ((machine [0x8801]).setIfq [1]) (·.ifq) = some [] := by
  decide

theorem witness_CompletedStepsCostAtLeastOneCycle :
    after (machine [0x8801]) (·.fault) = some none ∧
      after (machine [0x0018]) (·.fault) = some (some { code := 0x18, pc := 0 }) := by decide

/-- Words 0 and 1 of the buffer held, word 2 beyond it, in both byte orders. -/
theorem witness_ProgramLoadWritesFromAddressZero :
    let bytes : List Byte := [1, 2, 3, 4, 5]
    ∀ _big : Bool, bytes[2 * (1 : Word).toNat]? = some 3 ∧ bytes[2 * (1 : Word).toNat + 1]? = some 4 ∧
      bytes[2 * (2 : Word).toNat + 1]? = none := by decide

theorem witness_SnapshotRoundTrip :
    (((fullMachine [0x7C01, 5]).setIfq [7])).mem.wf ∧ ((fullMachine [0x7C01, 5]).setIfq [7]).ifq.length < 2 ^ 31 :=
  ⟨(fullMachine_wf _).mem, by decide⟩

theorem witness_SnapshotBytesFollowTheLayout : ((machine []).setIfq [7]).ifq.length < 2 ^ 31 := by decide

/-- A stream of one message and one memory word, with a given magic, latch byte, queue count and memory length. -/
def stream (magic : List Byte) (latch : Byte) (q n : List Byte) : List Byte :=
  magic ++ List.replicate 24 1 ++ [latch] ++ q ++ [7, 0] ++ n ++ [1, 0x7C]

def magic : List Byte := [0xED, 0xB1, 0xAB, 0x0D]

/-- Streams without a format error: latch bytes 0, 1 and 255, and bytes after the memory array. -/
theorem witness_RestoreSetsTheMachineFromTheStream :
    ¬FormatError (stream magic 0 [1, 0, 0, 0] [1, 0, 0, 0]) ∧ ¬FormatError (stream magic 1 [1, 0, 0, 0] [1, 0, 0, 0]) ∧
      ¬FormatError (stream magic 255 [1, 0, 0, 0] [1, 0, 0, 0] ++ [9]) ∧
      byteAt (stream magic 255 [1, 0, 0, 0] [1, 0, 0, 0]) 28 = 255 ∧
      queueCount (stream magic 1 [1, 0, 0, 0] [1, 0, 0, 0]) = 1 ∧
      memoryLength (stream magic 1 [1, 0, 0, 0] [1, 0, 0, 0]) = 1 := by
  unfold FormatError
  decide +kernel

/-- A wrong magic, an empty stream, q = -1 and q = -2^31, n = 65537, n = -1, a memory array that ends early, and a stream
cut after a latch byte of 255. -/
theorem witness_MalformedSnapshotsLeaveTheMachineReset :
    FormatError (stream [0, 0, 0, 0] 0 [1, 0, 0, 0] [1, 0, 0, 0]) ∧ FormatError [] ∧
      FormatError (stream magic 0 [255, 255, 255, 255] [1, 0, 0, 0]) ∧
      FormatError (stream magic 0 [0, 0, 0, 128] [1, 0, 0, 0]) ∧
      FormatError (stream magic 0 [1, 0, 0, 0] [1, 0, 1, 0]) ∧
      FormatError (stream magic 0 [1, 0, 0, 0] [255, 255, 255, 255]) ∧
      FormatError (stream magic 0 [1, 0, 0, 0] [2, 0, 0, 0]) ∧
      FormatError ((stream magic 255 [1, 0, 0, 0] [1, 0, 0, 0]).take 29) := by
  unfold FormatError
  decide +kernel

/-- An empty queue, and a full one; a later time, and an earlier one. -/
theorem witness_KeyEventsUpdateQueueAndTable :
    ([] : List Word).length < 100 ∧ (List.replicate 100 (0 : Word)).length = 100 ∧ (machine []).time ≤ 1 ∧
      (-1 : Rat) < (machine []).time := by decide +kernel

theorem witness_FramePixelsFollowTheTables : (0 < 128 ∧ 0 < 96) ∧ 127 < 128 ∧ 95 < 96 := by decide

/-- Before the first invocation; at half a cycle's worth of time; at the stored time itself, with ROUND = ceil. -/
theorem witness_EarlyInvocationsRunNothing :
    (machine []).last = none ∧
      (let s := { machine [] with last := some 0, time := 1 / 200000 };
        s.last = some 0 ∧ 0 ≤ s.time ∧ ((100000 : Nat) : Rat) * (s.time - 0) < 1) ∧
      let s := { machine [] with last := some 0 }
      s.last = some 0 ∧ s.time = 0 := by
  refine ⟨rfl, ⟨rfl, ?_, ?_⟩, rfl, rfl⟩ <;> norm_num

/-- One cycle's worth of time, and, for ROUND = ceil, half of it. -/
theorem witness_InvocationSpendsItsGrant :
    (let s := { machine [] with last := some 0, time := 1 };
      s.last = some 0 ∧ 1 ≤ ((1 : Nat) : Rat) * (s.time - 0)) ∧
      let s := { machine [] with last := some 0, time := 1 / 2 }
      s.last = some 0 ∧ 0 < ((1 : Nat) : Rat) * (s.time - 0) := by
  refine ⟨⟨rfl, ?_⟩, rfl, ?_⟩ <;> norm_num

/-- Where every word is `IFN A, A` (0x0013) a step has no result. -/
theorem step_of_all_conditionals {s : State} (hf : s.fault = none) (h : ∀ p, s.mem.read p = 0x0013) :
    step s = .fault .skipNeverEnds := by
  have hi : s.fetch = .ok (.ifn (.reg .a) (.reg .a)) := by
    simp only [State.fetch, State.readMem, h]
    rfl
  have hx := (stuck_of_all_conditionals (s := s.advancePc) (v := 0x0013) (by decide) (by decide) h).2.2
  simp only [step, hf, hi, hx, afterInstruction]

/-- What an invocation with one cycle to spend runs on: the word, FAULT, and T = LAST + 1. -/
def granted (w : Word) (fault : Option DecodeError) : State :=
  { machine [w] with fault := fault, last := some 0, time := 1 }

/-- The ends of a granted invocation (70_reset_and_hazards.md R521): ok after `SET A, 1`, the record of a step at the
illegal word 0x0018, the record there was. -/
theorem witness_InvocationEndsOkOrFailed :
    let seen := fun (s : State) => ((s.invokeWith 1 .floor).state.pc, (s.invokeWith 1 .floor).verdict)
    seen (granted 0x8801 none) = (1, .ok) ∧
      seen (granted 0x0018 none) = (1, .failed { code := 0x18, pc := 0 }) ∧
      seen (granted 0x8801 (some { code := 3, pc := 7 })) = (0, .failed { code := 3, pc := 7 }) := by
  decide +kernel

/-- Where every word is `IFN A, A` an invocation with one cycle to spend is stuck. -/
theorem invocation_of_all_conditionals {s : State} (hl : s.last = some 0) (ht : s.time = 1) (hb : s.bal = 0)
    (hf : s.fault = none) (h : ∀ p, s.mem.read p = 0x0013) : (s.invokeWith 1 .floor).verdict = .stuck := by
  have grant : roundCycles .floor (((1 : Nat) : Rat) * (s.time - 0)) = 1 := by
    rw [ht]
    decide +kernel
  have stuck : ∀ u : State, u.bal = 1 → u.fault = none → (∀ p, u.mem.read p = 0x0013) →
      (runBudget u.bal.toNat u).2 = .stuck := by
    intro u hu hn hm
    have hc : u.bal > 0 ∧ u.fault = none := ⟨by rw [hu]; decide, hn⟩
    rw [hu]
    simp only [Int.toNat_one, runBudget, if_pos hc, step_of_all_conditionals hn hm]
  rw [State.invokeWith_of_last hl, grant, if_neg (by decide)]
  exact stuck _ (by rw [hb]; rfl) hf h

/-- The fourth end: a memory full of `IFN A, A`, at which the step has no result. -/
theorem witness_InvocationEndsStuck :
    ∃ s : State, s.last = some 0 ∧ s.time = 1 ∧ s.fault = none ∧ (s.invokeWith 1 .floor).verdict = .stuck :=
  ⟨(granted 0 none).setMem (Memory.loadWords (List.replicate 65536 0x0013) []), rfl, rfl, rfl,
    invocation_of_all_conditionals rfl rfl rfl rfl fun p => read_replicate 0x0013 p 65536 p.isLt⟩

/-- `operandOf` keeps the code's inline word: no hypothesis, one code of each length. -/
theorem test_surcharge : (operandOf 0x1F 5).inline = [5] ∧ (operandOf 0x20 5).inline = [] := by decide

end Sys2Proof.Tests
end

section
/-! The rules of 10_state.md: which part of the state a step may write. `Quiet` is the frame most instructions stay in,
`Effect` names the few departures from it, and `step_effect` says once what a step does in these words; every statement
about a step is then read off `Effect`. EX has an inversion of its own, `exec_ex`. -/

namespace Sys2Proof.Machine

/-! ## The quiet frame -/

/-- The interrupt controller, the devices, T and the scheduler are as they were, and memory is still in canonical form:
only registers, PC, SP, EX, memory words, CYC and FAULT may differ. -/
structure Quiet (s t : State) : Prop where
  mem        : s.mem.wf → t.mem.wf
  interrupts : KeepsInterrupts s t
  devices    : t.devices = s.devices
  time       : t.time = s.time
  last       : t.last = s.last
  bal        : t.bal = s.bal

namespace Quiet

theorem refl (s : State) : Quiet s s := ⟨id, ⟨rfl, rfl, rfl⟩, rfl, rfl, rfl, rfl⟩

theorem trans {s t u : State} (h : Quiet s t) (k : Quiet t u) : Quiet s u where
  mem := k.mem ∘ h.mem
  interrupts :=
    ⟨k.interrupts.ia.trans h.interrupts.ia, k.interrupts.iq.trans h.interrupts.iq,
      k.interrupts.ifq.trans h.interrupts.ifq⟩
  devices := k.devices.trans h.devices
  time := k.time.trans h.time
  last := k.last.trans h.last
  bal := k.bal.trans h.bal

variable {s t : State} (h : Quiet s t)
include h

theorem setReg (r : Reg) (v : Word) : Quiet s (t.setReg r v) := h.trans ⟨id, ⟨rfl, rfl, rfl⟩, rfl, rfl, rfl, rfl⟩

theorem setRegs (g : Regs) : Quiet s (t.setRegs g) := h.trans ⟨id, ⟨rfl, rfl, rfl⟩, rfl, rfl, rfl, rfl⟩

theorem setPc (v : Word) : Quiet s (t.setPc v) := h.trans ⟨id, ⟨rfl, rfl, rfl⟩, rfl, rfl, rfl, rfl⟩

theorem setFault (e : Option DecodeError) : Quiet s (t.setFault e) :=
  h.trans ⟨id, ⟨rfl, rfl, rfl⟩, rfl, rfl, rfl, rfl⟩

theorem charge (n : Nat) : Quiet s (t.charge n) := h.trans ⟨id, ⟨rfl, rfl, rfl⟩, rfl, rfl, rfl, rfl⟩

theorem push (v : Word) : Quiet s (t.push v) :=
  h.trans ⟨fun hm => Memory.wf_write hm _ _, ⟨rfl, rfl, rfl⟩, rfl, rfl, rfl, rfl⟩

theorem resolve (pos : Position) (o : Operand) : Quiet s (t.resolve pos o).2 :=
  h.trans ⟨by simp, ⟨by simp, by simp, by simp⟩, by simp, by simp, by simp, by simp⟩

theorem resolveBoth (b a : Operand) : Quiet s (t.resolveBoth b a).st := (h.resolve .a a).resolve .b b

theorem writeLoc (l : Loc) (v : Word) : Quiet s (t.writeLoc l v) :=
  h.trans ⟨fun hm => State.writeLoc_wf hm l v, ⟨by simp, by simp, by simp⟩, by simp, by simp, by simp, by simp⟩

theorem writeResultAndEx (l : Loc) (v e : Word) : Quiet s (t.writeResultAndEx l v e) :=
  h.trans
    ⟨fun hm => State.writeResultAndEx_wf hm l v e, ⟨by simp, by simp, by simp⟩, by simp, by simp, by simp, by simp⟩

/-- Of a return from an interrupt all but its write to IQ is quiet. -/
theorem returnFromInterrupt : Quiet s (t.returnFromInterrupt.setIq t.iq) :=
  h.trans ⟨id, ⟨rfl, rfl, rfl⟩, rfl, rfl, rfl, rfl⟩

end Quiet

/-! ## The shared operation behind a basic instruction -/

/-- The basic instructions that write EX beside their result (10_state.md R33). -/
abbrev exWriters (b a : Operand) : List Instr :=
  [.add b a, .sub b a, .mul b a, .mli b a, .div b a, .dvi b a, .shr b a, .asr b a, .shl b a, .adx b a, .sbx b a]

/-- Which of the four shared operations the meaning of the basic instruction `i` is. -/
inductive BasicMeaning (i : Instr) (b a : Operand) : Prop where
  | resultAndEx (f : Word → Word → Word → ResultEx) (cost : Nat) (writer : i ∈ exWriters b a)
      (meaning : ∀ s, exec i s = Machine.resultAndEx f cost b a s)
  | resultOnly (f : Word → Word → Word) (cost : Nat) (meaning : ∀ s, exec i s = Machine.resultOnly f cost b a s)
  | blockCopy (d : Word) (cost : Nat) (copies : i = .sti b a ∨ i = .std b a)
      (meaning : ∀ s, exec i s = Machine.blockCopy d cost b a s)
  | conditional (test : Word → Word → Bool) (cost : Nat)
      (meaning : ∀ s, exec i s = Machine.conditional test cost b a s)

theorem basicMeaning_of_operands {i : Instr} {b a : Operand} (h : i.operands = .two b a) : BasicMeaning i b a := by
  cases i with
  | add => cases h; exact .resultAndEx (fun vb va _ => addOf vb va) _ (by simp) fun _ => rfl
  | sub => cases h; exact .resultAndEx (fun vb va _ => subOf vb va) _ (by simp) fun _ => rfl
  | mul => cases h; exact .resultAndEx (fun vb va _ => mulOf vb va) _ (by simp) fun _ => rfl
  | mli => cases h; exact .resultAndEx (fun vb va _ => mliOf vb va) _ (by simp) fun _ => rfl
  | div => cases h; exact .resultAndEx (fun vb va _ => divOf vb va) _ (by simp) fun _ => rfl
  | dvi => cases h; exact .resultAndEx (fun vb va _ => dviOf vb va) _ (by simp) fun _ => rfl
  | shr => cases h; exact .resultAndEx (fun vb va _ => shrOf vb va) _ (by simp) fun _ => rfl
  | asr => cases h; exact .resultAndEx (fun vb va _ => asrOf vb va) _ (by simp) fun _ => rfl
  | shl => cases h; exact .resultAndEx (fun vb va _ => shlOf vb va) _ (by simp) fun _ => rfl
  | adx => cases h; exact .resultAndEx adxOf _ (by simp) fun _ => rfl
  | sbx => cases h; exact .resultAndEx sbxOf _ (by simp) fun _ => rfl
  | set => cases h; exact .resultOnly (fun _ va => va) _ fun _ => rfl
  | mod => cases h; exact .resultOnly modOf _ fun _ => rfl
  | mdi => cases h; exact .resultOnly mdiOf _ fun _ => rfl
  | and => cases h; exact .resultOnly (fun vb va => vb &&& va) _ fun _ => rfl
  | bor => cases h; exact .resultOnly (fun vb va => vb ||| va) _ fun _ => rfl
  | xor => cases h; exact .resultOnly (fun vb va => vb ^^^ va) _ fun _ => rfl
  | sti => cases h; exact .blockCopy 1 _ (by simp) fun _ => rfl
  | std => cases h; exact .blockCopy (-1) _ (by simp) fun _ => rfl
  | ifb => cases h; exact .conditional bitsSet _ fun _ => rfl
  | ifc => cases h; exact .conditional bitsClear _ fun _ => rfl
  | ife => cases h; exact .conditional equal _ fun _ => rfl
  | ifn => cases h; exact .conditional notEqual _ fun _ => rfl
  | ifg => cases h; exact .conditional greater _ fun _ => rfl
  | ifa => cases h; exact .conditional above _ fun _ => rfl
  | ifl => cases h; exact .conditional less _ fun _ => rfl
  | ifu => cases h; exact .conditional under _ fun _ => rfl
  | jsr | int | iag | ias | rfi | iaq | hwn | hwq | hwi => cases h

/-- A conditional that answers a next state leaves what its operands left, but for PC, CYC and FAULT. -/
theorem conditional_quiet {test : Word → Word → Bool} {cost : Nat} {b a : Operand} {s₀ s u : State} (h : Quiet s₀ s)
    (hx : conditional test cost b a s = .next u) : Quiet s₀ u ∧ u.ex = s.ex := by
  have hr := h.resolveBoth b a
  rcases conditional_cases test cost b a s with ⟨-, e⟩ | ⟨-, ⟨p, count, -, e⟩ | ⟨code, p, -, e⟩ | ⟨-, e⟩⟩ <;>
    cases e.symm.trans hx
  · exact ⟨hr.charge _, by simp⟩
  · exact ⟨(hr.setPc p).charge _, by simp⟩
  · exact ⟨(hr.setPc p).setFault _, by simp⟩

/-- A basic instruction is quiet. -/
theorem exec_quiet_of_two {i : Instr} {b a : Operand} {s₀ s u : State} (h : Quiet s₀ s) (hi : i.operands = .two b a)
    (hx : exec i s = .next u) : Quiet s₀ u := by
  have hr := h.resolveBoth b a
  cases basicMeaning_of_operands hi with
  | resultAndEx f cost _ e => cases (e s).symm.trans hx; exact (hr.writeResultAndEx _ _ _).charge _
  | resultOnly f cost e => cases (e s).symm.trans hx; exact (hr.writeLoc _ _).charge _
  | blockCopy d cost _ e =>
    cases (e s).symm.trans hx; exact (((hr.writeLoc _ _).setReg _ _).setReg _ _).charge _
  | conditional test cost e => exact (conditional_quiet h ((e s).symm.trans hx)).1

/-! ## What an instruction does beyond the quiet frame -/

/-- How `u`, the state before the dispatch step, departs from `s`, where the fetch gave `fetched`: not at all beyond the
quiet frame, or by one write outside it, each the mark of its instructions. -/
inductive Effect (fetched : Except (BitVec 5) Instr) (s u : State) : Prop where
  | quiet (q : Quiet s u)
  | enqueued (a : Operand) (m : Word) (r : State) (hi : fetched = .ok (.int a)) (q : Quiet s r)
      (hu : u = r.setIfq (s.ifq ++ [m]))
  | wroteIa (a : Operand) (v : Word) (r : State) (hi : fetched = .ok (.ias a)) (q : Quiet s r) (hu : u = r.setIa v)
  | wroteIq (a : Operand) (v : Bool) (r : State) (hi : fetched = .ok (.iaq a) ∨ fetched = .ok (.rfi a)) (q : Quiet s r)
      (hu : u = r.setIq v)
  | commanded (a : Operand) (k : Nat) (d : Device) (g : Regs) (r : State) (hi : fetched = .ok (.hwi a))
      (q : Quiet s r) (hd : s.devices[k]? = some d)
      (hu : u = r.setDevices (s.devices.set k (deviceCommand d g s.time).device))

/-- An HWI is quiet but for the command it gives a device. -/
theorem execHwi_effect {a : Operand} {s₀ s u : State} (h : Quiet s₀ s) (hx : exec (.hwi a) s = .next u) :
    Effect (.ok (.hwi a)) s₀ u := by
  obtain rfl := Host.Outcome.next.inj hx
  have hr := h.resolve .a a
  rcases (s.resolve .a a).2.commandDevice_cases
      ((s.resolve .a a).2.readLoc (s.resolve .a a).1).toNat with ⟨-, e⟩ | ⟨d, hd, e⟩
  · rw [e]; exact .quiet (hr.charge _)
  · rw [e, hr.devices, hr.time]
    rw [hr.devices] at hd
    exact .commanded a _ d _ _ rfl ((hr.setRegs _).charge _) hd rfl

/-- What an instruction can do that is entered at a state in the quiet frame of `s₀`. -/
theorem exec_effect {i : Instr} {s₀ s u : State} (h : Quiet s₀ s) (hx : exec i s = .next u) : Effect (.ok i) s₀ u := by
  cases i with
  | jsr a =>
    obtain rfl := Host.Outcome.next.inj hx
    exact .quiet ((((h.resolve .a a).push _).setPc _).charge _)
  | int a =>
    obtain rfl := Host.Outcome.next.inj hx
    have hr := h.resolve .a a
    rw [State.enqueue_eq, hr.interrupts.ifq]
    exact .enqueued a _ _ rfl (hr.charge _) rfl
  | iag a | hwn a =>
    obtain rfl := Host.Outcome.next.inj hx
    exact .quiet (((h.resolve .a a).writeLoc _ _).charge _)
  | ias a =>
    obtain rfl := Host.Outcome.next.inj hx
    exact .wroteIa a _ _ rfl ((h.resolve .a a).charge _) rfl
  | rfi a =>
    obtain rfl := Host.Outcome.next.inj hx
    exact .wroteIq a _ _ (.inr rfl) ((h.resolve .a a).returnFromInterrupt.charge _) rfl
  | iaq a =>
    obtain rfl := Host.Outcome.next.inj hx
    exact .wroteIq a _ _ (.inl rfl) ((h.resolve .a a).charge _) rfl
  | hwq a =>
    obtain rfl := Host.Outcome.next.inj hx
    exact .quiet (((h.resolve .a a).setRegs _).charge _)
  | hwi a => exact execHwi_effect h hx
  | _ => exact .quiet (exec_quiet_of_two h rfl hx)

/-! ## What a step does -/

/-- A step is an effect of the fetched instruction, after which the oldest message may be delivered. -/
theorem step_effect {s t : State} (h : step s = .next t) :
    ∃ u, Effect s.fetch s u ∧
      (t = u ∨ ∃ m rest, u.iq = false ∧ u.ifq = m :: rest ∧ t = u.deliver m rest) := by
  have advanced : Quiet s s.advancePc := (Quiet.refl s).setPc _
  obtain ⟨-, ⟨code, -, rfl⟩ | ⟨i, u, hi, hx, rfl⟩⟩ := step_next_cases h
  · exact ⟨_, .quiet (advanced.setFault _), .inl rfl⟩
  · refine ⟨u, hi ▸ exec_effect advanced hx, ?_⟩
    split
    · rcases u.dispatch_cases with ⟨e, -⟩ | ⟨m, rest, hq, hf, e⟩
      · exact .inl e
      · exact .inr ⟨m, rest, hq, hf, e⟩
    · exact .inl rfl

namespace Effect

variable {fetched : Except (BitVec 5) Instr} {s u : State} (h : Effect fetched s u)
include h

theorem ia : u.ia = s.ia ∨ ∃ a, fetched = .ok (.ias a) := by
  cases h with
  | quiet q => exact .inl q.interrupts.ia
  | wroteIa a _ _ hi => exact .inr ⟨a, hi⟩
  | enqueued _ _ _ _ q hu | wroteIq _ _ _ _ q hu | commanded _ _ _ _ _ _ q _ hu =>
    subst hu; exact .inl q.interrupts.ia

theorem iq : u.iq = s.iq ∨ ∃ a, fetched = .ok (.iaq a) ∨ fetched = .ok (.rfi a) := by
  cases h with
  | quiet q => exact .inl q.interrupts.iq
  | wroteIq a _ _ hi => exact .inr ⟨a, hi⟩
  | enqueued _ _ _ _ q hu | wroteIa _ _ _ _ q hu | commanded _ _ _ _ _ _ q _ hu =>
    subst hu; exact .inl q.interrupts.iq

theorem ifq : u.ifq = s.ifq ∨ ∃ a m, fetched = .ok (.int a) ∧ u.ifq = s.ifq ++ [m] := by
  cases h with
  | quiet q => exact .inl q.interrupts.ifq
  | enqueued a m _ hi _ hu => subst hu; exact .inr ⟨a, m, hi, rfl⟩
  | wroteIa _ _ _ _ q hu | wroteIq _ _ _ _ q hu | commanded _ _ _ _ _ _ q _ hu =>
    subst hu; exact .inl q.interrupts.ifq

theorem devices : u.devices = s.devices ∨ ∃ a k d g, fetched = .ok (.hwi a) ∧ s.devices[k]? = some d ∧
    u.devices = s.devices.set k (deviceCommand d g s.time).device := by
  cases h with
  | quiet q => exact .inl q.devices
  | commanded a k d g _ hi _ hd hu => subst hu; exact .inr ⟨a, k, d, g, hi, hd, rfl⟩
  | enqueued _ _ _ _ q hu | wroteIa _ _ _ _ q hu | wroteIq _ _ _ _ q hu => subst hu; exact .inl q.devices

theorem mem_wf (hm : s.mem.wf) : u.mem.wf := by
  cases h with
  | quiet q => exact q.mem hm
  | enqueued _ _ _ _ q hu | wroteIa _ _ _ _ q hu | wroteIq _ _ _ _ q hu | commanded _ _ _ _ _ _ q _ hu =>
    subst hu; exact q.mem hm

theorem timeAndScheduler : u.time = s.time ∧ u.last = s.last ∧ u.bal = s.bal := by
  cases h with
  | quiet q => exact ⟨q.time, q.last, q.bal⟩
  | enqueued _ _ _ _ q hu | wroteIa _ _ _ _ q hu | wroteIq _ _ _ _ q hu | commanded _ _ _ _ _ _ q _ hu =>
    subst hu; exact ⟨q.time, q.last, q.bal⟩

/-- The kinds of the devices in order survive even a command. -/
theorem kinds : u.devices.map Device.kind = s.devices.map Device.kind := by
  rcases h.devices with e | ⟨a, k, d, g, -, hd, e⟩
  · rw [e]
  · obtain ⟨hk, rfl⟩ := List.getElem?_eq_some_iff.mp hd
    have same : s.devices[k].kind = (s.devices.map Device.kind)[k]'(by simpa using hk) := by simp
    rw [e, List.map_set, deviceCommand_kind, same, List.set_getElem_self]

end Effect

/-! ## The invariant -/

/-- The invariant speaks of memory, the devices, T and `last` alone. -/
theorem State.wf.congr {s t : State} (h : s.wf) (mem : t.mem.wf) (devices : t.devices = s.devices)
    (time : t.time = s.time) (last : t.last = s.last) : t.wf where
  mem := mem
  devices := devices ▸ h.devices
  count := devices ▸ h.count
  time := time ▸ h.time
  last := time ▸ last ▸ h.last

theorem clockPeriod_nonneg (divisor : Word) : 0 ≤ clockPeriod divisor := by
  unfold clockPeriod; positivity

theorem Clock.command_wf {k : Clock} {t : Rat} (h : 0 ≤ k.deadline) (ht : 0 ≤ t) (g : Regs) :
    0 ≤ (k.command g t).1.deadline := by
  have hp : 0 ≤ t + clockPeriod g.b := add_nonneg ht (clockPeriod_nonneg g.b)
  unfold Clock.command
  split_ifs <;> assumption

theorem Keyboard.command_wf {k : Keyboard} (h : (Device.keyboard k).wf) (g : Regs) :
    (Device.keyboard (k.command g).1).wf := by
  obtain ⟨hq, hs, hr⟩ := h
  unfold Keyboard.command
  split_ifs
  · exact ⟨hq, .nil, by simp⟩
  · cases e : k.queue with
    | nil => exact ⟨hq, hs, hr⟩
    | cons code rest =>
      rw [e, List.length_cons] at hq
      exact ⟨Nat.le_of_succ_le hq, hs, hr⟩
  all_goals exact ⟨hq, hs, hr⟩

/-- A command given at a time that is not negative keeps a device well formed. -/
theorem deviceCommand_wf {d : Device} {t : Rat} (h : d.wf) (ht : 0 ≤ t) (g : Regs) :
    (deviceCommand d g t).device.wf := by
  cases d with
  | clock k => exact Clock.command_wf h ht g
  | keyboard k => exact Keyboard.command_wf h g
  | display k => trivial

/-- The invariant survives what an instruction does. -/
theorem Effect.wf {fetched : Except (BitVec 5) Instr} {s u : State} (h : Effect fetched s u) (hs : s.wf) : u.wf := by
  obtain ⟨ht, hl, -⟩ := h.timeAndScheduler
  rcases h.devices with e | ⟨a, k, d, g, -, hd, e⟩
  · exact hs.congr (h.mem_wf hs.mem) e ht hl
  · have commanded : (deviceCommand d g s.time).device.wf :=
      deviceCommand_wf (hs.devices d (List.mem_of_getElem? hd)) hs.time g
    have replaced : (s.setDevices (s.devices.set k (deviceCommand d g s.time).device)).wf :=
      { mem := hs.mem
        devices := fun d' hd' => (List.mem_or_eq_of_mem_set hd').elim (hs.devices d') (· ▸ commanded)
        count := by simpa using hs.count
        time := hs.time
        last := hs.last }
    exact replaced.congr (h.mem_wf hs.mem) e ht hl

/-- Settles O39: the effect of the instruction keeps the invariant, and a delivery only stores to memory. -/
theorem stepKeepsTheInvariant : Obligations.StepKeepsTheInvariant := by
  intro s t hs h
  obtain ⟨u, hu, rfl | ⟨m, rest, -, -, rfl⟩⟩ := step_effect h
  · exact hu.wf hs
  · exact (hu.wf hs).congr (State.deliver_wf (hu.wf hs).mem m rest) rfl rfl rfl

/-! ## Who writes which part of the state -/

/-- Settles O42: a delivery leaves all of it, and of the effects only a command writes a device. -/
theorem stepLeavesThePlatformAlone : Obligations.StepLeavesThePlatformAlone := by
  intro s t h
  obtain ⟨u, hu, hd⟩ := step_effect h
  have delivered : t.time = u.time ∧ t.last = u.last ∧ t.bal = u.bal ∧ t.devices = u.devices := by
    rcases hd with rfl | ⟨m, rest, -, -, rfl⟩ <;> exact ⟨rfl, rfl, rfl, rfl⟩
  obtain ⟨et, el, eb, ed⟩ := delivered
  obtain ⟨ht, hl, hb⟩ := hu.timeAndScheduler
  refine ⟨et.trans ht, el.trans hl, eb.trans hb, ed ▸ hu.kinds, fun changed => ?_⟩
  rcases hu.devices with e | ⟨a, k, d, g, hi, -⟩
  · exact absurd (ed.trans e) changed
  · exact ⟨a, hi⟩

/-- Settles O43: a delivery reads IA and does not write it. -/
theorem onlyIasWritesIa : Obligations.OnlyIasWritesIa := by
  intro s t h changed
  obtain ⟨u, hu, hd⟩ := step_effect h
  have delivered : t.ia = u.ia := by
    rcases hd with rfl | ⟨m, rest, -, -, rfl⟩ <;> rfl
  exact hu.ia.resolve_left fun e => changed (delivered.trans e)

/-- Settles O45: without IAQ and RFI the instruction leaves IQ, so a delivery changed it, of the FIFO the instruction
left. -/
theorem onlyIaqRfiAndDeliveryChangeIq : Obligations.OnlyIaqRfiAndDeliveryChangeIq := by
  intro s t h changed
  obtain ⟨u, hu, hd⟩ := step_effect h
  rcases hu.iq with kept | ⟨a, hi | hi⟩
  · obtain rfl | ⟨m, rest, -, hf, rfl⟩ := hd
    · exact absurd kept changed
    · refine .inr (.inr ⟨rfl, rfl, ?_⟩)
      have oldest : u.ifq = (u.deliver m rest).reg .a :: (u.deliver m rest).ifq := by simpa using hf
      rcases hu.ifq with e | ⟨a, n, hi, e⟩
      · exact .inl (e.symm.trans oldest)
      · exact .inr ⟨a, n, hi, e.symm.trans oldest⟩
  · exact .inl ⟨a, hi⟩
  · exact .inr (.inl ⟨a, hi⟩)

/-- Settles O46: the instruction appends nothing, or INT its message; a delivery takes the head of what it left. -/
theorem fifoIsAppendedByIntAndDrainedFromTheHead : Obligations.FifoIsAppendedByIntAndDrainedFromTheHead := by
  intro s t h
  obtain ⟨u, hu, hd⟩ := step_effect h
  have drained : t.ifq = u.ifq ∨ t.ifq = u.ifq.tail := by
    rcases hd with rfl | ⟨m, rest, -, hf, rfl⟩
    · exact .inl rfl
    · exact .inr (by rw [hf]; rfl)
  rcases hu.ifq with e | ⟨a, m, hi, e⟩
  · exact ⟨[], by simpa [e] using drained, .inl rfl⟩
  · exact ⟨[m], by rwa [e] at drained, .inr ⟨⟨m, rfl⟩, a, hi⟩⟩

/-! ## EX -/

/-- An operand is at EX only where it is the operand EX. -/
theorem State.resolve_eq_ex {s : State} {pos : Position} {o : Operand} (h : (s.resolve pos o).1 = .ex) : o = .ex := by
  cases o with
  | ex => rfl
  | stack => cases pos <;> cases h
  | _ => cases h

@[simp] theorem State.commandDevice_ex (s : State) (k : Nat) : (s.commandDevice k).1.ex = s.ex := rfl

/-- The instructions that may change EX (10_state.md R33): those that write it beside their result, and those whose
destination it is. -/
def WritesEx (i : Instr) : Prop :=
  (∃ b a, i ∈ exWriters b a) ∨ (∃ a, i.operands = .two .ex a) ∨ (∃ b, i = .sti b .ex ∨ i = .std b .ex) ∨
    i = .iag .ex ∨ i = .hwn .ex

/-- A basic instruction changes EX only as one of the writers of EX, or through its destination. -/
theorem exec_ex_of_two {i : Instr} {b a : Operand} {s u : State} (hi : i.operands = .two b a)
    (hx : exec i s = .next u) : u.ex = s.ex ∨ WritesEx i := by
  cases basicMeaning_of_operands hi with
  | resultAndEx f cost writer _ => exact .inr (.inl ⟨b, a, writer⟩)
  | resultOnly f cost e =>
    obtain ⟨t, ht, wrote, -⟩ := resultOnly_spec f cost b a s
    cases ht.symm.trans ((e s).symm.trans hx)
    by_cases hl : (s.resolveBoth b a).lb = .ex
    · obtain rfl : b = .ex := State.resolve_eq_ex hl
      exact .inr (.inr (.inl ⟨a, hi⟩))
    · exact .inl (wrote.ex.trans (if_neg hl))
  | blockCopy d cost copies e =>
    obtain ⟨t, w, ht, wrote, rfl, -⟩ := blockCopy_spec d cost b a s
    cases ht.symm.trans ((e s).symm.trans hx)
    by_cases hl : (s.resolveBoth b a).la = .ex
    · obtain rfl : a = .ex := State.resolve_eq_ex hl
      exact .inr (.inr (.inr (.inl ⟨b, copies⟩)))
    · exact .inl (wrote.ex.trans (if_neg hl))
  | conditional test cost e => exact .inl (conditional_quiet (Quiet.refl s) ((e s).symm.trans hx)).2

/-- EX after a special opcode that writes its operand's location. -/
theorem ex_writeLoc_resolve {s : State} {a : Operand} (v : Word) (cost : Nat) (ha : a ≠ .ex) :
    (((s.resolve .a a).2.writeLoc (s.resolve .a a).1 v).charge cost).ex = s.ex :=
  (writeLoc_charge_wroteOnly_a s a _ v cost).ex.trans (if_neg fun hl => ha (State.resolve_eq_ex hl))

/-- What an instruction can do to EX. -/
theorem exec_ex {i : Instr} {s u : State} (hx : exec i s = .next u) : u.ex = s.ex ∨ WritesEx i := by
  cases i with
  | jsr a | int a | ias a | rfi a | iaq a | hwq a | hwi a =>
    obtain rfl := Host.Outcome.next.inj hx
    exact .inl (by simp)
  | iag a | hwn a =>
    obtain rfl := Host.Outcome.next.inj hx
    by_cases ha : a = .ex
    · subst ha; exact .inr (by simp [WritesEx])
    · exact .inl (ex_writeLoc_resolve _ _ ha)
  | _ => exact exec_ex_of_two rfl hx

/-- Settles O44: an illegal word and the dispatch step leave EX, so the instruction changed it. -/
theorem onlyExWritersChangeEx : Obligations.OnlyExWritersChangeEx := by
  intro s t h changed
  obtain ⟨-, ⟨code, -, rfl⟩ | ⟨i, u, hi, hx, rfl⟩⟩ := step_next_cases h
  · exact absurd rfl changed
  · have dispatched : (if u.fault = none then u.dispatch else u).ex = u.ex := by split <;> simp
    exact ⟨i, hi, (exec_ex hx).resolve_left fun e => changed (dispatched.trans e)⟩

end Sys2Proof.Machine
end

section
/-! The encoding (30_encoding.md): which opcodes have an instruction, what the decoder answers in a window of three words
and on a list of words, and from these that it and the encoder are inverse, takes the length of R105, and rejects exactly
the words of R112. -/

namespace Sys2Proof

open Machine Claims

/-! ## The opcode map -/

/-- The special opcodes without an instruction (30_encoding.md R112), from the 32 values of the field. -/
theorem specialOf_eq_none_iff {sop : BitVec 5} {a : Operand} :
    specialOf sop a = none ↔ unassignedSpecial sop.toNat := by
  have bound := sop.isLt
  unfold specialOf unassignedSpecial
  generalize sop.toNat = k at bound
  interval_cases k <;> simp

/-- The basic opcodes without an instruction, beside the escape to the special ones (30_encoding.md R112), from the 32
values of the field. -/
theorem basicOf_eq_none_iff {op : BitVec 5} {b a : Operand} :
    basicOf op b a = none ↔ op.toNat = 0 ∨ unassignedBasic op.toNat := by
  have bound := op.isLt
  unfold basicOf unassignedBasic
  generalize op.toNat = k at bound
  interval_cases k <;> simp

theorem opField_eq_zero_iff (w : Word) : opField w = 0 ↔ w.toNat % 32 = 0 := by
  rw [← opField_toNat]
  exact BitVec.toNat_inj.symm

/-! ## Lengths in the arithmetic of R105 -/

theorem takesWord_toNat (c : BitVec 6) : takesWord c.toNat = if needsWord c then 1 else 0 := by
  simp only [takesWord, needsWord_iff]

theorem wordLength_eq_lengthOf (w : Word) : wordLength w = lengthOf w := by
  have code_b : ((bField w).setWidth 6).toNat = w.toNat / 32 % 32 := by
    rw [BitVec.toNat_setWidth, bField_toNat]; omega
  simp only [wordLength, lengthOf, ← aField_toNat, ← code_b, takesWord_toNat, ne_eq,
    opField_eq_zero_iff]

theorem wordLength_pos (w : Word) : 0 < wordLength w := by
  unfold wordLength; omega

theorem wordLength_le (w : Word) : wordLength w ≤ 3 := by
  unfold wordLength; split_ifs <;> omega

/-! ## The decoder in a window of three words -/

/-- The operand a window holds in the a field. -/
def windowA (w n₁ : Word) : Operand := operandOf (aField w) n₁

/-- The operand a window holds in the b field: its inline word comes after a's, if a has one (30_encoding.md R104). -/
def windowB (w n₁ n₂ : Word) : Operand :=
  operandOf ((bField w).setWidth 6) (if needsWord (aField w) then n₂ else n₁)

/-- With opcode 0 the b field is the special opcode (30_encoding.md R102). -/
theorem decodeWindow_special {w : Word} (h : opField w = 0) (n₁ n₂ : Word) :
    decodeWindow w n₁ n₂ = (specialOf (bField w) (windowA w n₁)).elim (.error (bField w)) .ok := by
  rw [decodeWindow, if_pos h, ← windowA]
  cases specialOf (bField w) (windowA w n₁) <;> rfl

theorem decodeWindow_basic {w : Word} (h : opField w ≠ 0) (n₁ n₂ : Word) :
    decodeWindow w n₁ n₂ = (basicOf (opField w) (windowB w n₁ n₂) (windowA w n₁)).elim (.error (opField w)) .ok := by
  rw [decodeWindow, if_neg h, ← windowA, ← windowB]
  cases basicOf (opField w) (windowB w n₁ n₂) (windowA w n₁) <;> rfl

theorem decodeWindow_eq_ok_iff {w n₁ n₂ : Word} {i : Instr} :
    decodeWindow w n₁ n₂ = .ok i ↔
      (opField w = 0 ∧ specialOf (bField w) (windowA w n₁) = some i) ∨
        (opField w ≠ 0 ∧ basicOf (opField w) (windowB w n₁ n₂) (windowA w n₁) = some i) := by
  by_cases hop : opField w = 0
  · rw [decodeWindow_special hop, or_iff_left (fun basic => basic.1 hop), and_iff_right hop]
    cases specialOf (bField w) (windowA w n₁) <;> simp
  · rw [decodeWindow_basic hop, or_iff_right (fun special => hop special.1), and_iff_right hop]
    cases basicOf (opField w) (windowB w n₁ n₂) (windowA w n₁) <;> simp

/-! ### The window of an encoded instruction -/

/-- An operand's code and the words from its inline word on give the operand back. -/
theorem operandOf_code_append (o : Operand) (ws : List Word) :
    operandOf o.code ((o.inline ++ ws).getD 0 0) = o := by
  have head : (o.inline ++ ws).getD 0 0 = o.inline.headD (ws.getD 0 0) := by cases o.inline <;> rfl
  rw [head, operandOf_code]

/-- The second operand's inline word stands after the first's, if the first has one. -/
theorem getD_inline_append (o : Operand) (ws : List Word) :
    (if needsWord o.code then (o.inline ++ ws).getD 1 0 else (o.inline ++ ws).getD 0 0) = ws.getD 0 0 := by
  rw [needsWord_code]
  cases o <;> rfl

/-- An encoded instruction's word, in front of its inline words and any others, decodes to the instruction. -/
theorem decodeWindow_firstWord {i : Instr} (h : i.wellFormed = true) (rest : List Word) :
    decodeWindow (firstWord i) ((inlineWords i ++ rest).getD 0 0) ((inlineWords i ++ rest).getD 1 0) = .ok i := by
  rw [decodeWindow_eq_ok_iff]
  cases e : i.operands with
  | one a =>
    refine .inl ⟨(fields_firstWord_special e).1, ?_⟩
    have ha : windowA (firstWord i) ((inlineWords i ++ rest).getD 0 0) = a := by
      simp only [windowA, firstWord, inlineWords, e, aField_packWord, operandOf_code_append]
    rw [ha, (fields_firstWord_special e).2, specialOf_number e]
  | two b a =>
    obtain ⟨instr, nonzero⟩ := basicOf_number e
    have fits : b.fitsB = true := by simpa [Instr.wellFormed, e] using h
    refine .inr ⟨by rwa [opField_firstWord e], ?_⟩
    have ha : windowA (firstWord i) ((inlineWords i ++ rest).getD 0 0) = a := by
      simp only [windowA, firstWord, inlineWords, e, aField_packWord, List.append_assoc, operandOf_code_append]
    have hb : windowB (firstWord i) ((inlineWords i ++ rest).getD 0 0) ((inlineWords i ++ rest).getD 1 0) = b := by
      simp only [windowB, firstWord, inlineWords, e, aField_packWord, bField_packWord, code_setWidth fits,
        List.append_assoc, getD_inline_append, operandOf_code_append]
    rw [ha, hb, opField_firstWord e, instr]

/-! ### The instruction of a decoded window -/

/-- A decoded instruction is well formed, its word is the window's, and its inline words are the window's words after the
first, as many as the first word's length counts. -/
theorem words_of_decodeWindow {w n₁ n₂ : Word} {i : Instr} (h : decodeWindow w n₁ n₂ = .ok i) :
    i.wellFormed = true ∧ firstWord i = w ∧ inlineWords i = [n₁, n₂].take (wordLength w - 1) := by
  rcases decodeWindow_eq_ok_iff.mp h with ⟨hop, hi⟩ | ⟨hop, hi⟩
  · obtain ⟨number, operands⟩ := number_of_specialOf hi
    refine ⟨by simp [Instr.wellFormed, operands], ?_, ?_⟩
    · simp only [firstWord, operands, number, windowA, code_operandOf]
      rw [← hop, packWord_fields]
    · simp only [inlineWords, operands, windowA, inline_operandOf, wordLength, hop]
      cases needsWord (aField w) <;> rfl
  · obtain ⟨number, operands⟩ := number_of_basicOf hi
    refine ⟨by simp [Instr.wellFormed, operands, windowB, fitsB_operandOf], ?_, ?_⟩
    · have narrow : ((bField w).setWidth 6).setWidth 5 = bField w := by simp
      simp only [firstWord, operands, number, windowA, windowB, code_operandOf, narrow, packWord_fields]
    · simp only [inlineWords, operands, windowA, windowB, inline_operandOf, wordLength, if_pos hop]
      cases needsWord (aField w) <;> cases needsWord ((bField w).setWidth 6) <;> rfl

/-! ## The decoder on a list of words -/

/-- A list decodes exactly when its first three words do and it is as long as its first word says; the rest is what lies
beyond that length. -/
theorem decode_cons_eq_ok_iff {w : Word} {ws rest : List Word} {i : Instr} :
    decode (w :: ws) = .ok (i, rest) ↔
      decodeWindow w (ws.getD 0 0) (ws.getD 1 0) = .ok i ∧ wordLength w - 1 ≤ ws.length ∧
        ws.drop (wordLength w - 1) = rest := by
  rw [decode]
  cases decodeWindow w (ws.getD 0 0) (ws.getD 1 0) with
  | error code => simp only [reduceCtorEq, false_and]
  | ok j =>
    by_cases short : ws.length < wordLength w - 1
    · simp only [if_pos short, reduceCtorEq, Nat.not_le.mpr short, false_and, and_false]
    · simp only [if_neg short, Except.ok.injEq, Prod.mk.injEq, Nat.le_of_not_lt short, true_and]

/-- Settles O1: the words its length counts are the instruction's own, and the rest is what follows them. -/
theorem decodingAnEncodedInstructionGivesItBack : Obligations.DecodingAnEncodedInstructionGivesItBack := by
  intro i rest h
  have inlines : wordLength (firstWord i) - 1 = (inlineWords i).length := by
    rw [← encode_length h, encode, List.length_cons, Nat.add_sub_cancel]
  rw [encode, List.cons_append, decode_cons_eq_ok_iff, inlines]
  exact ⟨decodeWindow_firstWord h rest, by simp, by simp⟩

/-- A list's first words, as many as there are, are the first of the two a window holds of it. -/
theorem take_window {ws : List Word} {n : Nat} (window : n ≤ 2) (long : n ≤ ws.length) :
    [ws.getD 0 0, ws.getD 1 0].take n = ws.take n := by
  match n, ws with
  | 0, _ => rfl
  | 1, _ :: _ => rfl
  | 2, _ :: _ :: _ => rfl

/-- Settles O2: the inline words are the words after the first that its length counts, and the rest is what follows. -/
theorem encodingADecodedInstructionGivesItsWords : Obligations.EncodingADecodedInstructionGivesItsWords := by
  intro ws i rest h
  cases ws with
  | nil => cases h
  | cons w ws =>
    obtain ⟨window, long, rfl⟩ := decode_cons_eq_ok_iff.mp h
    obtain ⟨wellFormed, first, inlines⟩ := words_of_decodeWindow window
    refine ⟨wellFormed, ?_⟩
    rw [encode, first, inlines, take_window (Nat.sub_le_sub_right (wordLength_le w) 1) long, List.cons_append,
      List.take_append_drop]

/-! ## The skip over one instruction -/

theorem isConditional_iff (w : Word) : isConditional w = true ↔ 0x10 ≤ w.toNat % 32 ∧ w.toNat % 32 ≤ 0x17 := by
  simp only [isConditional, opField_toNat, Bool.and_eq_true, decide_eq_true_eq]

/-- A skip that starts at a legal word that is no conditional passes it and ends (43_conditional.md R282). -/
theorem skip_of_not_conditional {m : Memory} {p : Word} (legal : illegalCode (m.read p) = none)
    (last : isConditional (m.read p) = false) :
    skip m p = .passed (p + BitVec.ofNat 16 (wordLength (m.read p))) 1 := by
  have once : skipFrom m (65535 + 1) p 0 = .passed (p + BitVec.ofNat 16 (wordLength (m.read p))) 1 := by
    simp [skipFrom, legal, last]
  exact once

/-- Settles O3: the length of the model is that of R105, and decoder and skip move by it. -/
theorem firstWordGivesTheLength : Obligations.FirstWordGivesTheLength := by
  refine ⟨isConditional_iff, fun w ws rest i h => ?_, fun m p legal last => ?_⟩
  · obtain ⟨-, long, rfl⟩ := decode_cons_eq_ok_iff.mp h
    have pos := wordLength_pos w
    rw [← wordLength_eq_lengthOf, List.length_drop]
    omega
  · rw [skip_of_not_conditional legal last, ← wordLength_eq_lengthOf, BitVec.ofNat_add, BitVec.ofNat_toNat,
      BitVec.setWidth_eq]

/-! ## Illegal words -/

/-- R112 on the fields of the word. -/
theorem illegalCode_eq_some_iff {w : Word} {code : BitVec 5} :
    illegalCode w = some code ↔
      unassignedBasic (opField w).toNat ∧ code = opField w ∨
        opField w = 0 ∧ unassignedSpecial (bField w).toNat ∧ code = bField w := by
  have bound := (bField w).isLt
  have zero : opField w = 0 ↔ (opField w).toNat = 0 := BitVec.toNat_inj.symm
  simp only [illegalCode, unassignedBasic, unassignedSpecial, zero, ← BitVec.toNat_inj (y := opField w),
    ← BitVec.toNat_inj (y := bField w)]
  split_ifs with basic special
  · rw [Option.some.injEq, eq_comm, ← BitVec.toNat_inj]; omega
  · rw [Option.some.injEq, eq_comm, ← BitVec.toNat_inj]; omega
  · simp only [false_iff]; omega

/-- R112 in arithmetic on the word. -/
theorem illegalCode_eq_some_iff_toNat {w : Word} {code : BitVec 5} :
    illegalCode w = some code ↔
      unassignedBasic (w.toNat % 32) ∧ code.toNat = w.toNat % 32 ∨
        w.toNat % 32 = 0 ∧ unassignedSpecial (w.toNat / 32 % 32) ∧ code.toNat = w.toNat / 32 % 32 := by
  rw [illegalCode_eq_some_iff, opField_eq_zero_iff, ← opField_toNat, ← bField_toNat, BitVec.toNat_inj,
    BitVec.toNat_inj]

/-- The decoder rejects a word exactly when it is illegal, whatever follows it, and reports the code the skip does. -/
theorem decodeWindow_eq_error_iff {w n₁ n₂ : Word} {code : BitVec 5} :
    decodeWindow w n₁ n₂ = .error code ↔ illegalCode w = some code := by
  rw [illegalCode_eq_some_iff]
  by_cases hop : opField w = 0
  · have assigned : ¬unassignedBasic (opField w).toNat := by simp [hop, unassignedBasic]
    rw [decodeWindow_special hop, or_iff_right (fun basic => assigned basic.1), and_iff_right hop,
      ← specialOf_eq_none_iff (a := windowA w n₁)]
    cases specialOf (bField w) (windowA w n₁) <;> simp [eq_comm]
  · have nonzero : (opField w).toNat ≠ 0 := fun e => hop (BitVec.eq_of_toNat_eq e)
    have rejected : basicOf (opField w) (windowB w n₁ n₂) (windowA w n₁) = none ↔ unassignedBasic (opField w).toNat := by
      rw [basicOf_eq_none_iff, or_iff_right nonzero]
    rw [decodeWindow_basic hop, or_iff_left (fun special => hop special.1), ← rejected]
    cases basicOf (opField w) (windowB w n₁ n₂) (windowA w n₁) <;> simp [eq_comm]

/-- A legal word decodes to an instruction, whatever follows it. -/
theorem decodeWindow_of_legal {w : Word} (legal : illegalCode w = none) (n₁ n₂ : Word) :
    ∃ i, decodeWindow w n₁ n₂ = .ok i := by
  cases h : decodeWindow w n₁ n₂ with
  | ok i => exact ⟨i, rfl⟩
  | error code => cases legal.symm.trans (decodeWindow_eq_error_iff.mp h)

/-- A step at an illegal word ends in the state of the decode error (60_exceptions.md R470). -/
theorem step_of_illegalCode {s : State} {code : BitVec 5} (running : s.fault = none)
    (illegal : illegalCode (s.readMem s.pc) = some code) : step s = .next (s.illegalFetch code) := by
  have fetched : s.fetch = .error code := decodeWindow_eq_error_iff.mpr illegal
  simp only [step, running, fetched]

/-- Settles O4: a step fetches by the decoder, which rejects exactly the illegal words. -/
theorem unassignedOpcodesAreDecodeErrors : Obligations.UnassignedOpcodesAreDecodeErrors := by
  refine ⟨fun w code => illegalCode_eq_some_iff_toNat, fun s running => ?_⟩
  have recorded : ∀ {code}, illegalCode (s.readMem s.pc) = some code →
      ∃ t, step s = .next t ∧ t.fault = some { code := code, pc := s.pc } :=
    fun illegal => ⟨_, step_of_illegalCode running illegal, rfl⟩
  refine ⟨fun basic => recorded ?_, fun ⟨op, special⟩ => recorded ?_,
    fun ⟨notBasic, notSpecial⟩ => ?_, fun zero => recorded ?_⟩
  · exact illegalCode_eq_some_iff_toNat.mpr (.inl ⟨basic, by rw [BitVec.toNat_ofNat]; omega⟩)
  · exact illegalCode_eq_some_iff_toNat.mpr (.inr ⟨op, special, by rw [BitVec.toNat_ofNat]; omega⟩)
  · refine decodeWindow_of_legal (Option.eq_none_iff_forall_ne_some.mpr fun code illegal => ?_) _ _
    rcases illegalCode_eq_some_iff_toNat.mp illegal with ⟨basic, -⟩ | ⟨op, special, -⟩
    · exact notBasic basic
    · exact notSpecial ⟨op, special⟩
  · rw [BitVec.eq_of_toNat_eq (y := 0) zero]
    decide

end Sys2Proof
end

section
/-! Operand resolution (40_addressing.md): the operand a code denotes, read off the operand's own code, so that each
line of the code table is the resolver's equation for that operand; and the frame of a resolution, PC and SP alone, from
which that of both operands follows. -/

namespace Sys2Proof.Machine

open Claims

/-! ## Word arithmetic in the integers -/

theorem ofNat_toNat_add (x : Word) (k : Nat) : BitVec.ofNat 16 (x.toNat + k) = x + BitVec.ofNat 16 k := by
  rw [BitVec.ofNat_add, BitVec.ofNat_toNat, BitVec.setWidth_eq]

theorem ofInt_sub (i j : Int) : BitVec.ofInt 16 (i - j) = BitVec.ofInt 16 i - BitVec.ofInt 16 j := by
  rw [Int.sub_eq_add_neg, BitVec.ofInt_add, BitVec.ofInt_neg, BitVec.sub_eq_add_neg]

theorem ofInt_toNat (x : Word) : BitVec.ofInt 16 x.toNat = x := by
  rw [BitVec.ofInt_natCast, BitVec.ofNat_toNat, BitVec.setWidth_eq]

theorem ofInt_toNat_sub_one (x : Word) : BitVec.ofInt 16 (x.toNat - 1) = x - 1 := by
  rw [ofInt_sub, ofInt_toNat]; rfl

/-! ## The operand of a code -/

theorem number_of_getElem? {k : Nat} {r : Reg} (h : ([.a, .b, .c, .x, .y, .z, .i, .j] : List Reg)[k]? = some r) :
    r.number = k := by
  obtain ⟨bound, rfl⟩ := List.getElem?_eq_some_iff.mp h
  simp only [List.length_cons, List.length_nil, Nat.reduceAdd] at bound
  interval_cases k <;> rfl

/-- A code denotes the operand that has it: the one inline word is the next word. -/
theorem operandOf_eq {c : BitVec 6} {n : Word} {o : Operand} (code : c.toNat = o.code.toNat)
    (inline : o.inline.headD n = n) : operandOf c n = o := by
  rw [BitVec.eq_of_toNat_eq code]
  simpa only [inline] using operandOf_code o n

theorem code_reg_toNat (r : Reg) : (Operand.reg r).code.toNat = r.number := by cases r <;> rfl

theorem code_ind_toNat (r : Reg) : (Operand.ind r).code.toNat = 0x08 + r.number := by cases r <;> rfl

theorem code_idx_toNat (r : Reg) (n : Word) : (Operand.idx r n).code.toNat = 0x10 + r.number := by cases r <;> rfl

/-- The codes from 0x20 on are the short literals (30_encoding.md R106). -/
theorem operandOf_short {c : BitVec 6} (short : 0x20 ≤ c.toNat) (n : Word) :
    operandOf c n = .short (c.extractLsb' 0 5) := by
  have bound := c.isLt
  refine operandOf_eq ?_ rfl
  simp only [Operand.code, BitVec.toNat_ofNat, BitVec.extractLsb'_toNat, Nat.shiftRight_zero]
  omega

/-- A short literal is its code less 0x21 (30_encoding.md R107). -/
theorem shortValue_code {c : BitVec 6} (short : 0x20 ≤ c.toNat) :
    shortValue (c.extractLsb' 0 5) = BitVec.ofInt 16 (c.toNat - 0x21) := by
  have bound := c.isLt
  have low : ((c.extractLsb' 0 5).setWidth 16).toNat + 0x20 = c.toNat := by
    rw [BitVec.toNat_setWidth, BitVec.extractLsb'_toNat, Nat.shiftRight_zero]
    omega
  rw [shortValue, ← ofInt_toNat_sub_one]
  congr 1
  omega

/-- The extra cycle of a code is its inline word (40_addressing.md R151). -/
theorem surcharge_operandOf (c : BitVec 6) (n : Word) : surcharge (operandOf c n) = takesWord c.toNat := by
  rw [surcharge_eq_length, Operand.inline_length, code_operandOf, takesWord_toNat]

/-- Settles O6: each line of the code table is the resolver's equation for the operand of that code. -/
theorem resolverFollowsTheCodeTable : Obligations.ResolverFollowsTheCodeTable := by
  intro s pos c k r register n res next
  obtain rfl := number_of_getElem? register
  have resolved : ∀ {o}, c.toNat = o.code.toNat → o.inline.headD n = n → res = s.resolve pos o :=
    fun code inline => congrArg (s.resolve pos) (operandOf_eq code inline)
  have advanced : s.advancePc = next := congrArg s.setPc (ofNat_toNat_add s.pc 1).symm
  have offset : ∀ x : Word, BitVec.ofNat 16 (x.toNat + n.toNat) = x + n := fun x => by
    rw [ofNat_toNat_add, BitVec.ofNat_toNat, BitVec.setWidth_eq]
  rw [offset, offset, ofNat_toNat_add s.sp 1, ofInt_toNat_sub_one, ← advanced]
  refine ⟨surcharge_operandOf c n, fun reg => ?_, fun ind => ?_, fun idx => ?_, fun stack a => ?_, fun stack b => ?_,
    fun peek => resolved (o := .peek) peek rfl, fun pick => resolved (o := .pick n) pick rfl,
    fun sp => resolved (o := .sp) sp rfl, fun pc => resolved (o := .pc) pc rfl, fun ex => resolved (o := .ex) ex rfl,
    fun abs => resolved (o := .abs n) abs rfl, fun lit => resolved (o := .lit n) lit rfl, fun short => ?_⟩
  · exact resolved (reg.trans (code_reg_toNat r).symm) rfl
  · exact resolved (ind.trans (code_ind_toNat r).symm) rfl
  · exact resolved (idx.trans (code_idx_toNat r n).symm) rfl
  · rw [resolved (o := .stack) stack rfl, a]; rfl
  · rw [resolved (o := .stack) stack rfl, b]; rfl
  · rw [← shortValue_code short]
    exact congrArg (s.resolve pos) (operandOf_short short n)

/-! ## The frame of a resolution -/

theorem spAfter_a (o : Operand) (sp : Word) : spAfter .a o sp = sp + if o = .stack then 1 else 0 := by
  cases o <;> simp [spAfter]

theorem spAfter_b (o : Operand) (sp : Word) : spAfter .b o sp = sp - if o = .stack then 1 else 0 := by
  cases o <;> simp [spAfter]

/-- The state after a resolution is the state before it with another PC and SP. -/
theorem State.resolve_frame (s : State) (pos : Position) (o : Operand) :
    (s.resolve pos o).2 = (s.setPc (s.resolve pos o).2.pc).setSp (s.resolve pos o).2.sp := by
  cases o <;> cases pos <;> rfl

/-- Of two updates of PC and SP the later one stays. -/
theorem State.setPc_setSp_setPc_setSp (s : State) (pc sp pc' sp' : Word) :
    (((s.setPc pc).setSp sp).setPc pc').setSp sp' = (s.setPc pc').setSp sp' := rfl

theorem State.resolveBoth_frame (s : State) (b a : Operand) :
    (s.resolveBoth b a).st = (s.setPc (s.resolveBoth b a).st.pc).setSp (s.resolveBoth b a).st.sp := by
  have frameA := s.resolve_frame .a a
  have frameB := (s.resolve .a a).2.resolve_frame .b b
  rw [frameA, State.setPc_setSp_setPc_setSp, ← frameA] at frameB
  exact frameB

/-- Settles O7: each of the two resolutions moves PC by its inline words and SP by its stack operand, and has the frame
of PC and SP. -/
theorem operandsMoveOnlyPcAndSp : Obligations.OperandsMoveOnlyPcAndSp := by
  intro s b a t
  refine ⟨?_, ?_, s.resolveBoth_frame b a, rfl, rfl, rfl, rfl⟩
  · rw [State.resolveBoth_pc, surcharge_eq_length, surcharge_eq_length, Nat.add_assoc, ofNat_toNat_add,
      BitVec.ofNat_add, BitVec.add_assoc]
  · rw [State.resolveBoth_sp, spAfter_a, spAfter_b, ofInt_sub, BitVec.ofInt_add, ofInt_toNat,
      apply_ite (BitVec.ofInt 16), apply_ite (BitVec.ofInt 16)]
    rfl

end Sys2Proof.Machine
end

section
/-! The executor (41_executor.md): how the step is put together around the instruction, and how an instruction can end,
said once by `ExecEnd`: it pays its cycles, or a skip meets an illegal word, or a skip never ends. What a step costs and
when it stops are read off it. -/

namespace Sys2Proof.Machine

open Claims

/-! ## The step around the instruction -/

/-- No step is enabled while FAULT is set (41_executor.md R180). -/
theorem step_of_stopped {s : State} {e : DecodeError} (stopped : s.fault = some e) :
    step s = .fault (.coreStopped e) := by
  simp only [step, stopped]

theorem step_of_fetch_ok {s : State} {i : Instr} (running : s.fault = none) (fetched : s.fetch = .ok i) :
    step s = afterInstruction (exec i s.advancePc) := by
  simp only [step, running, fetched]

/-- Settles O37: a decoded list is a decoded window, and the window is what the step fetches. -/
theorem stepRunsTheDecodedInstruction : Obligations.StepRunsTheDecodedInstruction := by
  intro s i rest running decoded
  obtain ⟨fetched, -, -⟩ := decode_cons_eq_ok_iff.mp decoded
  exact step_of_fetch_ok running fetched

/-- Settles O38: a stopped state has no step, and at an illegal word the step is the illegal fetch alone. -/
theorem decodeErrorStopsTheCore : Obligations.DecodeErrorStopsTheCore :=
  ⟨fun _ _ stopped => step_of_stopped stopped, fun _ _ running illegal => step_of_illegalCode running illegal⟩

/-! ## Cycles -/

/-- The cycles of an instruction in the words of its encoding (41_executor.md R190). -/
theorem cycles_eq (i : Instr) : cycles i = baseCost i + (inlineWords i).length := by
  cases format : i.operands with
  | two b a => simp only [cycles, inlineWords, format, surcharge_eq_length, List.length_append, Nat.add_assoc]
  | one a => simp only [cycles, inlineWords, format, surcharge_eq_length]

theorem baseCost_of_two {i : Instr} {b a : Operand} (h : i.operands = .two b a) :
    baseCost i = Config.basicCost (opField (firstWord i)) := by
  rw [opField_firstWord h, baseCost, h]

theorem baseCost_of_one {i : Instr} {a : Operand} (h : i.operands = .one a) :
    baseCost i = Config.specialCost (bField (firstWord i)) := by
  rw [(fields_firstWord_special h).2, baseCost, h]

theorem inline_length_operandOf (c : BitVec 6) (n : Word) : (operandOf c n).inline.length = takesWord c.toNat := by
  rw [← surcharge_eq_length, surcharge_operandOf]

/-- Settles O60: the parameter is read at the number the instruction's word holds; the table is R191's. -/
theorem cyclesAreBaseCostAndInlineWords : Obligations.CyclesAreBaseCostAndInlineWords :=
  ⟨cycles_eq, inline_length_operandOf, fun _ _ _ => baseCost_of_two, fun _ _ => baseCost_of_one, baseCost_bounds,
    fun _ _ => rfl, fun _ _ => rfl, fun _ _ => rfl, fun _ => rfl⟩

/-! ## How an instruction ends -/

/-- The ways `i` can end from `s`: it completes and is charged at least its cycles, FAULT untouched; its skip meets an
illegal word and nothing is charged (60_exceptions.md R470); or its skip never ends (43_conditional.md R283), which only
a conditional's can. -/
inductive ExecEnd (i : Instr) (s : State) : Prop where
  | completed (u : State) (cost : Nat) (paid : cycles i ≤ cost) (cyc : u.cyc = s.cyc) (fault : u.fault = s.fault)
      (ends : exec i s = .next (u.charge cost))
  | decodeError (u : State) (code : BitVec 5) (addr : Word) (cyc : u.cyc = s.cyc)
      (ends : exec i s = .next (u.raiseDecodeError code addr))
  | endless (mk : Operand → Operand → Instr) (op : Nat) (P : Word → Word → Prop) (b a : Operand)
      (kind : IsConditional mk op P) (same : i = mk b a) (ends : exec i s = .fault .skipNeverEnds)

/-- A conditional is the shared operation of the conditionals, with a test of its own and its cycles as the cost. -/
theorem exec_of_isConditional {mk : Operand → Operand → Instr} {op : Nat} {P : Word → Word → Prop}
    (kind : IsConditional mk op P) :
    ∃ test, ∀ b a s, exec (mk b a) s = conditional test (cycles (mk b a)) b a s := by
  cases kind <;> exact ⟨_, fun _ _ _ => rfl⟩

theorem execEnd_of_isConditional {mk : Operand → Operand → Instr} {op : Nat} {P : Word → Word → Prop}
    (kind : IsConditional mk op P) (b a : Operand) (s : State) : ExecEnd (mk b a) s := by
  obtain ⟨test, meaning⟩ := exec_of_isConditional kind
  rcases conditional_cases test (cycles (mk b a)) b a s with
    ⟨-, e⟩ | ⟨-, ⟨p, count, -, e⟩ | ⟨code, p, -, e⟩ | ⟨-, e⟩⟩ <;> rw [← meaning] at e
  · exact .completed _ _ le_rfl (by simp) (by simp) e
  · exact .completed _ _ (Nat.le_add_right _ count) (by simp) (by simp) e
  · exact .decodeError _ code p (by simp) e
  · exact .endless mk op P b a kind rfl e

@[simp] theorem State.commandDevice_cyc (s : State) (k : Nat) : (s.commandDevice k).1.cyc = s.cyc := rfl

@[simp] theorem State.commandDevice_fault (s : State) (k : Nat) : (s.commandDevice k).1.fault = s.fault := rfl

/-- Every instruction that is no conditional completes, for its cycles; HWI adds what the device's command costs. -/
theorem execEnd (i : Instr) (s : State) : ExecEnd i s := by
  cases i with
  | ifb b a => exact execEnd_of_isConditional .ifb b a s
  | ifc b a => exact execEnd_of_isConditional .ifc b a s
  | ife b a => exact execEnd_of_isConditional .ife b a s
  | ifn b a => exact execEnd_of_isConditional .ifn b a s
  | ifg b a => exact execEnd_of_isConditional .ifg b a s
  | ifa b a => exact execEnd_of_isConditional .ifa b a s
  | ifl b a => exact execEnd_of_isConditional .ifl b a s
  | ifu b a => exact execEnd_of_isConditional .ifu b a s
  | hwi a => exact .completed _ _ (Nat.le_add_right _ _) (by simp) (by simp) rfl
  | _ => exact .completed _ _ le_rfl (by simp) (by simp) rfl

/-- Settles O47: the dispatch step and an illegal fetch leave CYC, so the instruction's end decides. -/
theorem completedStepsCostAtLeastOneCycle : Obligations.CompletedStepsCostAtLeastOneCycle := by
  intro s t h
  obtain ⟨running, ⟨code, -, rfl⟩ | ⟨i, u, -, hx, rfl⟩⟩ := step_next_cases h
  · exact ⟨nofun, fun _ => rfl⟩
  · cases execEnd i s.advancePc with
    | completed r cost paid cyc fault ends =>
      cases ends.symm.trans hx
      have cost_pos := (one_le_cycles i).trans paid
      have faultless : (r.charge cost).fault = none := fault.trans running
      rw [if_pos faultless]
      refine ⟨fun _ => ?_, fun faulted => absurd ((State.dispatch_fault _).trans faultless) faulted⟩
      rw [State.dispatch_cyc, State.charge_cyc, cyc]
      exact Nat.add_le_add_left cost_pos s.cyc
    | decodeError r code addr cyc ends =>
      cases ends.symm.trans hx
      rw [if_neg nofun]
      exact ⟨nofun, fun _ => cyc⟩
    | endless _ _ _ _ _ _ _ ends => cases ends.symm.trans hx

/-- Settles O48: a fetch that fails has a next state, and of an instruction's ends only the endless skip has none. -/
theorem stepStopsOnlyWhenStoppedOrStuck : Obligations.StepStopsOnlyWhenStoppedOrStuck := by
  intro s
  cases running : s.fault with
  | some e => exact .inr (.inl ⟨e, rfl, step_of_stopped running⟩)
  | none =>
    cases fetched : s.fetch with
    | error code => exact .inl ⟨_, step_of_illegalCode running (decodeWindow_eq_error_iff.mp fetched)⟩
    | ok i =>
      rw [step_of_fetch_ok running fetched]
      cases execEnd i s.advancePc with
      | completed u cost _ _ _ ends => exact .inl ⟨_, congrArg afterInstruction ends⟩
      | decodeError u code addr _ ends => exact .inl ⟨_, congrArg afterInstruction ends⟩
      | endless mk op P b a kind same ends =>
        exact .inr (.inr ⟨congrArg afterInstruction ends, rfl, i, mk, op, P, b, a, rfl, kind, same⟩)

end Sys2Proof.Machine
end

section
/-! The opcodes of 42_alu.md: what each computes, in the exact arithmetic of its rule, and which shared operation
computes it. The form of a claim then follows once for all opcodes of an operation: its spec lemma says what is written
where and what stays, and the values computed say the rest. -/

namespace Sys2Proof.Machine

open Claims

/-! ## Words from integers -/

theorem toNat_eq_zero_iff (x : Word) : x.toNat = 0 ↔ x = 0 := BitVec.toNat_inj (y := 0)

theorem toNat_ofNat_of_lt {n : Nat} (fits : n < 2 ^ 16) : (BitVec.ofNat 16 n).toNat = n :=
  (BitVec.toNat_ofNat ..).trans (Nat.mod_eq_of_lt fits)

theorem toNat_ofInt (i : Int) : ((BitVec.ofInt 16 i).toNat : Int) = i % 2 ^ 16 := by
  rw [BitVec.toNat_ofInt]
  exact Int.toNat_of_nonneg (Int.emod_nonneg i (by decide))

/-- A value no farther from zero than a signed word is a signed word too: the one in doubt is 2^15, as far as the word
-2^15, and `neg` excludes it. -/
theorem toInt_ofInt_of_natAbs_le {x : Word} {i : Int} (neg : x.toInt ≤ 0 → i ≤ 0)
    (near : i.natAbs ≤ x.toInt.natAbs) : (BitVec.ofInt 16 i).toInt = i := by
  have low : -2 ^ 15 ≤ x.toInt := x.le_toInt
  have high : x.toInt < 2 ^ 15 := x.toInt_lt
  exact BitVec.toInt_ofInt_eq_self (by decide) (by omega) (by omega)

/-- The remainder of a truncating division is on the dividend's side of zero (42_alu.md R229). -/
theorem tmod_nonpos {x : Int} (y : Int) (neg : x ≤ 0) : x.tmod y ≤ 0 := by
  have mirrored : 0 ≤ (-x).tmod y := Int.tmod_nonneg y (by omega)
  rw [Int.neg_tmod] at mirrored
  omega

theorem toInt_ofInt_tmod (x : Word) (y : Int) : (BitVec.ofInt 16 (x.toInt.tmod y)).toInt = x.toInt.tmod y :=
  toInt_ofInt_of_natAbs_le (tmod_nonpos y) (Int.natAbs_tmod .. ▸ Nat.mod_le ..)

theorem toInt_ofInt_ediv (x : Word) {d : Int} (pos : 0 < d) : (BitVec.ofInt 16 (x.toInt / d)).toInt = x.toInt / d :=
  toInt_ofInt_of_natAbs_le (Int.ediv_nonpos_of_nonpos_of_neg · pos) (Int.natAbs_ediv_le_natAbs ..)

/-! ## What each opcode computes -/

theorem addOf_values (vb va : Word) :
    (addOf vb va).result.toNat = (vb.toNat + va.toNat) % 2 ^ 16 ∧
      (addOf vb va).ex.toNat = if vb.toNat + va.toNat > 0xFFFF then 1 else 0 :=
  ⟨BitVec.toNat_ofNat .., apply_ite BitVec.toNat ..⟩

theorem subOf_values (vb va : Word) :
    ((subOf vb va).result.toNat : Int) = ((vb.toNat : Int) - va.toNat) % 2 ^ 16 ∧
      (subOf vb va).ex.toNat = if (vb.toNat : Int) - va.toNat < 0 then 0xFFFF else 0 :=
  ⟨toNat_ofInt _, apply_ite BitVec.toNat ..⟩

/-- The product of two words fits 32 bits, so its high half needs no narrowing. -/
theorem mulOf_values (vb va : Word) :
    (mulOf vb va).result.toNat = vb.toNat * va.toNat % 2 ^ 16 ∧
      (mulOf vb va).ex.toNat = vb.toNat * va.toNat / 2 ^ 16 := by
  have fits : vb.toNat * va.toNat < 2 ^ 16 * 2 ^ 16 := Nat.mul_lt_mul'' vb.isLt va.isLt
  exact ⟨BitVec.toNat_ofNat .., toNat_ofNat_of_lt (Nat.div_lt_of_lt_mul fits)⟩

/-- The two halves are those of the signed product modulo 2^32. -/
theorem mliOf_values (vb va : Word) :
    let p := vb.toInt * va.toInt
    ((mliOf vb va).result.toNat : Int) = p % 2 ^ 16 ∧ ((mliOf vb va).ex.toNat : Int) = p / 2 ^ 16 % 2 ^ 16 ∧
      (p - (2 ^ 16 * (mliOf vb va).ex.toNat + (mliOf vb va).result.toNat)) % 2 ^ 32 = 0 := by
  intro p
  have low : ((mliOf vb va).result.toNat : Int) = p % 2 ^ 16 := toNat_ofInt p
  have high : ((mliOf vb va).ex.toNat : Int) = p / 2 ^ 16 % 2 ^ 16 := by
    rw [← Int.fdiv_eq_ediv_of_nonneg p (by decide)]
    exact toNat_ofInt _
  exact ⟨low, high, by omega⟩

theorem divOf_values (vb va : Word) :
    if va.toNat = 0 then (divOf vb va).result.toNat = 0 ∧ (divOf vb va).ex.toNat = 0
    else (divOf vb va).result.toNat = vb.toNat / va.toNat ∧
      (divOf vb va).ex.toNat = vb.toNat * 2 ^ 16 / va.toNat % 2 ^ 16 := by
  split_ifs with zero <;> rw [toNat_eq_zero_iff] at zero
  · rw [divOf, if_pos zero]
    exact ⟨rfl, rfl⟩
  · rw [divOf, if_neg zero]
    exact ⟨toNat_ofNat_of_lt (Nat.div_lt_of_lt vb.isLt), BitVec.toNat_ofNat ..⟩

theorem dviOf_values (vb va : Word) :
    if va.toNat = 0 then (dviOf vb va).result.toNat = 0 ∧ (dviOf vb va).ex.toNat = 0
    else ((dviOf vb va).result.toNat : Int) = vb.toInt.tdiv va.toInt % 2 ^ 16 ∧
      ((dviOf vb va).ex.toNat : Int) = (vb.toInt * 2 ^ 16).tdiv va.toInt % 2 ^ 16 := by
  split_ifs with zero <;> rw [toNat_eq_zero_iff] at zero
  · rw [dviOf, if_pos zero]
    exact ⟨rfl, rfl⟩
  · rw [dviOf, if_neg zero]
    exact ⟨toNat_ofInt _, toNat_ofInt _⟩

theorem modOf_value (vb va : Word) :
    if va.toNat = 0 then (modOf vb va).toNat = 0 else (modOf vb va).toNat = vb.toNat % va.toNat := by
  split_ifs with zero <;> rw [toNat_eq_zero_iff] at zero
  · rw [modOf, if_pos zero]
    rfl
  · rw [modOf, if_neg zero]
    exact toNat_ofNat_of_lt ((Nat.mod_le ..).trans_lt vb.isLt)

theorem mdiOf_value (vb va : Word) :
    if va.toNat = 0 then (mdiOf vb va).toNat = 0
    else ((mdiOf vb va).toNat : Int) = (vb.toInt - va.toInt * vb.toInt.tdiv va.toInt) % 2 ^ 16 ∧
      (0 ≤ vb.toInt → 0 ≤ (mdiOf vb va).toInt) ∧ (vb.toInt ≤ 0 → (mdiOf vb va).toInt ≤ 0) := by
  split_ifs with zero <;> rw [toNat_eq_zero_iff] at zero
  · rw [mdiOf, if_pos zero]
    rfl
  · rw [mdiOf, if_neg zero, toInt_ofInt_tmod, ← Int.tmod_def]
    exact ⟨toNat_ofInt _, Int.tmod_nonneg _, tmod_nonpos _⟩

/-- The result and EX are the two halves of one 32-bit value (42_alu.md R234): dropping the low half of the shifted
value is shifting the word. -/
theorem shrOf_values (vb va : Word) :
    let d := 2 ^ (va.toNat % 32)
    (shrOf vb va).result.toNat = vb.toNat / d ∧ (shrOf vb va).ex.toNat = vb.toNat * 2 ^ 16 / d % 2 ^ 16 ∧
      2 ^ 16 * (shrOf vb va).result.toNat + (shrOf vb va).ex.toNat = vb.toNat * 2 ^ 16 / d := by
  intro d
  have result : (shrOf vb va).result.toNat = vb.toNat / d :=
    toNat_ofNat_of_lt (Nat.div_lt_of_lt vb.isLt)
  have ex : (shrOf vb va).ex.toNat = vb.toNat * 2 ^ 16 / d % 2 ^ 16 := BitVec.toNat_ofNat ..
  have high : vb.toNat * 2 ^ 16 / d / 2 ^ 16 = vb.toNat / d := by
    rw [Nat.div_div_eq_div_mul, Nat.mul_div_mul_right _ _ (by decide)]
  refine ⟨result, ex, ?_⟩
  rw [result, ex, ← high, Nat.div_add_mod]

theorem shlOf_values (vb va : Word) :
    let t := vb.toNat * 2 ^ (va.toNat % 32) % 2 ^ 32
    (shlOf vb va).result.toNat = t % 2 ^ 16 ∧ (shlOf vb va).ex.toNat = t / 2 ^ 16 := by
  intro t
  have fits : t < 2 ^ 16 * 2 ^ 16 := Nat.mod_lt _ (by decide)
  exact ⟨BitVec.toNat_ofNat .., toNat_ofNat_of_lt (Nat.div_lt_of_lt_mul fits)⟩

/-- As `shrOf_values`, on the signed value: the upper half is the signed result (42_alu.md R235). -/
theorem asrOf_values (vb va : Word) :
    let d : Int := 2 ^ (va.toNat % 32)
    ((asrOf vb va).result.toNat : Int) = vb.toInt / d % 2 ^ 16 ∧
      ((asrOf vb va).ex.toNat : Int) = vb.toInt * 2 ^ 16 / d % 2 ^ 16 ∧
      2 ^ 16 * (asrOf vb va).result.toInt + (asrOf vb va).ex.toNat = vb.toInt * 2 ^ 16 / d := by
  intro d
  have pos : 0 < d := pow_pos (by decide) _
  have floor : ∀ i : Int, i.fdiv d = i / d := fun i => Int.fdiv_eq_ediv_of_nonneg i pos.le
  have values : asrOf vb va =
      { result := BitVec.ofInt 16 (vb.toInt / d), ex := BitVec.ofInt 16 (vb.toInt * 2 ^ 16 / d) } := by
    rw [← floor, ← floor]
    rfl
  have high : vb.toInt * 2 ^ 16 / d / 2 ^ 16 = vb.toInt / d := by
    rw [Int.ediv_ediv_of_nonneg pos.le, Int.mul_ediv_mul_of_pos_left _ _ (by decide)]
  rw [values]
  refine ⟨toNat_ofInt _, toNat_ofInt _, ?_⟩
  rw [toInt_ofInt_ediv vb pos, toNat_ofInt, ← high, Int.mul_ediv_add_emod]

theorem adxOf_values (vb va ex : Word) :
    (adxOf vb va ex).result.toNat = (vb.toNat + va.toNat + ex.toNat) % 2 ^ 16 ∧
      (adxOf vb va ex).ex.toNat = if vb.toNat + va.toNat + ex.toNat > 0xFFFF then 1 else 0 :=
  ⟨BitVec.toNat_ofNat .., apply_ite BitVec.toNat ..⟩

theorem sbxExAbove_toNat : sbxExAbove.toNat = if Config.sbxExAbove then 1 else 0 := apply_ite BitVec.toNat ..

theorem sbxOf_values (vb va ex : Word) :
    let r : Int := vb.toNat - va.toNat + ex.toNat
    ((sbxOf vb va ex).result.toNat : Int) = r % 2 ^ 16 ∧
      (sbxOf vb va ex).ex.toNat =
        (if r < 0 then 1 else if r > 0xFFFF then (if Config.sbxExAbove then 1 else 0) else 0) ∧
      (sbxOf vb va ex).ex.toNat ≤ 1 := by
  intro r
  have borrow : (sbxOf vb va ex).ex.toNat =
      if r < 0 then 1 else if r > 0xFFFF then (if Config.sbxExAbove then 1 else 0) else 0 := by
    rw [← sbxExAbove_toNat]
    exact (apply_ite BitVec.toNat ..).trans (congrArg _ (apply_ite BitVec.toNat ..))
  refine ⟨toNat_ofInt r, borrow, ?_⟩
  rw [borrow]
  split_ifs <;> decide

/-! ## The word of a basic instruction -/

theorem packWord_toNat (a : BitVec 6) (b op : BitVec 5) :
    (packWord a b op).toNat = 1024 * a.toNat + 32 * b.toNat + op.toNat := by
  have hop := opField_toNat (packWord a b op)
  have hb := bField_toNat (packWord a b op)
  have ha := aField_toNat (packWord a b op)
  rw [opField_packWord] at hop
  rw [bField_packWord] at hb
  rw [aField_packWord] at ha
  omega

/-- The word of a well-formed basic instruction is its two operand codes and its opcode (30_encoding.md R101). -/
theorem firstWord_toNat {i : Instr} {b a : Operand} (format : i.operands = .two b a) (h : i.wellFormed = true) :
    (firstWord i).toNat = 1024 * a.code.toNat + 32 * b.code.toNat + i.number.toNat := by
  have fits : b.fitsB = true := by simpa only [Instr.wellFormed, format] using h
  have code : (b.code.setWidth 5).toNat = b.code.toNat := by
    rw [← BitVec.toNat_setWidth_of_le (w' := 6) (by decide), code_setWidth fits]
  rw [firstWord, format, packWord_toNat, code]

/-! ## Which shared operation computes what -/

/-- The opcodes that write EX beside their result, with the rule each computes by. -/
inductive ComputesResultAndEx : (Operand → Operand → Instr) → Nat → (Word → Word → Word → ResultEx) → Prop where
  | add : ComputesResultAndEx .add 0x02 fun vb va _ => addOf vb va
  | sub : ComputesResultAndEx .sub 0x03 fun vb va _ => subOf vb va
  | mul : ComputesResultAndEx .mul 0x04 fun vb va _ => mulOf vb va
  | mli : ComputesResultAndEx .mli 0x05 fun vb va _ => mliOf vb va
  | div : ComputesResultAndEx .div 0x06 fun vb va _ => divOf vb va
  | dvi : ComputesResultAndEx .dvi 0x07 fun vb va _ => dviOf vb va
  | shr : ComputesResultAndEx .shr 0x0D fun vb va _ => shrOf vb va
  | asr : ComputesResultAndEx .asr 0x0E fun vb va _ => asrOf vb va
  | shl : ComputesResultAndEx .shl 0x0F fun vb va _ => shlOf vb va
  | adx : ComputesResultAndEx .adx 0x1A adxOf
  | sbx : ComputesResultAndEx .sbx 0x1B sbxOf

/-- The opcodes that write a result alone, with the rule each computes by. -/
inductive ComputesResult : (Operand → Operand → Instr) → Nat → (Word → Word → Word) → Prop where
  | set : ComputesResult .set 0x01 fun _ va => va
  | mod : ComputesResult .mod 0x08 modOf
  | mdi : ComputesResult .mdi 0x09 mdiOf
  | and : ComputesResult .and 0x0A fun vb va => vb &&& va
  | bor : ComputesResult .bor 0x0B fun vb va => vb ||| va
  | xor : ComputesResult .xor 0x0C fun vb va => vb ^^^ va

/-- The block copies, with the distance each moves I and J by. -/
inductive MovesBy : (Operand → Operand → Instr) → Nat → Word → Prop where
  | sti : MovesBy .sti 0x1E 1
  | std : MovesBy .std 0x1F 0xFFFF

section
variable {mk : Operand → Operand → Instr} {op : Nat}

theorem opField_firstWord_toNat {i : Instr} {b a : Operand} (format : i.operands = .two b a)
    (number : i.number.toNat = op) : (opField (firstWord i)).toNat = op := by
  rw [opField_firstWord format, number]

theorem ComputesResultAndEx.opField_eq {f : Word → Word → Word → ResultEx} (h : ComputesResultAndEx mk op f)
    (b a : Operand) : (opField (firstWord (mk b a))).toNat = op := by
  cases h <;> exact opField_firstWord_toNat rfl rfl

theorem ComputesResultAndEx.exec_eq {f : Word → Word → Word → ResultEx} (h : ComputesResultAndEx mk op f)
    (b a : Operand) (s : State) : exec (mk b a) s = resultAndEx f (cycles (mk b a)) b a s := by
  cases h <;> rfl

/-- Such an opcode has the form of the claims, for whatever holds of the values it computes. -/
theorem ComputesResultAndEx.writes {f : Word → Word → Word → ResultEx} (h : ComputesResultAndEx mk op f)
    {P : Word → Word → Word → Word → Word → Prop}
    (values : ∀ vb va ex, P vb va ex (f vb va ex).result (f vb va ex).ex) : WritesResultAndEx mk op P := by
  intro b a s
  obtain ⟨t, ends, wrote, cyc⟩ := resultAndEx_spec f (cycles (mk b a)) b a s
  exact ⟨h.opField_eq b a, t, _, _, (h.exec_eq b a s).trans ends, values _ _ _, wrote, cyc⟩

theorem ComputesResult.opField_eq {f : Word → Word → Word} (h : ComputesResult mk op f) (b a : Operand) :
    (opField (firstWord (mk b a))).toNat = op := by
  cases h <;> exact opField_firstWord_toNat rfl rfl

theorem ComputesResult.exec_eq {f : Word → Word → Word} (h : ComputesResult mk op f) (b a : Operand) (s : State) :
    exec (mk b a) s = resultOnly f (cycles (mk b a)) b a s := by
  cases h <;> rfl

theorem ComputesResult.writes {f : Word → Word → Word} (h : ComputesResult mk op f) {P : Word → Word → Word → Prop}
    (value : ∀ vb va, P vb va (f vb va)) : WritesResult mk op P := by
  intro b a s
  obtain ⟨t, ends, wrote, cyc⟩ := resultOnly_spec f (cycles (mk b a)) b a s
  exact ⟨h.opField_eq b a, t, _, (h.exec_eq b a s).trans ends, value _ _, wrote, cyc⟩

theorem MovesBy.opField_eq {d : Word} (h : MovesBy mk op d) (b a : Operand) :
    (opField (firstWord (mk b a))).toNat = op := by
  cases h <;> exact opField_firstWord_toNat rfl rfl

/-- Down by one is up by 0xFFFF modulo 2^16. -/
theorem MovesBy.exec_eq {d : Word} (h : MovesBy mk op d) (b a : Operand) (s : State) :
    exec (mk b a) s = blockCopy d (cycles (mk b a)) b a s := by
  cases h <;> rfl

/-- I and J move from the values the write left (42_alu.md R246, R247). -/
theorem reg_of_moved (u : State) (d : Word) (q : Reg) :
    ((u.setReg .i (u.reg .i + d)).setReg .j (u.reg .j + d)).reg q = u.reg q + if q = .i ∨ q = .j then d else 0 := by
  cases q <;> simp

theorem MovesBy.copiesAndMoves {d : Word} (h : MovesBy mk op d) : CopiesAndMoves mk op d := by
  intro b a s
  obtain ⟨t, u, ends, ⟨regs, sp, pc, ex, mem, ⟨ia, iq, ifq⟩, ⟨fault, devices, time, last, bal⟩⟩, rfl, cyc⟩ :=
    blockCopy_spec d (cycles (mk b a)) b a s
  refine ⟨h.opField_eq b a, _, (h.exec_eq b a s).trans ends, fun q => ?_, sp, pc, ex, mem, ⟨ia, iq, ifq⟩,
    ⟨fault, devices, time, last, bal⟩, congrArg (· + cycles (mk b a)) cyc⟩
  rw [State.charge_reg, reg_of_moved, regs]

end

/-! ## The statements -/

/-- Settles O8: the result is a's value, and the word that of R101 with opcode 1. -/
theorem setWritesTheSourceValue : Obligations.SetWritesTheSourceValue :=
  ⟨ComputesResult.set.writes fun _ _ => rfl, fun _ _ => firstWord_toNat rfl⟩

/-- Settles O9, by what ADD and SUB compute. -/
theorem addAndSubWriteResultAndCarry : Obligations.AddAndSubWriteResultAndCarry :=
  ⟨ComputesResultAndEx.add.writes fun vb va _ => addOf_values vb va,
    ComputesResultAndEx.sub.writes fun vb va _ => subOf_values vb va⟩

/-- Settles O10, by what MUL and MLI compute. -/
theorem mulAndMliWriteBothProductHalves : Obligations.MulAndMliWriteBothProductHalves :=
  ⟨ComputesResultAndEx.mul.writes fun vb va _ => mulOf_values vb va,
    ComputesResultAndEx.mli.writes fun vb va _ => mliOf_values vb va⟩

/-- Settles O11, by what DIV and DVI compute. -/
theorem divAndDviWriteQuotientAndFraction : Obligations.DivAndDviWriteQuotientAndFraction :=
  ⟨ComputesResultAndEx.div.writes fun vb va _ => divOf_values vb va,
    ComputesResultAndEx.dvi.writes fun vb va _ => dviOf_values vb va⟩

/-- Settles O12, by what MOD and MDI compute. -/
theorem modAndMdiWriteTheRemainder : Obligations.ModAndMdiWriteTheRemainder :=
  ⟨ComputesResult.mod.writes modOf_value, ComputesResult.mdi.writes mdiOf_value⟩

/-- Settles O13: the operations on words are those on each bit. -/
theorem logicWorksBitByBit : Obligations.LogicWorksBitByBit :=
  ⟨ComputesResult.and.writes fun _ _ _ => BitVec.getLsbD_and,
    ComputesResult.bor.writes fun _ _ _ => BitVec.getLsbD_or,
    ComputesResult.xor.writes fun _ _ _ => BitVec.getLsbD_xor⟩

/-- Settles O14, by what SHR and SHL compute. -/
theorem shrAndShlShiftThirtyTwoBits : Obligations.ShrAndShlShiftThirtyTwoBits :=
  ⟨ComputesResultAndEx.shr.writes fun vb va _ => shrOf_values vb va,
    ComputesResultAndEx.shl.writes fun vb va _ => shlOf_values vb va⟩

/-- Settles O15, by what ASR computes. -/
theorem asrShiftsTheSignedThirtyTwoBits : Obligations.AsrShiftsTheSignedThirtyTwoBits :=
  ComputesResultAndEx.asr.writes fun vb va _ => asrOf_values vb va

/-- Settles O16, by what ADX computes with EX as it was at entry. -/
theorem adxAddsWithCarryIn : Obligations.AdxAddsWithCarryIn := ComputesResultAndEx.adx.writes adxOf_values

/-- Settles O17, by what SBX computes with EX as it was at entry. -/
theorem sbxSubtractsWithCarryIn : Obligations.SbxSubtractsWithCarryIn := ComputesResultAndEx.sbx.writes sbxOf_values

/-- Settles O18: the write to a's location comes first, then I and J move. -/
theorem stiAndStdCopyBToAAndMove : Obligations.StiAndStdCopyBToAAndMove :=
  ⟨MovesBy.sti.copiesAndMoves, MovesBy.std.copiesAndMoves⟩

end Sys2Proof.Machine
end

section
/-! The conditional opcodes (43_conditional.md): where a skip over a chain of conditionals ends, what a conditional answers
when its predicate holds and when it fails, and the frame of both. -/

namespace Sys2Proof.Machine

open Claims

/-! ## Where a skip ends (43_conditional.md R282, R283) -/

section
variable {m : Memory} {p : Word} {n : Nat}

theorem chainPasses_succ_iff : chainPasses m p (n + 1) ↔ chainPasses m p n ∧
    illegalCode (m.read (skipPath m p n)) = none ∧ isConditional (m.read (skipPath m p n)) = true :=
  Nat.forall_lt_succ_right

/-- A skip passes a chain of `n` conditionals for `n` units of its fuel, and goes on after it: by induction on the last
conditional of the chain, which `skipPath` is defined by too. -/
theorem skipFrom_of_chainPasses (chain : chainPasses m p n) (fuel count : Nat) :
    skipFrom m (n + fuel) p count = skipFrom m fuel (skipPath m p n) (count + n) := by
  induction n generalizing fuel with
  | zero => rw [Nat.zero_add]; rfl
  | succ n ih =>
    obtain ⟨before, legal, passes⟩ := chainPasses_succ_iff.mp chain
    calc skipFrom m (n + 1 + fuel) p count
        = skipFrom m (n + (fuel + 1)) p count := by rw [Nat.add_assoc, Nat.add_comm 1]
      _ = skipFrom m (fuel + 1) (skipPath m p n) (count + n) := ih before _
      _ = skipFrom m fuel (skipPath m p (n + 1)) (count + (n + 1)) := by
        simp [skipFrom, skipPath, legal, passes, Nat.add_assoc]

/-- After a chain that ends within the fuel, the skip looks at the word where the chain ends. -/
theorem skip_of_chainPasses (chain : chainPasses m p n) (ends : n < skipLimit) :
    ∃ fuel, skip m p = skipFrom m (fuel + 1) (skipPath m p n) n := by
  obtain ⟨fuel, limit⟩ := Nat.exists_eq_add_of_lt ends
  refine ⟨fuel, ?_⟩
  rw [skip, limit, Nat.add_assoc, skipFrom_of_chainPasses chain, Nat.zero_add]

/-- The skip passes the first instruction that is no conditional too, and ends (43_conditional.md R282). -/
theorem skip_of_last (chain : chainPasses m p n) (legal : illegalCode (m.read (skipPath m p n)) = none)
    (last : isConditional (m.read (skipPath m p n)) = false) : skip m p = .passed (skipPath m p (n + 1)) (n + 1) := by
  obtain ⟨fuel, e⟩ := skip_of_chainPasses chain (lt_skipLimit_of_chainPasses chain (by simp [last]))
  rw [e]
  simp [skipFrom, skipPath, legal, last]

/-- At an illegal word the skip ends without passing it (43_conditional.md R282). -/
theorem skip_of_illegal {code : BitVec 5} (chain : chainPasses m p n)
    (illegal : illegalCode (m.read (skipPath m p n)) = some code) : skip m p = .illegal code (skipPath m p n) := by
  obtain ⟨fuel, e⟩ := skip_of_chainPasses chain (lt_skipLimit_of_chainPasses chain (by simp [illegal]))
  rw [e]
  simp [skipFrom, illegal]

/-- The fuel of the skip loses nothing: a skip that uses it up would never end (43_conditional.md R283). -/
theorem skip_eq_endless_iff : skip m p = .endless ↔ chainNeverEnds m p := by
  constructor
  · intro endless
    rcases skipFrom_cases m skipLimit p 0 with ⟨n, -, -, -, -, e⟩ | ⟨n, -, code, -, -, e⟩ | ⟨chain, -⟩
    · cases endless.symm.trans e
    · cases endless.symm.trans e
    · exact chainNeverEnds_of_chainPasses chain
  · intro never
    exact skipFrom_of_chainPasses (never skipLimit) 0 0

end

/-! ## What a failed conditional answers -/

/-- The outcome of a conditional of cycles `cost` whose operands left `u` and whose skip ended so (43_conditional.md R281
to R283). -/
def afterSkip (cost : Nat) (u : State) : SkipEnd → StepOutcome
  | .passed p count => .next ((u.setPc p).charge (cost + count))
  | .illegal code p => .next ((u.setPc p).raiseDecodeError code p)
  | .endless => .fault .skipNeverEnds

theorem afterSkip_eq_skipNeverEnds_iff (cost : Nat) (u : State) (e : SkipEnd) :
    afterSkip cost u e = .fault .skipNeverEnds ↔ e = .endless := by
  cases e <;> simp [afterSkip]

theorem conditional_of_false {test : Word → Word → Bool} {b a : Operand} {s : State}
    (failed : test (s.resolveBoth b a).vb (s.resolveBoth b a).va = false) (cost : Nat) :
    conditional test cost b a s =
      afterSkip cost (s.resolveBoth b a).st (skip s.mem (s.resolveBoth b a).st.pc) := by
  rw [← s.resolveBoth_mem b a]
  rcases conditional_cases test cost b a s with ⟨held, -⟩ | ⟨-, ⟨p, count, e, ends⟩ | ⟨code, p, e, ends⟩ | ⟨e, ends⟩⟩
  · cases failed.symm.trans held
  all_goals rw [ends, e]; rfl

/-! ## The eight conditionals -/

section
variable {mk : Operand → Operand → Instr} {op : Nat} {P : Word → Word → Prop} (kind : IsConditional mk op P)
include kind

theorem operands_of_isConditional (b a : Operand) : (mk b a).operands = .two b a := by
  cases kind <;> rfl

theorem number_of_isConditional (b a : Operand) : (mk b a).number.toNat = op := by
  cases kind <;> rfl

/-- The base cost of a conditional in the table of 41_executor.md R191. -/
theorem tableCost_of_isConditional (b a : Operand) : tableCost (mk b a) = 2 := by
  cases kind <;> rfl

theorem cycles_of_isConditional (b a : Operand) :
    cycles (mk b a) = baseCost (mk b a) + a.inline.length + b.inline.length := by
  simp only [cycles, operands_of_isConditional kind, surcharge_eq_length]

/-- The test of a conditional decides its predicate (43_conditional.md R284 to R291). -/
theorem exec_eq_conditional_of_isConditional :
    ∃ test : Word → Word → Bool, (∀ vb va, test vb va = true ↔ P vb va) ∧
      ∀ b a s, exec (mk b a) s = conditional test (cycles (mk b a)) b a s := by
  cases kind with
  | ifb => exact ⟨bitsSet, fun _ _ => decide_eq_true_iff, fun _ _ _ => rfl⟩
  | ifc => exact ⟨bitsClear, fun _ _ => decide_eq_true_iff, fun _ _ _ => rfl⟩
  | ife => exact ⟨equal, fun _ _ => decide_eq_true_iff, fun _ _ _ => rfl⟩
  | ifn => exact ⟨notEqual, fun _ _ => decide_eq_true_iff, fun _ _ _ => rfl⟩
  | ifg => exact ⟨greater, fun _ _ => decide_eq_true_iff, fun _ _ _ => rfl⟩
  | ifa => exact ⟨above, fun _ _ => decide_eq_true_iff, fun _ _ _ => rfl⟩
  | ifl => exact ⟨less, fun _ _ => decide_eq_true_iff, fun _ _ _ => rfl⟩
  | ifu => exact ⟨under, fun _ _ => decide_eq_true_iff, fun _ _ _ => rfl⟩

theorem exec_of_predicate {b a : Operand} {s : State} (holds : P (s.resolveBoth b a).vb (s.resolveBoth b a).va) :
    exec (mk b a) s = .next ((s.resolveBoth b a).st.charge (cycles (mk b a))) := by
  obtain ⟨test, decides, meaning⟩ := exec_eq_conditional_of_isConditional kind
  rw [meaning, conditional, if_pos ((decides _ _).mpr holds)]

theorem exec_of_not_predicate {b a : Operand} {s : State}
    (fails : ¬P (s.resolveBoth b a).vb (s.resolveBoth b a).va) :
    exec (mk b a) s =
      afterSkip (cycles (mk b a)) (s.resolveBoth b a).st (skip s.mem (s.resolveBoth b a).st.pc) := by
  obtain ⟨test, decides, meaning⟩ := exec_eq_conditional_of_isConditional kind
  rw [meaning, conditional_of_false (Bool.eq_false_iff.mpr (mt (decides _ _).mp fails))]

end

/-! ## The frame of a conditional (43_conditional.md R280) -/

theorem resolveBoth_wroteNothing (s : State) (b a : Operand) : WroteNothing s (s.resolveBoth b a).st :=
  ⟨by simp, by simp, by simp, by simp, by simp, by simp⟩

theorem resolveBoth_keepsPlatform (s : State) (b a : Operand) : KeepsPlatform s (s.resolveBoth b a).st :=
  ⟨by simp, by simp, by simp, by simp, by simp⟩

section
variable {s t : State}

theorem WroteNothing.setPc (h : WroteNothing s t) (v : Word) : WroteNothing s (t.setPc v) :=
  ⟨h.regs, h.ex, h.mem, h.interrupts.ia, h.interrupts.iq, h.interrupts.ifq⟩

theorem WroteNothing.charge (h : WroteNothing s t) (cost : Nat) : WroteNothing s (t.charge cost) :=
  ⟨h.regs, h.ex, h.mem, h.interrupts.ia, h.interrupts.iq, h.interrupts.ifq⟩

theorem WroteNothing.raiseDecodeError (h : WroteNothing s t) (code : BitVec 5) (addr : Word) :
    WroteNothing s (t.raiseDecodeError code addr) :=
  ⟨h.regs, h.ex, h.mem, h.interrupts.ia, h.interrupts.iq, h.interrupts.ifq⟩

theorem KeepsPlatform.setPc (h : KeepsPlatform s t) (v : Word) : KeepsPlatform s (t.setPc v) :=
  ⟨h.fault, h.devices, h.time, h.last, h.bal⟩

theorem KeepsPlatform.charge (h : KeepsPlatform s t) (cost : Nat) : KeepsPlatform s (t.charge cost) :=
  ⟨h.fault, h.devices, h.time, h.last, h.bal⟩

end

/-! ## The statements -/

/-- Settles O19: a test that holds leaves what the operands left, and charges the cycles. -/
theorem trueTestRunsOn : Obligations.TrueTestRunsOn := by
  intro mk op P kind b a s
  refine ⟨opField_firstWord_toNat (operands_of_isConditional kind b a) (number_of_isConditional kind b a),
    fun holds => ⟨_, exec_of_predicate kind holds, (resolveBoth_wroteNothing s b a).charge _,
      (resolveBoth_keepsPlatform s b a).charge _, ⟨rfl, rfl⟩, ?_⟩⟩
  rw [State.charge_cyc, State.resolveBoth_cyc, cycles_of_isConditional kind]
  omega

/-- Settles O20: the skip passes the `n` conditionals and the instruction after them. -/
theorem falseTestSkipsTheChain : Obligations.FalseTestSkipsTheChain := by
  intro mk op P kind b a s n r last fails chain legal notConditional
  have ends := exec_of_not_predicate kind fails
  rw [skip_of_last chain legal notConditional] at ends
  refine ⟨_, ends, ((resolveBoth_wroteNothing s b a).setPc _).charge _,
    ((resolveBoth_keepsPlatform s b a).setPc _).charge _, rfl, rfl, ?_, tableCost_of_isConditional kind b a⟩
  rw [State.charge_cyc, State.setPc_cyc, State.resolveBoth_cyc, cycles_of_isConditional kind]
  omega

/-- Settles O21: the skip ends at the illegal word, and the decode error is raised there. -/
theorem skipMeetingAnIllegalWordFaults : Obligations.SkipMeetingAnIllegalWordFaults := by
  intro mk op P kind b a s n code r addr fails chain illegal
  have ends := exec_of_not_predicate kind fails
  rw [skip_of_illegal chain illegal] at ends
  have platform := resolveBoth_keepsPlatform s b a
  exact ⟨_, ends, ((resolveBoth_wroteNothing s b a).setPc addr).raiseDecodeError code addr, rfl, rfl, rfl,
    s.resolveBoth_cyc b a, platform.devices, platform.time, platform.last, platform.bal⟩

/-- Settles O22: of the ends of a skip only the endless one has no successor. -/
theorem endlessChainIsStuckAndNothingElseIs : Obligations.EndlessChainIsStuckAndNothingElseIs := by
  intro mk op P kind b a s r fails
  rw [exec_of_not_predicate kind fails, afterSkip_eq_skipNeverEnds_iff, skip_eq_endless_iff]

end Sys2Proof.Machine
end

section
/-! The special opcodes (44_special.md): the word and the charge of each, the frame its operand leaves, and what the
stack, the interrupt controller, the dispatch step and the bus do beyond that frame. -/

namespace Sys2Proof.Machine

open Claims

/-! ## The word and the charge of a special instruction -/

theorem hasSpecialOpcode_of_one {i : Instr} {a : Operand} {sop : Nat} (format : i.operands = .one a)
    (number : i.number.toNat = sop) : HasSpecialOpcode i sop := by
  obtain ⟨op, b⟩ := fields_firstWord_special format
  exact ⟨congrArg BitVec.toNat op, (congrArg BitVec.toNat b).trans number⟩

/-- The word of a special instruction is its operand code and its number (30_encoding.md R102). -/
theorem firstWord_toNat_of_one {i : Instr} {a : Operand} (format : i.operands = .one a) :
    (firstWord i).toNat = 1024 * a.code.toNat + 32 * i.number.toNat := by
  rw [firstWord, format, packWord_toNat]
  rfl

/-- A state charged the cycles of `i`, with CYC as at entry before that, is `Charged`. -/
theorem charged_charge {i : Instr} {n : Nat} {s u : State} (table : tableCost i = n) (cyc : u.cyc = s.cyc) :
    Charged i n s (u.charge (cycles i)) := by
  refine ⟨?_, table⟩
  rw [State.charge_cyc, cyc, cycles_eq, Nat.add_assoc]

/-! ## Frames -/

theorem KeepsInterrupts.trans {s t u : State} (h : KeepsInterrupts s t) (k : KeepsInterrupts t u) :
    KeepsInterrupts s u :=
  ⟨k.ia.trans h.ia, k.iq.trans h.iq, k.ifq.trans h.ifq⟩

theorem KeepsPlatform.trans {s t u : State} (h : KeepsPlatform s t) (k : KeepsPlatform t u) : KeepsPlatform s u :=
  ⟨k.fault.trans h.fault, k.devices.trans h.devices, k.time.trans h.time, k.last.trans h.last, k.bal.trans h.bal⟩

/-- The operand of a special instruction is resolved without a write (44_special.md R310). -/
theorem resolve_wroteNothing (s : State) (pos : Position) (o : Operand) : WroteNothing s (s.resolve pos o).2 :=
  ⟨s.resolve_reg pos o, s.resolve_ex pos o, s.resolve_readMem pos o,
    s.resolve_ia pos o, s.resolve_iq pos o, s.resolve_ifq pos o⟩

theorem resolve_keepsPlatform (s : State) (pos : Position) (o : Operand) : KeepsPlatform s (s.resolve pos o).2 :=
  ⟨s.resolve_fault pos o, s.resolve_devices pos o, s.resolve_time pos o, s.resolve_last pos o, s.resolve_bal pos o⟩

/-! ## The stack and the interrupt controller -/

/-- Settles O23: the push comes after the operand, and PC takes the value read before it. -/
theorem jsrPushesTheReturnAddress : Obligations.JsrPushesTheReturnAddress := by
  intro a s
  refine ⟨firstWord_toNat_of_one rfl, ?_⟩
  intro mid
  have entry : WroteNothing s mid := resolve_wroteNothing s .a a
  have platform : KeepsPlatform s mid := resolve_keepsPlatform s .a a
  refine ⟨_, rfl, rfl, rfl, fun addr => ?_, entry.regs, entry.ex, entry.interrupts.trans ⟨rfl, rfl, rfl⟩,
    platform.trans ⟨rfl, rfl, rfl, rfl, rfl⟩, charged_charge rfl (s.resolve_cyc .a a)⟩
  rw [← entry.mem addr]
  exact State.push_readMem mid mid.pc addr

/-- While IQ = 1 the dispatch step does nothing (60_exceptions.md R453). -/
theorem State.dispatch_of_queueing {s : State} (queueing : s.iq = true) : s.dispatch = s := by
  rw [State.dispatch, if_pos queueing]

/-- With IQ = 0 the dispatch step delivers the only message of the FIFO (60_exceptions.md R453, R454). -/
theorem State.dispatch_of_singleton {s : State} {m : Word} (delivers : s.iq = false) (only : s.ifq = [m]) :
    s.dispatch.ifq = [] ∧ s.dispatch.pc = s.ia ∧ s.dispatch.reg .a = m ∧ s.dispatch.iq = true := by
  have delivered : s.dispatch = s.deliver m [] := by
    simp only [State.dispatch, delivers, only, Bool.false_eq_true, if_false]
  rw [delivered]
  exact ⟨rfl, rfl, (s.deliver_reg m [] .a).trans (if_pos rfl), rfl⟩

/-- Settles O24: the message goes to the tail of the FIFO, where the dispatch step finds it when it is the only one. -/
theorem intEnqueuesItsOperand : Obligations.IntEnqueuesItsOperand := by
  intro a s
  refine ⟨hasSpecialOpcode_of_one rfl rfl, ?_⟩
  intro mid
  have entry : WroteNothing s mid := resolve_wroteNothing s .a a
  have platform : KeepsPlatform s mid := resolve_keepsPlatform s .a a
  have appended : mid.ifq ++ [mid.readLoc (s.resolve .a a).1] = s.ifq ++ [mid.readLoc (s.resolve .a a).1] := by
    rw [entry.interrupts.ifq]
  refine ⟨_, rfl, appended, entry.interrupts.ia, entry.interrupts.iq, entry.regs, entry.ex, entry.mem, ⟨rfl, rfl⟩,
    platform.trans ⟨rfl, rfl, rfl, rfl, rfl⟩, charged_charge rfl (s.resolve_cyc .a a),
    fun queueing => State.dispatch_of_queueing (entry.interrupts.iq.trans queueing), fun delivers empty => ?_⟩
  rw [empty] at appended
  rw [← entry.interrupts.ia]
  exact State.dispatch_of_singleton (entry.interrupts.iq.trans delivers) appended

/-- Settles O25: the resolution leaves IA, which is written to the location alone. -/
theorem iagWritesIaToItsOperand : Obligations.IagWritesIaToItsOperand := by
  intro a s
  refine ⟨hasSpecialOpcode_of_one rfl rfl, _, rfl, ?_,
    charged_charge rfl (by rw [State.writeLoc_cyc, State.resolve_cyc])⟩
  rw [State.resolve_ia]
  exact writeLoc_charge_wroteOnly_a s a (s.resolve .a a).1 s.ia (cycles (.iag a))

/-- Settles O26: IA is the one write after the operand. -/
theorem iasSetsIa : Obligations.IasSetsIa := by
  intro a s
  have entry := resolve_wroteNothing s .a a
  have platform := resolve_keepsPlatform s .a a
  exact ⟨hasSpecialOpcode_of_one rfl rfl, _, rfl, rfl, entry.interrupts.iq, entry.interrupts.ifq, entry.regs,
    entry.ex, entry.mem, ⟨rfl, rfl⟩, platform.trans ⟨rfl, rfl, rfl, rfl, rfl⟩,
    charged_charge rfl (s.resolve_cyc .a a)⟩

/-- Settles O27: the return from an interrupt starts where the operand left the stack, on the memory of entry. -/
theorem rfiPopsAThenPcAndClearsIq : Obligations.RfiPopsAThenPcAndClearsIq := by
  intro a s
  refine ⟨hasSpecialOpcode_of_one rfl rfl, ?_⟩
  intro mid
  have entry : WroteNothing s mid := resolve_wroteNothing s .a a
  have platform : KeepsPlatform s mid := resolve_keepsPlatform s .a a
  refine ⟨_, rfl, ?popsA, entry.mem (mid.sp + 1), BitVec.add_assoc mid.sp 1 1, rfl, entry.interrupts.ia,
    entry.interrupts.ifq, fun r other => ?keeps, entry.ex, entry.mem,
    platform.trans ⟨rfl, rfl, rfl, rfl, rfl⟩, charged_charge rfl (s.resolve_cyc .a a)⟩
  case popsA => rw [State.charge_reg, State.returnFromInterrupt_reg, if_pos rfl, entry.mem]
  case keeps => rw [State.charge_reg, State.returnFromInterrupt_reg, if_neg other, entry.regs]

/-- Settles O28: IQ is the one write after the operand, and only the word 0 has the value 0. -/
theorem iaqSetsOrClearsQueueing : Obligations.IaqSetsOrClearsQueueing := by
  intro a s
  have entry := resolve_wroteNothing s .a a
  have platform := resolve_keepsPlatform s .a a
  exact ⟨hasSpecialOpcode_of_one rfl rfl, _, rfl, decide_eq_true_iff.trans BitVec.toNat_ne, entry.interrupts.ia,
    entry.interrupts.ifq, entry.regs, entry.ex, entry.mem, ⟨rfl, rfl⟩, platform.trans ⟨rfl, rfl, rfl, rfl, rfl⟩,
    charged_charge rfl (s.resolve_cyc .a a)⟩

/-! ## The hardware bus -/

/-- Settles O29: the resolution leaves the devices, whose number is written to the location alone. -/
theorem hwnWritesTheDeviceCount : Obligations.HwnWritesTheDeviceCount := by
  intro a s
  refine ⟨hasSpecialOpcode_of_one rfl rfl, _, _, rfl, ?_, writeLoc_charge_wroteOnly_a s a _ _ _,
    charged_charge rfl (by rw [State.writeLoc_cyc, State.resolve_cyc])⟩
  rw [BitVec.toNat_ofNat, State.resolve_devices]

/-- An identity is that of the device's kind (44_special.md R318). -/
theorem deviceIdentity_eq (d : Device) : deviceIdentity d = identityOf d.kind := by cases d <;> rfl

/-- The registers after HWQ, by the device found at the index (44_special.md R318). -/
def reportIdentity (g : Regs) : Option Device → Regs
  | some d => g.withIdentity (deviceIdentity d)
  | none => g.withoutIdentity

/-- HWQ leaves Z, I and J (44_special.md R318). -/
theorem reportIdentity_get (g : Regs) (found : Option Device) {r : Reg} (other : r = .z ∨ r = .i ∨ r = .j) :
    (reportIdentity g found).get r = g.get r := by
  cases found <;> rcases other with rfl | rfl | rfl <;> rfl

/-- HWQ writes the registers alone, by the device at the index its operand reads. -/
theorem exec_hwq (a : Operand) (s : State) :
    exec (.hwq a) s = .next (((s.resolve .a a).2.setRegs (reportIdentity s.regs
      s.devices[((s.resolve .a a).2.readLoc (s.resolve .a a).1).toNat]?)).charge (cycles (.hwq a))) := by
  rw [← s.resolve_regs .a a, ← s.resolve_devices .a a]
  rfl

/-- The low half of a 32-bit word, as an identity is split (44_special.md R318). -/
theorem low_half_toNat (x : BitVec 32) : (x.extractLsb' 0 16).toNat = x.toNat % 2 ^ 16 := by
  rw [BitVec.extractLsb'_toNat, Nat.shiftRight_zero]

theorem high_half_toNat (x : BitVec 32) : (x.extractLsb' 16 16).toNat = x.toNat / 2 ^ 16 := by
  rw [BitVec.extractLsb'_toNat, Nat.shiftRight_eq_div_pow]
  have := x.isLt
  omega

/-- Settles O30: the index is read before the write, which splits the identity found there over the five registers. -/
theorem hwqReportsTheIdentity : Obligations.HwqReportsTheIdentity := by
  intro a s
  refine ⟨hasSpecialOpcode_of_one rfl rfl, ?_⟩
  intro mid index
  have entry : WroteNothing s mid := resolve_wroteNothing s .a a
  have platform : KeepsPlatform s mid := resolve_keepsPlatform s .a a
  refine ⟨_, exec_hwq a s, fun d found => ?device, fun absent => ?zeros, reportIdentity_get s.regs _ (by simp),
    reportIdentity_get s.regs _ (by simp), reportIdentity_get s.regs _ (by simp), entry.ex, entry.mem, ⟨rfl, rfl⟩,
    entry.interrupts.trans ⟨rfl, rfl, rfl⟩, platform.trans ⟨rfl, rfl, rfl, rfl, rfl⟩,
    charged_charge rfl (s.resolve_cyc .a a)⟩
  case device =>
    rw [found, ← deviceIdentity_eq]
    exact ⟨low_half_toNat _, high_half_toNat _, rfl, low_half_toNat _, high_half_toNat _⟩
  case zeros =>
    rw [absent]
    exact ⟨rfl, rfl, rfl, rfl, rfl⟩

/-- An HWI that finds no device charges its cycles and does nothing else (44_special.md R319). -/
theorem exec_hwi_of_none {a : Operand} {s : State}
    (absent : s.devices[((s.resolve .a a).2.readLoc (s.resolve .a a).1).toNat]? = none) :
    exec (.hwi a) s = .next ((s.resolve .a a).2.charge (cycles (.hwi a))) := by
  rw [← s.resolve_devices .a a] at absent
  rcases (s.resolve .a a).2.commandDevice_cases ((s.resolve .a a).2.readLoc (s.resolve .a a).1).toNat with
    ⟨-, e⟩ | ⟨d, found, -⟩
  · simp only [exec, execHwi, e, Nat.add_zero]
  · cases absent.symm.trans found

/-- Settles O31: without a device HWI leaves what its operand left, charged its cycles. -/
theorem hwiOutOfRangeHasNoEffect : Obligations.HwiOutOfRangeHasNoEffect := by
  intro a s
  refine ⟨hasSpecialOpcode_of_one rfl rfl, fun absent => ⟨_, exec_hwi_of_none absent, ?_, ?_, ⟨rfl, rfl⟩, ?_⟩⟩
  · exact (resolve_wroteNothing s .a a).charge _
  · exact (resolve_keepsPlatform s .a a).charge _
  · exact charged_charge rfl (s.resolve_cyc .a a)

end Sys2Proof.Machine
end

section
/-! The devices on the bus and at the tick (44_special.md R319, R320; 45_device_clock.md R353 to R357): what an HWI that
reaches a device does, for every device; each command of the Clock; and each device's tick in the words of the statement
about a host tick. -/

namespace Sys2Proof.Machine

open Claims

/-! ## An HWI that reaches a device -/

section
variable {a : Operand} {s : State} {i : Nat} {d : Device}

/-- An HWI runs the command of the device its operand finds, on the registers and at the time of entry
(44_special.md R319, R320). -/
theorem exec_hwi_of_reaches (reach : HwiReaches a s i d) :
    exec (.hwi a) s = .next ((((s.resolve .a a).2.setRegs (deviceCommand d s.regs s.time).regs).setDevices
      (s.devices.set i (deviceCommand d s.regs s.time).device)).charge
        (cycles (.hwi a) + (deviceCommand d s.regs s.time).cost)) := by
  obtain ⟨index, found⟩ := reach
  rw [← s.resolve_devices .a a] at found
  rcases (s.resolve .a a).2.commandDevice_cases i with ⟨absent, -⟩ | ⟨d', found', commanded⟩
  · cases absent.symm.trans found
  · obtain rfl : d = d' := Option.some.inj (found.symm.trans found')
    rw [State.resolve_regs, State.resolve_devices, State.resolve_time] at commanded
    simp only [exec, execHwi, index, commanded]

/-- Whatever the device, only C, the device and CYC depend on its command (44_special.md R319, R320). -/
theorem exists_hwiDone (reach : HwiReaches a s i d) :
    ∃ t, exec (.hwi a) s = .next t ∧
      HwiDone a s i (deviceCommand d s.regs s.time).device ((deviceCommand d s.regs s.time).regs.get .c)
        (deviceCommand d s.regs s.time).cost t := by
  have entry := resolve_wroteNothing s .a a
  have platform := resolve_keepsPlatform s .a a
  refine ⟨_, exec_hwi_of_reaches reach,
    { devices := fun j => ?device
      regs := fun r => ?register
      pcSp := ⟨rfl, rfl⟩
      ex := entry.ex
      mem := entry.mem
      interrupts := entry.interrupts.trans ⟨rfl, rfl, rfl⟩
      fault := platform.fault
      time := platform.time
      sched := ⟨platform.last, platform.bal⟩
      cyc := ?charge }⟩
  case device =>
    obtain ⟨inRange, -⟩ := List.getElem?_eq_some_iff.mp reach.2
    rw [State.charge_devices, State.setDevices_devices, List.getElem?_set, if_pos inRange]
    exact if_congr eq_comm rfl rfl
  case register =>
    split_ifs with isC
    · exact congrArg _ isC
    · exact deviceCommand_regs d s.regs s.time isC
  case charge =>
    rw [State.charge_cyc, State.setDevices_cyc, State.setRegs_cyc, State.resolve_cyc, cycles_eq, Nat.add_assoc,
      Nat.add_assoc, Nat.add_assoc]
    rfl

end

/-! ## The commands of the Clock (45_device_clock.md R353 to R356) -/

section
variable {g : Regs}

theorem Clock.command_arm (k : Clock) (t : Rat) (sel : g.a = 0) :
    k.command g t =
      ({ k with
          divisor := g.b
          ticks := 0
          deadline := if g.b = 0 then k.deadline else t + clockPeriod g.b }, g) :=
  if_pos sel

theorem Clock.command_read (k : Clock) (t : Rat) (sel : g.a = 1) :
    k.command g t = (k, { g with c := BitVec.ofNat 16 k.ticks }) := by
  simp [Clock.command, sel]

theorem Clock.command_setMessage (k : Clock) (t : Rat) (sel : g.a = 2) :
    k.command g t = ({ k with message := g.b }, g) := by
  simp [Clock.command, sel]

theorem Clock.command_other (k : Clock) (t : Rat) (sel : 3 ≤ g.a.toNat) : k.command g t = (k, g) := by
  have other : ∀ n : Word, n.toNat < 3 → g.a ≠ n := by
    rintro n small rfl
    omega
  simp only [Clock.command, if_neg (other 0 (by decide)), if_neg (other 1 (by decide)), if_neg (other 2 (by decide))]

end

/-- Settles O32: the frame is that of every HWI, and each selector has its equation. -/
theorem hwiCommandsTheClock : Obligations.HwiCommandsTheClock := by
  intro a s i k reach sel arg
  obtain ⟨t, completes, done⟩ := exists_hwiDone reach
  refine ⟨t, (k.command s.regs s.time).1, (k.command s.regs s.time).2.get .c, completes, done,
    fun arm => ?arm, fun read => ?read, fun setMessage => ?setMessage, fun other => ?other⟩
  case arm =>
    rw [Clock.command_arm k s.time ((toNat_eq_zero_iff _).mp arm)]
    exact ⟨rfl, rfl, rfl, rfl, fun run => if_neg (mt (toNat_eq_zero_iff _).mpr run),
      fun stop => if_pos ((toNat_eq_zero_iff _).mp stop)⟩
  case read =>
    rw [Clock.command_read k s.time (BitVec.eq_of_toNat_eq read)]
    exact ⟨rfl, BitVec.toNat_ofNat ..⟩
  case setMessage =>
    rw [Clock.command_setMessage k s.time (BitVec.eq_of_toNat_eq setMessage)]
    exact ⟨rfl, rfl, rfl, rfl, rfl⟩
  case other =>
    rw [Clock.command_other k s.time other]
    exact ⟨rfl, rfl⟩

/-! ## The tick of each device (45_device_clock.md R357, 46_device_keyboard.md R390, 47_device_display.md R420) -/

/-- A running Clock whose deadline is reached counts one tick, whatever the gap (45_device_clock.md R357). -/
theorem Clock.tick_of_due {k : Clock} {t : Rat} (due : k.divisor.toNat ≠ 0 ∧ t ≥ k.deadline) :
    k.tick t =
      ({ k with ticks := k.ticks + 1, deadline := k.deadline + clockPeriod k.divisor },
        if k.message = 0 then [] else [k.message]) :=
  if_pos (due.imp_left (mt (toNat_eq_zero_iff _).mpr))

theorem Clock.tick_of_not_due {k : Clock} {t : Rat} (notDue : ¬(k.divisor.toNat ≠ 0 ∧ t ≥ k.deadline)) :
    k.tick t = (k, []) :=
  if_neg (mt (And.imp_left (mt (toNat_eq_zero_iff _).mp)) notDue)

@[simp] theorem tickDevice_device (m : Memory) (t : Rat) (d : Device) : (tickDevice m t d).device = afterTick t d := by
  cases d with
  | clock k =>
    by_cases due : k.divisor.toNat ≠ 0 ∧ t ≥ k.deadline
    · simp only [tickDevice, afterTick, Clock.tick_of_due due, if_pos due, clockPeriod]
    · simp only [tickDevice, afterTick, Clock.tick_of_not_due due, if_neg due]
  | keyboard k => rfl
  | display d => rfl

@[simp] theorem tickDevice_messages (m : Memory) (t : Rat) (d : Device) :
    (tickDevice m t d).messages = tickMessages t d := by
  cases d with
  | clock k =>
    by_cases due : k.divisor.toNat ≠ 0 ∧ t ≥ k.deadline
    · simp only [tickDevice, tickMessages, Clock.tick_of_due due, and_iff_right due]
      simp only [ne_eq, toNat_eq_zero_iff, ite_not]
    · simp only [tickDevice, tickMessages, Clock.tick_of_not_due due, if_neg (mt And.left due)]
  | keyboard k => simp only [tickDevice, tickMessages, Keyboard.tick, ne_eq, toNat_eq_zero_iff]
  | display d => rfl

@[simp] theorem tickDevice_frames (m : Memory) (t : Rat) (d : Device) :
    (tickDevice m t d).frames = tickFrames m t d := by
  cases d with
  | clock k => rfl
  | keyboard k => rfl
  | display d => simp only [tickDevice, tickFrames, Display.tick, toNat_eq_zero_iff]

/-! ## The host tick (70_reset_and_hazards.md R520) -/

/-- A host tick gathers, in DEVICES order, what each device's tick gives. -/
theorem State.tick_eq (s : State) :
    s.tick =
      ((s.setDevices (s.devices.map (afterTick s.time))).setIfq
          (s.ifq ++ (s.devices.map (tickMessages s.time)).flatten),
        (s.devices.map (tickFrames s.mem s.time)).flatten) := by
  simp only [State.tick, List.flatMap_def, List.map_map, Function.comp_def, tickDevice_device, tickDevice_messages,
    tickDevice_frames]

/-- Settles O55: every field of the ticked state is read off its equation. -/
theorem tickRunsEveryDeviceInOrder : Obligations.TickRunsEveryDeviceInOrder := by
  intro s t
  have ticked : t = (s.setDevices (s.devices.map (afterTick s.time))).setIfq
      (s.ifq ++ (s.devices.map (tickMessages s.time)).flatten) := congrArg Prod.fst s.tick_eq
  rw [ticked]
  exact ⟨rfl, rfl, rfl, congrArg Prod.snd s.tick_eq⟩

end Sys2Proof.Machine
end

section
/-! The Keyboard (46_device_keyboard.md): what each command of an HWI changes in the registers and in the Keyboard, and
what a key event does to the queue and to the table of pressed keys; and an advance of time (70_reset_and_hazards.md
R524). -/

namespace Sys2Proof.Machine

open Claims

/-! ## The table of pressed keys (46_device_keyboard.md R380) -/

theorem isDown_iff_mem {down : List Nat} {code : Word} : isDown down code = true ↔ code.toNat ∈ down :=
  List.contains_iff_mem

theorem isDown_nil (code : Word) : isDown [] code = false := rfl

/-- A key-up clears the key's own bit alone (46_device_keyboard.md R388). -/
theorem isDown_releaseKey_iff {down : List Nat} {code other : Word} :
    isDown (releaseKey down code) other = true ↔ other ≠ code ∧ isDown down other = true := by
  rw [isDown_iff_mem, isDown_iff_mem, releaseKey, List.mem_filter, decide_eq_true_iff, ← BitVec.toNat_ne, and_comm]

/-- A key-down releases the key and enters it again, so it sets the key's own bit alone (46_device_keyboard.md R387). -/
theorem isDown_pressKey_iff {down : List Nat} {code other : Word} :
    isDown (pressKey down code) other = true ↔ other = code ∨ isDown down other = true := by
  have entered : isDown (pressKey down code) other = true ↔
      other = code ∨ isDown (releaseKey down code) other = true := by
    rw [isDown_iff_mem, isDown_iff_mem, pressKey, mem_insertKey, BitVec.toNat_inj, releaseKey]
  rw [entered, isDown_releaseKey_iff]
  tauto

/-! ## The commands (46_device_keyboard.md R382 to R386) -/

section
variable {g : Regs}

theorem Keyboard.command_clear (k : Keyboard) (sel : g.a.toNat = 0) : k.command g = ({ k with down := [] }, g) :=
  if_pos (BitVec.eq_of_toNat_eq sel)

/-- Pop key: an empty queue answers 0 and has nothing to lose (46_device_keyboard.md R383). -/
theorem Keyboard.command_pop (k : Keyboard) (sel : g.a.toNat = 1) :
    k.command g = ({ k with queue := k.queue.tail }, { g with c := k.queue.headD 0 }) := by
  have isPop : g.a = 1 := BitVec.eq_of_toNat_eq sel
  obtain ⟨queue, down, message, edge⟩ := k
  cases queue <;> simp [Keyboard.command, isPop]

theorem Keyboard.command_query (k : Keyboard) (sel : g.a.toNat = 2) :
    k.command g = (k, { g with c := if isDown k.down g.b then 1 else 0 }) := by
  have isQuery : g.a = 2 := BitVec.eq_of_toNat_eq sel
  simp [Keyboard.command, isQuery]

theorem Keyboard.command_setMessage (k : Keyboard) (sel : g.a.toNat = 3) :
    k.command g = ({ k with message := g.b }, g) := by
  have isSet : g.a = 3 := BitVec.eq_of_toNat_eq sel
  simp [Keyboard.command, isSet]

theorem Keyboard.command_other (k : Keyboard) (sel : 4 ≤ g.a.toNat) : k.command g = (k, g) := by
  have other : ∀ n : Word, n.toNat < 4 → g.a ≠ n := by
    rintro n small rfl
    omega
  simp only [Keyboard.command, if_neg (other 0 (by decide)), if_neg (other 1 (by decide)), if_neg (other 2 (by decide)),
    if_neg (other 3 (by decide))]

/-- What a command can do, by the selector in A. -/
theorem Keyboard.command_cases (k : Keyboard) (g : Regs) :
    (g.a.toNat = 0 ∧ k.command g = ({ k with down := [] }, g)) ∨
    (g.a.toNat = 1 ∧ k.command g = ({ k with queue := k.queue.tail }, { g with c := k.queue.headD 0 })) ∨
    (g.a.toNat = 2 ∧ k.command g = (k, { g with c := if isDown k.down g.b then 1 else 0 })) ∨
    (g.a.toNat = 3 ∧ k.command g = ({ k with message := g.b }, g)) ∨
    (4 ≤ g.a.toNat ∧ k.command g = (k, g)) := by
  have selector : g.a.toNat = 0 ∨ g.a.toNat = 1 ∨ g.a.toNat = 2 ∨ g.a.toNat = 3 ∨ 4 ≤ g.a.toNat := by omega
  exact selector.imp (fun sel => ⟨sel, k.command_clear sel⟩) <| Or.imp (fun sel => ⟨sel, k.command_pop sel⟩) <|
    Or.imp (fun sel => ⟨sel, k.command_query sel⟩) <|
    Or.imp (fun sel => ⟨sel, k.command_setMessage sel⟩) fun sel => ⟨sel, k.command_other sel⟩

theorem Keyboard.command_edge (k : Keyboard) (g : Regs) : (k.command g).1.edge = k.edge := by
  rcases k.command_cases g with ⟨-, e⟩ | ⟨-, e⟩ | ⟨-, e⟩ | ⟨-, e⟩ | ⟨-, e⟩ <;> rw [e]

/-- Only pop changes the queue. -/
theorem Keyboard.command_queue_of_ne (k : Keyboard) (sel : g.a.toNat ≠ 1) : (k.command g).1.queue = k.queue := by
  rcases k.command_cases g with ⟨-, e⟩ | ⟨pop, -⟩ | ⟨-, e⟩ | ⟨-, e⟩ | ⟨-, e⟩
  case inr.inl => exact absurd pop sel
  all_goals rw [e]

/-- Only clear changes the table. -/
theorem Keyboard.command_down_of_ne (k : Keyboard) (sel : g.a.toNat ≠ 0) : (k.command g).1.down = k.down := by
  rcases k.command_cases g with ⟨clear, -⟩ | ⟨-, e⟩ | ⟨-, e⟩ | ⟨-, e⟩ | ⟨-, e⟩
  case inl => exact absurd clear sel
  all_goals rw [e]

/-- Only set message changes the message. -/
theorem Keyboard.command_message_of_ne (k : Keyboard) (sel : g.a.toNat ≠ 3) : (k.command g).1.message = k.message := by
  rcases k.command_cases g with ⟨-, e⟩ | ⟨-, e⟩ | ⟨-, e⟩ | ⟨setMessage, -⟩ | ⟨-, e⟩
  case inr.inr.inr.inl => exact absurd setMessage sel
  all_goals rw [e]

/-- Only pop and query answer in C, so every other command leaves the registers. -/
theorem Keyboard.command_regs_of_ne (k : Keyboard) (notPop : g.a.toNat ≠ 1) (notQuery : g.a.toNat ≠ 2) :
    (k.command g).2 = g := by
  rcases k.command_cases g with ⟨-, e⟩ | ⟨pop, -⟩ | ⟨query, -⟩ | ⟨-, e⟩ | ⟨-, e⟩
  case inr.inl => exact absurd pop notPop
  case inr.inr.inl => exact absurd query notQuery
  all_goals rw [e]

end

/-- Settles O33: the frame is that of every HWI; what a selector leaves is a lemma for each field, and what it changes
is read off its equation. -/
theorem hwiCommandsTheKeyboard : Obligations.HwiCommandsTheKeyboard := by
  intro a s i k reach sel arg
  obtain ⟨t, completes, done⟩ := exists_hwiDone reach
  refine ⟨t, (k.command s.regs).1, (k.command s.regs).2.get .c, completes, done, k.command_edge s.regs,
    k.command_queue_of_ne, k.command_down_of_ne, k.command_message_of_ne,
    fun notPop notQuery => ?keepsC, fun clear => ?clear, fun pop => ?pop, fun query => ?query, fun setMessage => ?set⟩
  case keepsC =>
    rw [k.command_regs_of_ne notPop notQuery]
    rfl
  case clear =>
    rw [k.command_clear clear]
    exact isDown_nil
  case pop =>
    rw [k.command_pop pop]
    refine ⟨fun empty => ?_, fun code rest cons => ?_⟩
    · rw [empty]
      exact ⟨rfl, rfl⟩
    · rw [cons]
      exact ⟨rfl, rfl⟩
  case query =>
    rw [k.command_query query]
    exact apply_ite BitVec.toNat _ _ _
  case set =>
    rw [k.command_setMessage setMessage]
    rfl

/-! ## Key events (46_device_keyboard.md R387, R388) -/

/-- While the queue has room a key-down only appends. -/
theorem Keyboard.keyDown_queue_of_lt {k : Keyboard} (code : Word) (room : k.queue.length < 100) :
    (k.keyDown code).queue = k.queue ++ [code] := by
  have fits : ¬(k.queue ++ [code]).length > keyCapacity := by
    rw [List.length_append, List.length_singleton, keyCapacity]
    omega
  exact if_neg fits

/-- A key-down on a full queue drops the oldest code. -/
theorem Keyboard.keyDown_queue_of_full {k : Keyboard} (code : Word) (full : k.queue.length = 100) :
    (k.keyDown code).queue = k.queue.tail ++ [code] := by
  have overflows : (k.queue ++ [code]).length > keyCapacity := by
    rw [List.length_append, List.length_singleton, keyCapacity]
    omega
  have nonempty : k.queue ≠ [] := List.ne_nil_of_length_eq_add_one full
  calc (k.keyDown code).queue = (k.queue ++ [code]).drop 1 := if_pos overflows
    _ = (k.queue ++ [code]).tail := List.drop_one
    _ = k.queue.tail ++ [code] := List.tail_append_of_ne_nil nonempty

/-- A key event leaves the devices that are no Keyboard. -/
theorem mapKeyboard_eq_afterKey : mapKeyboard = afterKey := by
  funext f d
  cases d <;> rfl

/-- Settles O56: the queue by whether it has room, the table by its bits, and T as the later of two times. -/
theorem keyEventsUpdateQueueAndTable : Obligations.KeyEventsUpdateQueueAndTable := by
  refine ⟨fun k code other _ => ?keyboard, fun s code => ?machine, fun s now => ?time⟩
  case keyboard =>
    exact ⟨k.keyDown_queue_of_lt code, k.keyDown_queue_of_full code, isDown_pressKey_iff, rfl, rfl,
      isDown_releaseKey_iff, rfl, rfl, rfl⟩
  case machine =>
    rw [State.keyDown, State.keyUp, mapKeyboard_eq_afterKey]
    exact ⟨rfl, rfl⟩
  case time => exact ⟨rfl, max_eq_right, fun earlier => max_eq_left earlier.le⟩

end Sys2Proof.Machine
end

section
/-! The Display (47_device_display.md): what each command of an HWI changes and costs, and each pixel of a frame in the
arithmetic of the tables, where a field of a word is a quotient of its value and an address is reduced modulo 2^16. -/

namespace Sys2Proof.Machine

open Claims

/-! ## The commands (47_device_display.md R413 to R418) -/

section
variable {g : Regs}

theorem Display.command_mapVram (d : Display) (sel : g.a.toNat = 0) : d.command g = ({ d with vram := g.b }, 0) :=
  if_pos (BitVec.eq_of_toNat_eq sel)

theorem Display.command_mapFont (d : Display) (sel : g.a.toNat = 1) : d.command g = ({ d with font := g.b }, 0) := by
  have isFont : g.a = 1 := BitVec.eq_of_toNat_eq sel
  simp [Display.command, isFont]

theorem Display.command_mapPalette (d : Display) (sel : g.a.toNat = 2) : d.command g = ({ d with pal := g.b }, 0) := by
  have isPalette : g.a = 2 := BitVec.eq_of_toNat_eq sel
  simp [Display.command, isPalette]

/-- A command that maps nothing only costs: the font's and the palette's capability their parameter, every other
nothing (47_device_display.md R416 to R418). -/
theorem Display.command_other (d : Display) (sel : 3 ≤ g.a.toNat) :
    d.command g =
      (d, if g.a.toNat = 4 then Config.fontCost else if g.a.toNat = 5 then Config.paletteCost else 0) := by
  have other : ∀ n : Word, n.toNat < 3 → g.a ≠ n := by
    rintro n small rfl
    omega
  have isFour : g.a = 4 ↔ g.a.toNat = 4 := BitVec.toNat_inj.symm
  have isFive : g.a = 5 ↔ g.a.toNat = 5 := BitVec.toNat_inj.symm
  simp only [Display.command, if_neg (other 0 (by decide)), if_neg (other 1 (by decide)), if_neg (other 2 (by decide)),
    isFour, isFive, apply_ite (Prod.mk d)]

/-- What a command leaves in each base register and what it costs, by the selector in A. -/
theorem Display.command_fields (d : Display) (g : Regs) :
    (d.command g).1.vram = (if g.a.toNat = 0 then g.b else d.vram) ∧
      (d.command g).1.font = (if g.a.toNat = 1 then g.b else d.font) ∧
      (d.command g).1.pal = (if g.a.toNat = 2 then g.b else d.pal) ∧
      (d.command g).2 =
        if g.a.toNat = 4 then Config.fontCost else if g.a.toNat = 5 then Config.paletteCost else 0 := by
  have selector : g.a.toNat = 0 ∨ g.a.toNat = 1 ∨ g.a.toNat = 2 ∨ 3 ≤ g.a.toNat := by omega
  rcases selector with sel | sel | sel | sel
  · rw [d.command_mapVram sel, sel]
    exact ⟨rfl, rfl, rfl, rfl⟩
  · rw [d.command_mapFont sel, sel]
    exact ⟨rfl, rfl, rfl, rfl⟩
  · rw [d.command_mapPalette sel, sel]
    exact ⟨rfl, rfl, rfl, rfl⟩
  · have other : ∀ n < 3, g.a.toNat ≠ n := fun n small => by omega
    rw [d.command_other sel, if_neg (other 0 (by decide)), if_neg (other 1 (by decide)), if_neg (other 2 (by decide))]
    exact ⟨rfl, rfl, rfl, rfl⟩

end

/-- Settles O34: the frame is that of every HWI, C too since no command writes a register; the bases and the cost are
those of the command. -/
theorem hwiCommandsTheDisplay : Obligations.HwiCommandsTheDisplay := by
  intro a s i d reach sel arg
  obtain ⟨t, completes, done⟩ := exists_hwiDone reach
  exact ⟨t, (d.command s.regs).1, (d.command s.regs).2, completes, done, d.command_fields s.regs⟩

/-! ## Words of the tables (47_device_display.md R421, R422, R424) -/

/-- An address is a base and an index modulo 2^16. -/
theorem Memory.read_add_ofNat (m : Memory) (base : Word) (k : Nat) :
    m.read (base + BitVec.ofNat 16 k) = m.readAt ((base.toNat + k) % 65536) := by
  rw [Memory.read, BitVec.toNat_add, BitVec.toNat_ofNat, Nat.add_mod_mod]

theorem Display.colour_toNat (d : Display) (m : Memory) (i : Nat) (inPalette : i < 16) :
    (d.colour m i).toNat = colourNat d m (Fin.ofNat 16 i) := by
  rw [Display.colour, colourNat, apply_ite BitVec.toNat, Memory.read_add_ofNat, Fin.val_ofNat,
    Nat.mod_eq_of_lt inPalette]

theorem Display.fontWord_toNat (d : Display) (m : Memory) (k : Nat) (inFont : k < 256) :
    (d.fontWord m k).toNat = fontNat d m (Fin.ofNat 256 k) := by
  rw [Display.fontWord, fontNat, apply_ite BitVec.toNat, Memory.read_add_ofNat, Fin.val_ofNat, Nat.mod_eq_of_lt inFont]

theorem rgb_eq (w : Word) : rgb w = BitVec.ofNat 24 (rgbNat w.toNat) := by
  simp only [rgb, rgbNat, BitVec.extractLsb'_toNat, Nat.shiftRight_eq_div_pow, Nat.reducePow, Nat.div_one]

/-- Three channels of at most 255 each. -/
theorem rgbNat_lt (w : Nat) : rgbNat w < 2 ^ 24 := by
  rw [rgbNat]
  omega

/-! ## The fields of a cell word (47_device_display.md R421) -/

theorem getLsbD_eq_decide (w : Word) (k : Nat) : w.getLsbD k = decide (w.toNat / 2 ^ k % 2 = 1) :=
  Nat.testBit_eq_decide_div_mod_eq

theorem decodeCell_eq (cw : Word) :
    decodeCell cw =
      { fg := cw.toNat / 4096
        bg := cw.toNat / 256 % 16
        blink := decide (cw.toNat / 128 % 2 = 1)
        ch := cw.toNat % 128 } := by
  have fg : (cw.extractLsb' 12 4).toNat = cw.toNat / 4096 := by
    rw [BitVec.extractLsb'_toNat, Nat.shiftRight_eq_div_pow]
    exact Nat.mod_eq_of_lt (Nat.div_lt_of_lt_mul cw.isLt)
  have bg : (cw.extractLsb' 8 4).toNat = cw.toNat / 256 % 16 := by
    rw [BitVec.extractLsb'_toNat, Nat.shiftRight_eq_div_pow]
  have ch : (cw.extractLsb' 0 7).toNat = cw.toNat % 128 := by
    rw [BitVec.extractLsb'_toNat, Nat.shiftRight_zero]
  rw [decodeCell, fg, bg, ch, getLsbD_eq_decide]
  rfl

/-! ## The bits of a glyph (47_device_display.md R425) -/

/-- A bit of the high byte. -/
theorem getLsbD_highByte (w : Word) (k : Nat) : w.getLsbD (8 + k) = decide (w.toNat / 256 / 2 ^ k % 2 = 1) := by
  rw [getLsbD_eq_decide, pow_add, ← Nat.div_div_eq_div_mul]
  rfl

/-- A bit of the low byte. -/
theorem getLsbD_lowByte (w : Word) {k : Nat} (inByte : k < 8) :
    w.getLsbD k = decide (w.toNat % 256 / 2 ^ k % 2 = 1) := by
  have low : (w.toNat % 2 ^ 8).testBit k = w.getLsbD k := by
    rw [Nat.testBit_mod_two_pow, decide_eq_true inByte, Bool.true_and, BitVec.testBit_toNat]
  rw [← low, Nat.testBit_eq_decide_div_mod_eq]
  rfl

theorem glyphBit_eq (g0 g1 : Word) {px py : Nat} (inGlyph : py < 8) :
    glyphBit g0 g1 px py = decide (glyphByte g0.toNat g1.toNat px / 2 ^ py % 2 = 1) := by
  match px with
  | 0 => exact getLsbD_highByte g0 py
  | 1 => exact getLsbD_lowByte g0 inGlyph
  | 2 => exact getLsbD_highByte g1 py
  | _ + 3 => exact getLsbD_lowByte g1 inGlyph

/-! ## The pixels of a frame (47_device_display.md R425, R426) -/

theorem Display.cellAt_eq (d : Display) (m : Memory) (x y : Nat) :
    d.cellAt m (x / 4) (y / 8) =
      { fg := cellNat d m x y / 4096
        bg := cellNat d m x y / 256 % 16
        blink := decide (cellNat d m x y / 128 % 2 = 1)
        ch := cellNat d m x y % 128 } := by
  rw [Display.cellAt, decodeCell_eq, Memory.read_add_ofNat, ← Nat.add_assoc]
  rfl

theorem cellNat_lt (d : Display) (m : Memory) (x y : Nat) : cellNat d m x y < 65536 :=
  BitVec.isLt _

/-- The foreground shows where the glyph bit is 1 and the cell does not blink off: the model's two nested choices are
this one condition. -/
theorem Display.pixelAt_eq (d : Display) (m : Memory) (half t : Rat) (x y : Nat) :
    d.pixelAt m half t x y = BitVec.ofNat 24 (pixelNat d m half t x y) := by
  have cw := cellNat_lt d m x y
  have fg := d.colour_toNat m (cellNat d m x y / 4096) (by omega)
  have bg := d.colour_toNat m (cellNat d m x y / 256 % 16) (by omega)
  have g0 := d.fontWord_toNat m (2 * (cellNat d m x y % 128)) (by omega)
  have g1 := d.fontWord_toNat m (2 * (cellNat d m x y % 128) + 1) (by omega)
  have row : y % 8 < 8 := Nat.mod_lt _ (by decide)
  simp only [Display.pixelAt, pixelNat, d.cellAt_eq, glyphBit_eq _ _ row, blinkOff, rgb_eq, apply_ite BitVec.toNat,
    fg, bg, g0, g1, decide_eq_true_eq, Bool.and_eq_true, apply_ite (colourNat d m), ite_and, ite_not]

theorem Display.render_getElem? (d : Display) (m : Memory) (half t : Rat) {x y : Nat} (hx : x < 128) (hy : y < 96) :
    (d.render m half t).pixels[y * 128 + x]? = some (d.pixelAt m half t x y) := by
  have inFrame : y * 128 + x < 128 * 96 := by omega
  have column : (y * 128 + x) % 128 = x := by omega
  have row : (y * 128 + x) / 128 = y := by omega
  simp only [Display.render, screenWidth, screenHeight, List.getElem?_map, List.getElem?_range inFrame, Option.map_some,
    column, row]

/-- Settles O57: a frame is its pixels in row-major order, and each pixel is the packed colour its tables give. -/
theorem framePixelsFollowTheTables : Obligations.FramePixelsFollowTheTables := by
  intro d m half t
  refine ⟨?length, rfl, fun x y hx hy => ⟨?pixel, rgbNat_lt _⟩⟩
  case length => rw [Display.render, List.length_map, List.length_range, screenWidth, screenHeight]
  case pixel => rw [d.render_getElem? m half t hx hy, d.pixelAt_eq]

end Sys2Proof.Machine
end

section
/-! Interrupts (60_exceptions.md): the frame a delivery leaves at SP, and the RFI that takes it off again. -/

namespace Sys2Proof.Machine

open Claims

/-! ## The frame of a delivery (60_exceptions.md R454) -/

section
variable (s : State) (m : Word) (rest : List Word)

theorem State.deliver_sp_add_one : (s.deliver m rest).sp + 1 = s.sp - 1 :=
  BitVec.sub_add_cancel (s.sp - 1) 1

theorem State.deliver_readMem_sp : (s.deliver m rest).readMem (s.deliver m rest).sp = s.reg .a := by
  rw [State.deliver_readMem, State.deliver_sp, if_pos rfl]

/-- A is pushed after PC and, the two addresses being apart even where SP wraps, does not overwrite it. -/
theorem State.deliver_readMem_sp_add_one : (s.deliver m rest).readMem ((s.deliver m rest).sp + 1) = s.pc := by
  have apart : s.sp - 1 ≠ s.sp - 1 - 1 := by bv_omega
  rw [State.deliver_sp_add_one, State.deliver_readMem, if_neg apart, if_pos rfl]

variable {s m rest} in
theorem State.deliver_readMem_of_ne {addr : Word} (notA : addr ≠ (s.deliver m rest).sp)
    (notPc : addr ≠ (s.deliver m rest).sp + 1) : (s.deliver m rest).readMem addr = s.readMem addr := by
  rw [State.deliver_sp] at notA
  rw [State.deliver_sp_add_one] at notPc
  rw [State.deliver_readMem, if_neg notA, if_neg notPc]

variable {r : Reg} in
theorem State.deliver_reg_of_ne (notA : r ≠ .a) : (s.deliver m rest).reg r = s.reg r :=
  (s.deliver_reg m rest r).trans (if_neg notA)

theorem deliver_keepsPlatform : KeepsPlatform s (s.deliver m rest) := ⟨rfl, rfl, rfl, rfl, rfl⟩

end

/-! ## The dispatch step (60_exceptions.md R453) -/

theorem State.dispatch_of_empty {s : State} (empty : s.ifq = []) : s.dispatch = s := by
  rw [State.dispatch, empty, ite_self]

theorem State.dispatch_of_cons {s : State} {m : Word} {rest : List Word} (delivers : s.iq = false)
    (queued : s.ifq = m :: rest) : s.dispatch = s.deliver m rest := by
  rw [State.dispatch, delivers, queued]
  rfl

/-! ## The statements -/

/-- Settles O35: the two causes of no delivery, and the frame of a delivery. -/
theorem dispatchDeliversTheOldestMessage : Obligations.DispatchDeliversTheOldestMessage := by
  refine ⟨fun s noCause => noCause.elim State.dispatch_of_queueing State.dispatch_of_empty, ?delivery⟩
  intro s m rest delivers queued
  rw [State.dispatch_of_cons delivers queued]
  exact ⟨rfl, BitVec.sub_sub s.sp 1 1, rfl, (s.deliver_reg m rest .a).trans (if_pos rfl), rfl,
    s.deliver_readMem_sp m rest, s.deliver_readMem_sp_add_one m rest,
    fun _ notA notPc => State.deliver_readMem_of_ne notA notPc, fun _ notA => s.deliver_reg_of_ne m rest notA,
    rfl, rfl, rfl, deliver_keepsPlatform s m rest⟩

/-- Settles O36: a literal operand leaves SP at the frame of the delivery, whose two words RFI pops back into A and
PC. -/
theorem rfiUndoesDelivery : Obligations.RfiUndoesDelivery := by
  intro s m rest c delivers queued
  rw [State.dispatch_of_cons delivers queued]
  obtain ⟨-, t, returns, popsA, popsPc, sp, iq, ia, ifq, regs, ex, mem, platform, -⟩ :=
    rfiPopsAThenPcAndClearsIq (.short c) (s.deliver m rest)
  have restored : ∀ r, t.reg r = s.reg r := by
    intro r
    by_cases isA : r = .a
    case pos =>
      rw [isA]
      exact popsA.trans (s.deliver_readMem_sp m rest)
    case neg => exact (regs r isA).trans (s.deliver_reg_of_ne m rest isA)
  have spBack : s.sp - 1 - 1 + 2 = s.sp := by bv_omega
  refine ⟨t, returns, Regs.ext_get restored, popsPc.trans (s.deliver_readMem_sp_add_one m rest), sp.trans spBack, iq,
    ex, ia, ifq, fun addr notPc notA => (mem addr).trans (State.deliver_readMem_of_ne ?_ ?_),
    (deliver_keepsPlatform s m rest).trans platform⟩
  · rwa [State.deliver_sp, BitVec.sub_sub]
  · rwa [State.deliver_sp_add_one]

end Sys2Proof.Machine
end

section
/-! Reset and program load (70_reset_and_hazards.md R500 to R503): what the state after reset holds, that it satisfies
the invariant, and what a load leaves in memory; and the sample words of the encoding. -/

namespace Sys2Proof.Machine

open Claims

/-! ## Sample words -/

/-- Settles O5: closed facts of the decoder. -/
theorem sampleWordsDecode : Obligations.SampleWordsDecode :=
  ⟨rfl, rfl, rfl, rfl, rfl, rfl, rfl, rfl⟩

/-! ## Reset (70_reset_and_hazards.md R500, R501) -/

theorem coreCleared_powerOn (kinds : List Config.DeviceKind) : CoreCleared (State.powerOn kinds) where
  regs r := by cases r <;> rfl
  pc := rfl
  sp := rfl
  ex := rfl
  ia := rfl
  iq := rfl
  ifq := rfl
  mem _ := rfl
  cyc := rfl
  fault := rfl
  last := rfl

/-- A core reset leaves the core of power-on; it differs from it in the devices and T alone. -/
theorem coreCleared_coreReset (s : State) : CoreCleared s.coreReset := by
  obtain ⟨regs, pc, sp, ex, ia, iq, ifq, mem, cyc, fault, last⟩ := coreCleared_powerOn []
  exact ⟨regs, pc, sp, ex, ia, iq, ifq, mem, cyc, fault, last⟩

theorem powerOnDevice_eq_poweredOn : powerOnDevice = poweredOn := by
  funext kind
  cases kind <;> rfl

theorem State.powerOn_devices (kinds : List Config.DeviceKind) :
    (State.powerOn kinds).devices = kinds.map poweredOn := by
  rw [← powerOnDevice_eq_poweredOn]
  rfl

/-- Settles O49: power-on clears the core, and a core reset and State.reset have its core. -/
theorem coreResetSetsTheCore : Obligations.CoreResetSetsTheCore :=
  ⟨fun s => ⟨coreCleared_coreReset s, rfl, rfl⟩,
    fun kinds => ⟨coreCleared_powerOn kinds, rfl, State.powerOn_devices kinds⟩,
    coreCleared_powerOn _, rfl, State.powerOn_devices _⟩

theorem poweredOn_wf (kind : Config.DeviceKind) : (poweredOn kind).wf := by
  cases kind with
  | clock => exact le_refl (0 : Rat)
  | keyboard => exact ⟨Nat.zero_le _, .nil, nofun⟩
  | display => trivial

theorem State.powerOn_wf {kinds : List Config.DeviceKind} (count : kinds.length ≤ 65536) :
    (State.powerOn kinds).wf where
  mem := Memory.wf_nil
  devices := by
    rw [State.powerOn_devices]
    exact List.forall_mem_map.mpr fun kind _ => poweredOn_wf kind
  count := by rwa [State.powerOn_devices, List.length_map]
  time := le_refl _
  last := nofun

theorem deviceKinds_length_le : Config.deviceKinds.length ≤ 65536 := by
  rw [Config.deviceKinds, List.length_map, List.length_range]
  exact Nat.le_of_lt_succ Config.deviceCount.isLt

/-- Settles O40: power-on satisfies the invariant for every list of at most 65536 devices. -/
theorem resetSatisfiesTheInvariant : Obligations.ResetSatisfiesTheInvariant :=
  State.powerOn_wf deviceKinds_length_le

/-! ## Program load (70_reset_and_hazards.md R502) -/

theorem State.loadProgram_readMem (s : State) (big : Bool) (bytes : List Byte) (addr : Word) :
    (s.loadProgram big bytes).readMem addr =
      ((wordsOfBytes big bytes)[addr.toNat]?).getD (s.readMem addr) := by
  rw [State.loadProgram, State.setMem_readMem, Memory.read_loadWords]
  split_ifs with held
  · rw [List.getD_eq_getElem?_getD, List.getElem?_eq_getElem held, Option.getD_some, Option.getD_some]
  · rw [List.getElem?_eq_none (Nat.le_of_not_lt held), Option.getD_none]
    rfl

/-- Settles O50: a word of the buffer is its two bytes, and without the second of them there is no word. -/
theorem programLoadWritesFromAddressZero : Obligations.ProgramLoadWritesFromAddressZero := by
  intro s big bytes t
  refine ⟨fun addr x y first second => ?held, fun addr absent => ?kept, rfl⟩
  case held =>
    rw [s.loadProgram_readMem, wordsOfBytes_getElem?, first, second]
    cases big
    · exact append_toNat y x
    · exact append_toNat x y
  case kept =>
    rw [s.loadProgram_readMem, wordsOfBytes_getElem?, absent]
    cases bytes[2 * addr.toNat]? <;> rfl

end Sys2Proof.Machine
end

section
/-! The snapshot codec (70_reset_and_hazards.md R510 to R513): the bytes written, what the parser reads of any stream at
the offsets of the layout, and from the two that restoring a snapshot gives the machine back. -/

namespace Sys2Proof.Machine

open Claims

/-! ## Writing (70_reset_and_hazards.md R510, R511) -/

theorem bytes16_toNat (w : Word) : (bytes16 w).map BitVec.toNat = halves w.toNat := by
  simp only [bytes16, halves, List.map_cons, List.map_nil, BitVec.extractLsb'_toNat, Nat.shiftRight_eq_div_pow,
    Nat.reducePow, Nat.div_one]

theorem bytes32_toNat (v : BitVec 32) : (bytes32 v).map BitVec.toNat = quarters v.toNat := by
  simp only [bytes32, quarters, List.map_cons, List.map_nil, BitVec.extractLsb'_toNat, Nat.shiftRight_eq_div_pow,
    Nat.reducePow, Nat.div_one]

theorem flatMap_bytes16_toNat (ws : List Word) :
    (ws.flatMap bytes16).map BitVec.toNat = ws.flatMap fun w => halves w.toNat := by
  simp only [List.map_flatMap, bytes16_toNat]

theorem bytes32_count_toNat {n : Nat} (fits : n < 2 ^ 32) :
    (bytes32 (BitVec.ofNat 32 n)).map BitVec.toNat = quarters n := by
  rw [bytes32_toNat, BitVec.toNat_ofNat, Nat.mod_eq_of_lt fits]

/-- The twelve registers in the order of the layout. -/
theorem State.snapshotRegs_bytes_toNat (s : State) :
    (s.snapshotRegs.flatMap bytes16).map BitVec.toNat =
      ([.a, .b, .c, .x, .y, .z, .i, .j] : List Reg).flatMap (fun r => halves (s.reg r).toNat) ++
        halves s.pc.toNat ++ halves s.sp.toNat ++ halves s.ex.toNat ++ halves s.ia.toNat := by
  rw [flatMap_bytes16_toNat]
  rfl

theorem Snapshot.bytes_length (p : Snapshot) :
    p.bytes.length = 13 + 2 * p.regs.length + 2 * p.queue.length + 2 * p.words.length := by
  simp only [Snapshot.bytes, bytes32, List.length_append, bytes16_length, List.length_cons, List.length_nil]
  omega

theorem Snapshot.bytes_toNat {p : Snapshot} (queue : p.queue.length < 2 ^ 32) (words : p.words.length < 2 ^ 32) :
    p.bytes.map BitVec.toNat =
      quarters snapshotMagic.toNat ++ (p.regs.flatMap bytes16).map BitVec.toNat ++ [if p.latch then 1 else 0] ++
        quarters p.queue.length ++ p.queue.flatMap (fun m => halves m.toNat) ++ quarters p.words.length ++
        p.words.flatMap (fun v => halves v.toNat) := by
  have latch : [if p.latch then (1 : Byte) else 0].map BitVec.toNat = [if p.latch then 1 else 0] := by
    cases p.latch <;> rfl
  simp only [Snapshot.bytes, List.map_append, bytes32_toNat snapshotMagic, latch, bytes32_count_toNat queue,
    bytes32_count_toNat words, flatMap_bytes16_toNat p.queue, flatMap_bytes16_toNat p.words]

/-- Settles O52: the layout of every snapshot, at the twelve registers and the 65536 words of a machine's. -/
theorem snapshotBytesFollowTheLayout : Obligations.SnapshotBytesFollowTheLayout := by
  intro s fits
  have words : s.snapshot.words.length = 65536 := s.mem.allWords_length
  refine ⟨?size, s.mem.allWords, words, s.mem.allWords_getElem?, ?fields⟩
  case size =>
    rw [State.serialise, Snapshot.bytes_length, words]
    change 13 + 2 * 12 + 2 * s.ifq.length + _ = _
    omega
  case fields =>
    have queue : s.snapshot.queue.length < 2 ^ 32 := fits.trans (by decide)
    rw [State.serialise, Snapshot.bytes_toNat queue (by rw [words]; decide), words]
    change _ ++ (s.snapshotRegs.flatMap bytes16).map BitVec.toNat ++ _ ++ _ ++ _ ++ _ ++ _ = _
    rw [s.snapshotRegs_bytes_toNat]
    simp only [List.append_assoc]
    rfl

/-! ## Parsing (70_reset_and_hazards.md R510, R512) -/

/-- None of the format errors of R512: the magic number, every field and array inside the stream, the counts in range. -/
structure StreamComplete (bs : List Byte) : Prop where
  magic     : fullAt bs 0 = snapshotMagic.toNat
  header    : 33 ≤ bs.length
  queue     : queueCount bs < 2 ^ 31
  queueEnd  : 37 + 2 * queueCount bs ≤ bs.length
  memory    : memoryLength bs ≤ 65536
  memoryEnd : 37 + 2 * queueCount bs + 2 * memoryLength bs ≤ bs.length

/-- The magic number as four bytes. -/
theorem take_four_eq_magic_iff {bs : List Byte} (header : 33 ≤ bs.length) :
    bs.take 4 = [0xED, 0xB1, 0xAB, 0x0D] ↔ fullAt bs 0 = snapshotMagic.toNat := by
  obtain ⟨b0, b1, b2, b3, rest, rfl⟩ : ∃ b0 b1 b2 b3 rest, bs = b0 :: b1 :: b2 :: b3 :: rest := by
    match bs, header with
    | b0 :: b1 :: b2 :: b3 :: rest, _ => exact ⟨b0, b1, b2, b3, rest, rfl⟩
  have value : fullAt (b0 :: b1 :: b2 :: b3 :: rest) 0 =
      b0.toNat + 256 * b1.toNat + 65536 * (b2.toNat + 256 * b3.toNat) := rfl
  have magic : snapshotMagic.toNat = 0xED + 256 * 0xB1 + 65536 * (0xAB + 256 * 0x0D) := rfl
  rw [value, magic]
  simp only [List.take_succ_cons, List.take_zero, List.cons.injEq, and_true, ← BitVec.toNat_inj]
  simp only [BitVec.reduceToNat]
  omega

theorem formatError_iff (bs : List Byte) : FormatError bs ↔ ¬StreamComplete bs := by
  constructor
  · rintro error ⟨magic, header, queue, queueEnd, memory, memoryEnd⟩
    rcases error with wrong | error
    · exact wrong ((take_four_eq_magic_iff header).mpr magic)
    · omega
  · intro incomplete
    by_contra noError
    simp only [FormatError, not_or, not_not, Nat.not_le, Nat.not_lt] at noError
    obtain ⟨magic, header, queue, queueEnd, -, memory, memoryEnd⟩ := noError
    exact incomplete ⟨(take_four_eq_magic_iff header).mp magic, header, queue, queueEnd, memory, memoryEnd⟩

/-- The fields of a parsed stream stand at the offsets of the layout. -/
structure ReadFrom (bs : List Byte) (p : Snapshot) : Prop where
  regs   : ∀ k, k < 12 → (p.regs.getD k 0).toNat = halfAt bs (4 + 2 * k)
  latch  : p.latch = true ↔ byteAt bs 28 ≠ 0
  count  : p.queue.length = queueCount bs
  queue  : ∀ k, k < queueCount bs → (p.queue.getD k 0).toNat = halfAt bs (33 + 2 * k)
  length : p.words.length = memoryLength bs
  words  : ∀ k, k < memoryLength bs → (p.words.getD k 0).toNat = halfAt bs (37 + 2 * queueCount bs + 2 * k)

/-- A count is negative as an int32 from 2^31 on. -/
theorem toInt_neg_iff_le_toNat (v : BitVec 32) : v.toInt < 0 ↔ 2 ^ 31 ≤ v.toNat := by
  rw [BitVec.toInt_neg_iff]
  omega

theorem memoryLength_rejected_iff (v : BitVec 32) : (v.toInt < 0 ∨ v.toInt > 65536) ↔ 65536 < v.toNat := by
  have := v.isLt
  rw [BitVec.toInt_eq_toNat_cond]
  split <;> omega

/-- What the parser does: the fields are taken one after the other, and it fails where one of them does. -/
theorem parseSnapshot_eq_some_iff {bs : List Byte} {p : Snapshot} :
    parseSnapshot bs = some p ↔
      ∃ magic bs₁, take32 bs = some (magic, bs₁) ∧ magic = snapshotMagic ∧
      ∃ regs bs₂, takeWords 12 bs₁ = some (regs, bs₂) ∧
      ∃ latch bs₃, takeByte bs₂ = some (latch, bs₃) ∧
      ∃ q bs₄, take32 bs₃ = some (q, bs₄) ∧ q.toNat < 2 ^ 31 ∧
      ∃ queue bs₅, takeWords q.toNat bs₄ = some (queue, bs₅) ∧
      ∃ n bs₆, take32 bs₅ = some (n, bs₆) ∧ n.toNat ≤ 65536 ∧
      ∃ words bs₇, takeWords n.toNat bs₆ = some (words, bs₇) ∧
        { regs := regs, latch := latch ≠ 0, queue := queue, words := words } = p := by
  simp only [parseSnapshot, Option.bind_eq_bind, Option.bind_none, Option.bind_eq_some_iff,
    Option.ite_none_left_eq_some, Option.some.injEq, Prod.exists, ↓memoryLength_rejected_iff, toInt_neg_iff_le_toNat,
    not_not, ne_eq, not_le, not_lt]

/-! ### Each field at its offset -/

section
variable {bs rest : List Byte} {k : Nat}

theorem take32_drop_eq_some {v : BitVec 32} (taken : take32 (bs.drop k) = some (v, rest)) :
    k + 4 ≤ bs.length ∧ rest = bs.drop (k + 4) ∧ v.toNat = fullAt bs k := by
  rcases take32_drop bs k with ⟨inside, w, e, value⟩ | ⟨-, e⟩
  · cases e.symm.trans taken
    exact ⟨inside, rfl, value⟩
  · cases e.symm.trans taken

theorem takeByte_drop_eq_some {b : Byte} (taken : takeByte (bs.drop k) = some (b, rest)) :
    k + 1 ≤ bs.length ∧ rest = bs.drop (k + 1) ∧ b.toNat = byteAt bs k := by
  rcases takeByte_drop bs k with ⟨inside, w, e, value⟩ | ⟨-, e⟩
  · cases e.symm.trans taken
    exact ⟨inside, rfl, value⟩
  · cases e.symm.trans taken

theorem takeWords_drop_eq_some {n : Nat} {ws : List Word} (start : k ≤ bs.length)
    (taken : takeWords n (bs.drop k) = some (ws, rest)) :
    k + 2 * n ≤ bs.length ∧ rest = bs.drop (k + 2 * n) ∧ ws.length = n ∧
      ∀ j, j < n → (ws.getD j 0).toNat = halfAt bs (k + 2 * j) := by
  rcases takeWords_drop bs n k start with ⟨inside, us, e, length, values⟩ | ⟨-, e⟩
  · cases e.symm.trans taken
    exact ⟨inside, rfl, length, values⟩
  · cases e.symm.trans taken

end

/-- A stream the parser accepts has no format error, and its fields are read where the layout has them. -/
theorem parseSnapshot_sound {bs : List Byte} {p : Snapshot} (parsed : parseSnapshot bs = some p) :
    StreamComplete bs ∧ ReadFrom bs p := by
  obtain ⟨magic, bs₁, takeMagic, isMagic, regs, bs₂, takeRegs, latch, bs₃, takeLatch, q, bs₄, takeCount, countFits,
    queue, bs₅, takeQueue, n, bs₆, takeLength, lengthFits, words, bs₇, takeMemory, rfl⟩ :=
    parseSnapshot_eq_some_iff.mp parsed
  obtain ⟨magicEnd, rfl, magicAt⟩ := take32_drop_eq_some (k := 0) takeMagic
  obtain ⟨regsEnd, rfl, -, regsAt⟩ := takeWords_drop_eq_some (by omega) takeRegs
  obtain ⟨latchEnd, rfl, latchAt⟩ := takeByte_drop_eq_some takeLatch
  obtain ⟨countEnd, rfl, qAt⟩ := take32_drop_eq_some takeCount
  obtain ⟨queueEnd, rfl, queueLength, queueAt⟩ := takeWords_drop_eq_some countEnd takeQueue
  obtain ⟨lengthEnd, rfl, nAt⟩ := take32_drop_eq_some takeLength
  obtain ⟨memoryEnd, -, wordsLength, memoryAt⟩ := takeWords_drop_eq_some lengthEnd takeMemory
  have count : q.toNat = queueCount bs := qAt
  have length : n.toNat = memoryLength bs := by
    rw [memoryLength, ← count]
    exact nAt
  rw [count] at countFits lengthEnd queueLength queueAt memoryEnd memoryAt
  rw [length] at lengthFits memoryEnd wordsLength memoryAt
  have memoryStart : 0 + 4 + 2 * 12 + 1 + 4 + 2 * queueCount bs + 4 = 37 + 2 * queueCount bs := by omega
  rw [memoryStart] at memoryAt
  have latchSet : decide (latch ≠ 0) = true ↔ byteAt bs 28 ≠ 0 := by
    rw [decide_eq_true_iff, Ne, ← BitVec.toNat_inj, latchAt]
    rfl
  exact ⟨⟨magicAt.symm.trans (congrArg _ isMagic), by omega, countFits, by omega, lengthFits, by omega⟩,
    ⟨regsAt, latchSet, queueLength, queueAt, wordsLength, memoryAt⟩⟩

/-- The parser accepts every stream without a format error. -/
theorem StreamComplete.exists_parse {bs : List Byte} (complete : StreamComplete bs) :
    ∃ p, parseSnapshot bs = some p := by
  obtain ⟨magicIs, header, countFits, queueEnd, lengthFits, memoryEnd⟩ := complete
  obtain ⟨-, magic, takeMagic, magicAt⟩ := (take32_drop bs 0).resolve_right (by omega)
  obtain ⟨-, regs, takeRegs, -⟩ := (takeWords_drop bs 12 4 (by omega)).resolve_right (by omega)
  obtain ⟨-, latch, takeLatch, -⟩ := (takeByte_drop bs 28).resolve_right (by omega)
  obtain ⟨-, q, takeCount, count⟩ := (take32_drop bs 29).resolve_right (by omega)
  change q.toNat = queueCount bs at count
  rw [← count] at countFits queueEnd memoryEnd
  obtain ⟨-, queue, takeQueue, -⟩ := (takeWords_drop bs q.toNat 33 (by omega)).resolve_right (by omega)
  obtain ⟨-, n, takeLength, length⟩ := (take32_drop bs (33 + 2 * q.toNat)).resolve_right (by omega)
  rw [count] at length
  change n.toNat = memoryLength bs at length
  rw [← length] at lengthFits memoryEnd
  obtain ⟨-, words, takeMemory, -⟩ :=
    (takeWords_drop bs n.toNat (33 + 2 * q.toNat + 4) (by omega)).resolve_right (by omega)
  exact ⟨_, parseSnapshot_eq_some_iff.mpr ⟨magic, _, takeMagic, BitVec.eq_of_toNat_eq (magicAt.trans magicIs),
    regs, _, takeRegs, latch, _, takeLatch, q, _, takeCount, countFits, queue, _, takeQueue, n, _, takeLength,
    lengthFits, words, _, takeMemory, rfl⟩⟩

/-! ## Restoring (70_reset_and_hazards.md R512) -/

theorem State.deserialise_of_parse {u : State} {bs : List Byte} {p : Snapshot} (parsed : parseSnapshot bs = some p) :
    u.deserialise bs = (u.restoreFrom p, true) := by
  rw [State.deserialise, parsed]

theorem State.deserialise_of_not_parse {u : State} {bs : List Byte} (rejected : parseSnapshot bs = none) :
    u.deserialise bs = (u.coreReset, false) := by
  rw [State.deserialise, rejected]

/-- Register number k is the k-th word of the snapshot. -/
theorem State.restoreFrom_reg (u : State) (p : Snapshot) {k : Nat} {r : Reg}
    (numbered : ([.a, .b, .c, .x, .y, .z, .i, .j] : List Reg)[k]? = some r) :
    k < 8 ∧ (u.restoreFrom p).reg r = p.regs.getD k 0 := by
  obtain ⟨inRange, -⟩ := List.getElem?_eq_some_iff.mp numbered
  change k < 8 at inRange
  refine ⟨inRange, ?_⟩
  interval_cases k <;> cases numbered <;> rfl

theorem State.restoreFrom_readMem (u : State) (p : Snapshot) (addr : Word) :
    (u.restoreFrom p).readMem addr = if addr.toNat < p.words.length then p.words.getD addr.toNat 0 else 0 :=
  Memory.read_loadWords p.words [] addr

/-- Settles O53: the stream parses, and each field of the restored machine is one of the parsed fields. -/
theorem restoreSetsTheMachineFromTheStream : Obligations.RestoreSetsTheMachineFromTheStream := by
  intro u bytes noError
  obtain ⟨p, parsed⟩ := (not_not.mp (mt (formatError_iff bytes).mpr noError)).exists_parse
  obtain ⟨-, regs, latch, count, queue, length, words⟩ := parseSnapshot_sound parsed
  refine ⟨u.restoreFrom p, State.deserialise_of_parse parsed, fun k r numbered => ?register, regs 8 (by decide),
    regs 9 (by decide), regs 10 (by decide), regs 11 (by decide), latch, count, queue, fun addr => ?memory, rfl, rfl,
    rfl, rfl, rfl⟩
  case register =>
    obtain ⟨inRange, restored⟩ := u.restoreFrom_reg p numbered
    rw [restored]
    exact regs k (by omega)
  case memory =>
    rw [u.restoreFrom_readMem, length]
    split_ifs with held
    · exact words addr.toNat held
    · rfl

/-- Settles O54: a parsed stream would have no format error. -/
theorem malformedSnapshotsLeaveTheMachineReset : Obligations.MalformedSnapshotsLeaveTheMachineReset := by
  intro u bytes error
  cases parsed : parseSnapshot bytes with
  | some p => exact absurd (parseSnapshot_sound parsed).1 ((formatError_iff bytes).mp error)
  | none => exact State.deserialise_of_not_parse parsed

/-! ## The round trip (70_reset_and_hazards.md R513) -/

theorem takeByte_singleton_append (b : Byte) (rest : List Byte) : takeByte ([b] ++ rest) = some (b, rest) := rfl

/-- The parser undoes the writer, for every snapshot whose counts the layout admits. -/
theorem parseSnapshot_bytes {p : Snapshot} (regs : p.regs.length = 12) (queue : p.queue.length < 2 ^ 31)
    (words : p.words.length ≤ 65536) : parseSnapshot p.bytes = some p := by
  have takeRegs := takeWords_bytes16 p.regs
  rw [regs] at takeRegs
  have queueCount : (BitVec.ofNat 32 p.queue.length).toNat = p.queue.length := Nat.mod_eq_of_lt (by omega)
  have takeQueue := takeWords_bytes16 p.queue
  rw [← queueCount] at takeQueue queue
  have wordCount : (BitVec.ofNat 32 p.words.length).toNat = p.words.length := Nat.mod_eq_of_lt (by omega)
  have takeMemory := takeWords_bytes16 p.words []
  rw [← wordCount, List.append_nil] at takeMemory
  rw [← wordCount] at words
  have latch : decide ((if p.latch then (1 : Byte) else 0) ≠ 0) = p.latch := by cases p.latch <;> rfl
  rw [Snapshot.bytes]
  simp only [List.append_assoc]
  exact parseSnapshot_eq_some_iff.mpr ⟨_, _, take32_bytes32 _ _, rfl, p.regs, _, takeRegs _,
    _, _, takeByte_singleton_append _ _, _, _, take32_bytes32 _ _, queue, p.queue, _, takeQueue _,
    _, _, take32_bytes32 _ _, words, p.words, [], takeMemory, by rw [latch]⟩

/-- In canonical form nothing is listed beyond the address space. -/
theorem Memory.readAt_of_le {m : Memory} (h : m.wf) {a : Nat} (beyond : 65536 ≤ a) : m.readAt a = 0 :=
  Memory.readAt_of_forall_ne fun cell listed same => by
    have := (h.2 cell listed).2
    omega

/-- Loading all the words of a memory in canonical form gives that memory. -/
theorem Memory.loadWords_allWords {m : Memory} (h : m.wf) : Memory.loadWords m.allWords [] = m := by
  have loaded : (Memory.loadWords m.allWords []).wf := Memory.wf_loadWords Memory.wf_nil _
  refine Memory.ext_of_wf loaded h fun a => ?_
  by_cases inside : a < 65536
  case pos =>
    have read := Memory.read_loadWords m.allWords [] (BitVec.ofNat 16 a)
    have word := m.allWords_getElem? (BitVec.ofNat 16 a)
    have address : (BitVec.ofNat 16 a).toNat = a := Nat.mod_eq_of_lt inside
    rw [List.getD_eq_getElem?_getD, word, Option.getD_some, m.allWords_length, address, if_pos inside] at read
    simpa only [Memory.read, address] using read
  case neg => rw [Memory.readAt_of_le loaded (by omega), Memory.readAt_of_le h (by omega)]

/-- Settles O51: the parser gives the snapshot back, and its 65536 words are the memory. -/
theorem snapshotRoundTrip : Obligations.SnapshotRoundTrip := by
  intro s u memWf fits
  have parsed : parseSnapshot s.serialise = some s.snapshot :=
    parseSnapshot_bytes rfl fits s.mem.allWords_length.le
  have mem : Memory.loadWords s.snapshot.words [] = s.mem := Memory.loadWords_allWords memWf
  rw [State.deserialise_of_parse parsed, State.restoreFrom, mem]
  rfl

end Sys2Proof.Machine
end

section
/-! The scheduler (70_reset_and_hazards.md R521): what rounds of the loop keep and what they take from the balance, the
four ways a run of the loop can end, and from these what an invocation does. -/

namespace Sys2Proof.Machine

open Claims

/-! ## The grant -/

theorem roundCycles_eq_zero_of_small {rounding : Config.Rounding} {earned : Rat} (nonneg : 0 ≤ earned)
    (small : rounding = .floor ∧ earned < 1 ∨ earned = 0) : roundCycles rounding earned = 0 := by
  rcases small with ⟨rfl, below⟩ | rfl
  · exact Int.floor_eq_zero_iff.mpr ⟨nonneg, below⟩
  · cases rounding <;> decide +kernel

theorem one_le_roundCycles {rounding : Config.Rounding} {earned : Rat}
    (enough : rounding = .floor ∧ 1 ≤ earned ∨ rounding = .ceil ∧ 0 < earned) : 1 ≤ roundCycles rounding earned := by
  rcases enough with ⟨rfl, whole⟩ | ⟨rfl, positive⟩
  · exact Rat.le_floor_iff.mpr (by exact_mod_cast whole)
  · exact Int.add_one_le_of_lt (Rat.lt_ceil_iff.mpr (by exact_mod_cast positive))

theorem roundCycles_eq_ite (rounding : Config.Rounding) (earned : Rat) :
    roundCycles rounding earned = if rounding = .floor then earned.floor else earned.ceil := by
  cases rounding <;> rfl

/-- Settles O58: before the first invocation there is no stored time; after it, too short a time grants nothing. -/
theorem earlyInvocationsRunNothing : Obligations.EarlyInvocationsRunNothing := by
  intro s rate rounding
  refine ⟨fun uninitialised => ?first, fun l stored past early => ?noGrant⟩
  case first =>
    rw [State.invokeWith, uninitialised]
    exact ⟨rfl, rfl, rfl⟩
  case noGrant =>
    have elapsed : 0 ≤ s.time - l := sub_nonneg.mpr past
    have none : roundCycles rounding ((rate : Rat) * (s.time - l)) = 0 :=
      roundCycles_eq_zero_of_small (mul_nonneg rate.cast_nonneg elapsed)
        (early.imp_right fun same => by rw [same, sub_self, mul_zero])
    rw [State.invokeWith_of_last stored, if_pos none]

/-! ## Rounds of the loop -/

/-- A step that records a decode error leaves T and the scheduler and costs nothing (60_exceptions.md R470). -/
theorem step_faulted_keeps_account {u t : State} (stepped : step u = .next t) (faulted : t.fault ≠ none) :
    t.bal = u.bal ∧ t.cyc = u.cyc ∧ t.last = u.last ∧ t.time = u.time := by
  obtain ⟨time, last, bal, -⟩ := stepLeavesThePlatformAlone u t stepped
  exact ⟨bal, (completedStepsCostAtLeastOneCycle u t stepped).2 faulted, last, time⟩

section
variable {n : Nat} {s u : State} (rounds : BudgetRounds n s u)
include rounds

theorem BudgetRounds.wf (hs : s.wf) : u.wf := by
  induction rounds with
  | done s => exact hs
  | round _ _ stepped _ _ ih =>
    have next := stepKeepsTheInvariant _ _ hs stepped
    exact ih (next.congr next.mem rfl rfl rfl)

theorem BudgetRounds.time : u.time = s.time := by
  induction rounds with
  | done s => rfl
  | round _ _ stepped _ _ ih =>
    obtain ⟨time, -⟩ := stepLeavesThePlatformAlone _ _ stepped
    exact ih.trans time

theorem BudgetRounds.last : u.last = s.last := by
  induction rounds with
  | done s => rfl
  | round _ _ stepped _ _ ih =>
    obtain ⟨-, last, -⟩ := stepLeavesThePlatformAlone _ _ stepped
    exact ih.trans last

/-- The rounds take from the balance what they add to CYC. -/
theorem BudgetRounds.bal : u.bal = s.bal - ((u.cyc : Int) - s.cyc) := by
  induction rounds with
  | done s => omega
  | round _ _ stepped _ _ ih =>
    obtain ⟨-, -, bal, -⟩ := stepLeavesThePlatformAlone _ _ stepped
    dsimp only at ih
    omega

/-- Each round takes at least one cycle (41_executor.md R183). -/
theorem BudgetRounds.bal_add_le : u.bal + n ≤ s.bal := by
  induction rounds with
  | done s => omega
  | round _ _ stepped running _ ih =>
    obtain ⟨-, -, bal, -⟩ := stepLeavesThePlatformAlone _ _ stepped
    have cost := (completedStepsCostAtLeastOneCycle _ _ stepped).1 running
    dsimp only at ih
    omega

/-- FAULT is set at the end of the rounds only where it was at their entry, and no round ran. -/
theorem BudgetRounds.zero_of_fault {e : DecodeError} (faulted : u.fault = some e) : n = 0 ∧ s.fault = some e := by
  induction rounds with
  | done s => exact ⟨rfl, faulted⟩
  | round _ _ _ running _ ih => cases running.symm.trans (ih faulted).2

end

/-! ## The ends of the loop -/

/-- What the loop answers after `n` rounds from `s` to `u`: the balance is spent; FAULT was set at entry; the step at
`u` records a decode error; or that step has no result (43_conditional.md R283; assumption 26). -/
inductive BudgetEnd (n : Nat) (s u : State) : State × Verdict → Prop where
  | spent (running : u.fault = none) (noBalance : u.bal ≤ 0) : BudgetEnd n s u (u, .ok)
  | stopped (e : DecodeError) (noRound : n = 0) (faulted : s.fault = some e) : BudgetEnd n s u (u, .failed e)
  | faulted (t : State) (e : DecodeError) (balance : 0 < u.bal) (running : u.fault = none)
      (stepped : step u = .next t) (recorded : t.fault = some e) : BudgetEnd n s u (t, .failed e)
  | stuck (balance : 0 < u.bal) (running : u.fault = none) (endless : step u = .fault .skipNeverEnds) :
      BudgetEnd n s u (u, .stuck)

/-- A loop that stops by itself has spent its balance, or found FAULT set at entry. -/
theorem BudgetRounds.end_of_verdict {n : Nat} {s u : State} (rounds : BudgetRounds n s u)
    (spent : u.fault = none → u.bal ≤ 0) : BudgetEnd n s u (u, u.verdict) := by
  cases fault : u.fault with
  | none =>
    rw [State.verdict, fault]
    exact .spent fault (spent fault)
  | some e =>
    obtain ⟨noRound, faulted⟩ := rounds.zero_of_fault fault
    rw [State.verdict, fault]
    exact .stopped e noRound faulted

/-- Only an endless skip leaves a running core without a next state. -/
theorem step_endless_of_no_next {u : State} (running : u.fault = none) (noNext : ∀ t, step u ≠ .next t) :
    step u = .fault .skipNeverEnds := by
  rcases stepStopsOnlyWhenStoppedOrStuck u with ⟨t, stepped⟩ | ⟨e, faulted, -⟩ | ⟨endless, -⟩
  · exact absurd stepped (noNext t)
  · cases running.symm.trans faulted
  · exact endless

/-- A loop given its balance as fuel ends in one of the four ways: since each round takes a cycle, the fuel lasts until
the balance is spent. -/
theorem runBudget_ends (s : State) :
    ∃ n u, BudgetRounds n s u ∧ BudgetEnd n s u (runBudget s.bal.toNat s) := by
  obtain ⟨n, u, rounds, ends⟩ := runBudget_cases s.bal.toNat s
  refine ⟨n, u, rounds, ?_⟩
  rcases ends with ⟨exits, e⟩ | ⟨noFuel, e⟩ | ⟨⟨balance, running⟩, t, stepped, faulted, e⟩ |
    ⟨⟨balance, running⟩, noNext, e⟩ <;> rw [e]
  · exact rounds.end_of_verdict fun running => not_lt.mp fun balance => exits ⟨balance, running⟩
  · have paid := rounds.bal_add_le
    exact rounds.end_of_verdict fun _ => by omega
  · obtain ⟨d, recorded⟩ := Option.ne_none_iff_exists'.mp faulted
    rw [State.verdict, recorded]
    exact .faulted t d balance running stepped recorded
  · exact .stuck balance running (step_endless_of_no_next running noNext)

section
variable {n : Nat} {s u : State} {done : State × Verdict} (ends : BudgetEnd n s u done)
include ends

/-- The last step of the loop, if there is one after the rounds, leaves T, the scheduler and CYC. -/
theorem BudgetEnd.keeps_account :
    done.1.bal = u.bal ∧ done.1.cyc = u.cyc ∧ done.1.last = u.last ∧ done.1.time = u.time := by
  cases ends with
  | spent | stopped | stuck => exact ⟨rfl, rfl, rfl, rfl⟩
  | faulted t e _ _ stepped recorded => exact step_faulted_keeps_account stepped (by rw [recorded]; nofun)

theorem BudgetEnd.wf (hu : u.wf) : done.1.wf := by
  cases ends with
  | spent | stopped | stuck => exact hu
  | faulted t e _ _ stepped _ => exact stepKeepsTheInvariant u t hu stepped

theorem BudgetEnd.bal (rounds : BudgetRounds n s u) : done.1.bal = s.bal - ((done.1.cyc : Int) - s.cyc) := by
  obtain ⟨bal, cyc, -⟩ := ends.keeps_account
  rw [bal, cyc, rounds.bal]

theorem BudgetEnd.bal_le (rounds : BudgetRounds n s u) : done.1.bal ≤ s.bal := by
  obtain ⟨bal, -⟩ := ends.keeps_account
  have paid := rounds.bal_add_le
  omega

/-- The ends as a disjunction, in the words of the statement about an invocation. -/
theorem BudgetEnd.disjunction :
    (done.1 = u ∧ done.2 = .ok ∧ u.fault = none ∧ u.bal ≤ 0) ∨
      (∃ e, done.1 = u ∧ done.2 = .failed e ∧ n = 0 ∧ s.fault = some e) ∨
      (∃ e, step u = .next done.1 ∧ done.2 = .failed e ∧ 0 < u.bal ∧ u.fault = none ∧ done.1.fault = some e) ∨
      (done.1 = u ∧ done.2 = .stuck ∧ 0 < u.bal ∧ u.fault = none ∧ step u = .fault .skipNeverEnds) := by
  cases ends with
  | spent running noBalance => exact .inl ⟨rfl, rfl, running, noBalance⟩
  | stopped e noRound faulted => exact .inr (.inl ⟨e, rfl, rfl, noRound, faulted⟩)
  | faulted t e balance running stepped recorded =>
    exact .inr (.inr (.inl ⟨e, stepped, rfl, balance, running, recorded⟩))
  | stuck balance running endless => exact .inr (.inr (.inr ⟨rfl, rfl, balance, running, endless⟩))

end

/-! ## An invocation -/

/-- The state the loop of a granted invocation is entered in: the devices ticked, T stored, the clamped grant added. -/
def State.ready (s : State) (rate : Nat) (granted : Int) : State :=
  { s.tick.1 with last := some s.time, bal := s.bal + min (rate : Int) granted }

/-- An invocation that is granted cycles is a device tick and a run of the loop. -/
theorem State.invokeWith_of_granted {s : State} {l : Rat} {rate : Nat} {rounding : Config.Rounding}
    (stored : s.last = some l) (granted : roundCycles rounding ((rate : Rat) * (s.time - l)) ≠ 0) :
    s.invokeWith rate rounding =
      let ready := s.ready rate (roundCycles rounding ((rate : Rat) * (s.time - l)))
      { state := (runBudget ready.bal.toNat ready).1, frames := s.tick.2
        verdict := (runBudget ready.bal.toNat ready).2 } := by
  rw [State.invokeWith_of_last stored, if_neg granted, min_comm]
  rfl

/-- Settles O59: the rounds and the end of the loop say what ran and what was taken. -/
theorem invocationSpendsItsGrant : Obligations.InvocationSpendsItsGrant := by
  intro s rate rounding l stored earned enough
  have positive : 1 ≤ roundCycles rounding earned := one_le_roundCycles enough
  rw [State.invokeWith_of_granted stored (by change roundCycles rounding earned ≠ 0; omega),
    ← roundCycles_eq_ite rounding earned]
  intro granted ready done
  obtain ⟨n, u, rounds, ends⟩ := runBudget_ends ready
  obtain ⟨-, -, last, time⟩ := ends.keeps_account
  exact ⟨rfl, ⟨n, u, rounds, ends.disjunction⟩, ends.bal rounds, (ends.bal_le rounds).trans (le_max_right 0 ready.bal),
    last.trans rounds.last, time.trans rounds.time⟩

end Sys2Proof.Machine
end

section
/-! The invariant under the host's actions (70_reset_and_hazards.md R520): each action keeps every part of it, the
device tick and the key events device by device, an invocation through the rounds of its loop. -/

namespace Sys2Proof.Machine

open Claims

/-! ## Devices -/

/-- The invariant survives any change that keeps each device well formed. -/
theorem State.wf.mapDevices {s : State} (hs : s.wf) {f : Device → Device} (keeps : ∀ d : Device, d.wf → (f d).wf) :
    (s.setDevices (s.devices.map f)).wf where
  mem := hs.mem
  devices := List.forall_mem_map.mpr fun d listed => keeps d (hs.devices d listed)
  count := by simpa using hs.count
  time := hs.time
  last := hs.last

/-- A tick moves a deadline forward by a period, and touches neither KB_Q nor KB_DOWN. -/
theorem afterTick_wf (t : Rat) {d : Device} (h : d.wf) : (afterTick t d).wf := by
  cases d with
  | clock k =>
    rw [afterTick]
    split_ifs
    · exact add_nonneg h (clockPeriod_nonneg k.divisor)
    · exact h
  | keyboard k => exact h
  | display d => trivial

theorem pressKey_wf {down : List Nat} (rising : down.Pairwise (· < ·)) (bounded : ∀ u ∈ down, u < 65536) (code : Word) :
    (pressKey down code).Pairwise (· < ·) ∧ ∀ u ∈ pressKey down code, u < 65536 := by
  refine ⟨insertKey_pairwise (rising.filter _) fun u kept => ?_, fun u entered => ?_⟩
  · exact of_decide_eq_true (List.mem_filter.mp kept).2
  · rcases (mem_insertKey _ _ _).mp entered with rfl | kept
    · exact code.isLt
    · exact bounded u (List.mem_filter.mp kept).1

theorem Keyboard.keyDown_queue_length_le {k : Keyboard} (h : k.queue.length ≤ 100) (code : Word) :
    (k.keyDown code).queue.length ≤ 100 := by
  rcases Nat.lt_or_eq_of_le h with room | full
  · rw [Keyboard.keyDown_queue_of_lt code room, List.length_append, List.length_singleton]
    exact room
  · rw [Keyboard.keyDown_queue_of_full code full, List.length_append, List.length_tail, full, List.length_singleton]

theorem Keyboard.keyDown_wf {k : Keyboard} (h : (Device.keyboard k).wf) (code : Word) :
    (Device.keyboard (k.keyDown code)).wf := by
  obtain ⟨queue, rising, bounded⟩ := h
  exact ⟨Keyboard.keyDown_queue_length_le queue code, pressKey_wf rising bounded code⟩

theorem Keyboard.keyUp_wf {k : Keyboard} (h : (Device.keyboard k).wf) (code : Word) :
    (Device.keyboard (k.keyUp code)).wf := by
  obtain ⟨queue, rising, bounded⟩ := h
  exact ⟨queue, rising.filter _, fun u kept => bounded u (List.mem_filter.mp kept).1⟩

/-- A key event reaches the Keyboards alone. -/
theorem mapKeyboard_wf {f : Keyboard → Keyboard} (keeps : ∀ k, (Device.keyboard k).wf → (Device.keyboard (f k)).wf)
    {d : Device} (h : d.wf) : (mapKeyboard f d).wf := by
  cases d with
  | keyboard k => exact keeps k h
  | clock k => exact h
  | display d => trivial

/-! ## The actions -/

section
variable {s : State} (hs : s.wf)
include hs

theorem State.wf.tick : s.tick.1.wf := by
  have ticked := hs.mapDevices fun _ => afterTick_wf s.time
  rw [State.tick_eq]
  exact ticked.congr ticked.mem rfl rfl rfl

theorem State.wf.advanceTime (t : Rat) : (s.advanceTime t).wf where
  mem := hs.mem
  devices := hs.devices
  count := hs.count
  time := hs.time.trans (le_max_left _ _)
  last l stored := (hs.last l stored).trans (le_max_left _ _)

/-- An action that uninitialises the scheduler and leaves DEVICES and T has only memory to answer for. -/
theorem State.wf.uninitialised {t : State} (mem : t.mem.wf) (devices : t.devices = s.devices) (time : t.time = s.time)
    (last : t.last = none) : t.wf where
  mem := mem
  devices := devices ▸ hs.devices
  count := devices ▸ hs.count
  time := time ▸ hs.time
  last _ stored := by cases last.symm.trans stored

theorem State.wf.coreReset : s.coreReset.wf := hs.uninitialised Memory.wf_nil rfl rfl rfl

theorem State.wf.loadProgram (big : Bool) (bytes : List Byte) : (s.loadProgram big bytes).wf :=
  hs.congr (Memory.wf_loadWords hs.mem _) rfl rfl rfl

theorem State.wf.deserialise (bytes : List Byte) : (s.deserialise bytes).1.wf := by
  cases parsed : parseSnapshot bytes with
  | some p =>
    rw [State.deserialise_of_parse parsed]
    exact hs.uninitialised (Memory.wf_loadWords Memory.wf_nil p.words) rfl rfl rfl
  | none =>
    rw [State.deserialise_of_not_parse parsed]
    exact hs.coreReset

/-- Storing T as the scheduler's time is never before it. -/
theorem State.wf.storeTime (bal : Int) : ({ s with last := some s.time, bal := bal } : State).wf where
  mem := hs.mem
  devices := hs.devices
  count := hs.count
  time := hs.time
  last _ stored := (Option.some.inj stored).ge

theorem State.wf.ready (rate : Nat) (granted : Int) : (s.ready rate granted).wf :=
  hs.tick.storeTime _

/-- The rounds of the loop and its last step are CPU steps, which keep the invariant. -/
theorem State.wf.runBudget : (runBudget s.bal.toNat s).1.wf := by
  obtain ⟨n, u, rounds, ends⟩ := runBudget_ends s
  exact ends.wf (rounds.wf hs)

theorem State.wf.invokeWith (rate : Nat) (rounding : Config.Rounding) : (s.invokeWith rate rounding).state.wf := by
  cases stored : s.last with
  | none =>
    rw [State.invokeWith, stored]
    exact hs.storeTime 0
  | some l =>
    by_cases granted : roundCycles rounding ((rate : Rat) * (s.time - l)) = 0
    · rw [State.invokeWith_of_last stored, if_pos granted]
      exact hs
    · rw [State.invokeWith_of_granted stored granted]
      exact (hs.ready rate _).runBudget

end

/-- Settles O41: one lemma for each action. -/
theorem hostActionsKeepTheInvariant : Obligations.HostActionsKeepTheInvariant := by
  intro s act hs
  cases act with
  | tick => exact hs.tick
  | keyDown code => exact hs.mapDevices fun _ => mapKeyboard_wf fun _ h => Keyboard.keyDown_wf h code
  | keyUp code => exact hs.mapDevices fun _ => mapKeyboard_wf fun _ h => Keyboard.keyUp_wf h code
  | advanceTime t => exact hs.advanceTime t
  | invoke => exact hs.invokeWith _ _
  | reset => exact hs.coreReset
  | loadProgram big bytes => exact hs.loadProgram big bytes
  | deserialise bytes => exact hs.deserialise bytes

end Sys2Proof.Machine
end
